-- ==== Sys2Proof/Word.lean ====
section
/-! DEFINITION. The two word types of the HBB: a 32-bit register of the host port and an 8-bit storage unit. -/

namespace Sys2Proof

/-- A 32-bit host register, command word or register operand (10_state.md R21, 30_encoding.md R80). -/
abbrev Word := BitVec 32

/-- One storage unit, "a fixed-width (8-bit) slot in the packed bit storage array" (00_scope.md R7, R16). -/
abbrev Byte := BitVec 8

end Sys2Proof
end

