-- ==== Sys2Proof/Syntax.lean ====
section
/-! DEFINITION. The 30 commands of the opcode map (30_encoding.md R87), one constructor per row of
spec/opcode_table.json, with the operands the command word itself carries (R80, R85). Register operands (A0, A1) are
no part of the word (R84): a meaning reads them from the engine's latches. -/

namespace Sys2Proof

/-- A command. `b` is BUF, the buffer select; `v`, `c`, `d`, `j` are the IMM bits the command uses (30_encoding.md R85). -/
inductive Instr where
  /-- NOP, 43_control.md R230. -/
  | nop
  /-- BB_CLEAR, 40_bitbuffer.md R106. -/
  | bbClear (b : BitVec 2)
  /-- BB_APPEND, 40_bitbuffer.md R103; v = IMM[0]. -/
  | bbAppend (b : BitVec 2) (v : Bool)
  /-- BB_APPEND_CHAR, 40_bitbuffer.md R104; c = IMM[7:0]. -/
  | bbAppendChar (b : BitVec 2) (c : Byte)
  /-- BB_REMOVE, 40_bitbuffer.md R105. -/
  | bbRemove (b : BitVec 2)
  /-- BB_LAST, 40_bitbuffer.md R107. -/
  | bbLast (b : BitVec 2)
  /-- BB_INFO, 40_bitbuffer.md R108. -/
  | bbInfo (b : BitVec 2)
  /-- BB_GETBIT, 40_bitbuffer.md R109; bit index in A0. -/
  | bbGetbit (b : BitVec 2)
  /-- BB_GETCHAR, 40_bitbuffer.md R110; bit index in A0. -/
  | bbGetchar (b : BitVec 2)
  /-- BB_GETUNIT, 40_bitbuffer.md R111; unit index in A0. -/
  | bbGetunit (b : BitVec 2)
  /-- BB_EQUAL, 40_bitbuffer.md R112; the other buffer in A0. -/
  | bbEqual (b : BitVec 2)
  /-- BB_ITB_START, 41_bitbuffer_serial.md R141. -/
  | bbItbStart (b : BitVec 2)
  /-- BB_ITB_NEXT, 41_bitbuffer_serial.md R142. -/
  | bbItbNext (b : BitVec 2)
  /-- BB_ITU_START, 41_bitbuffer_serial.md R143. -/
  | bbItuStart (b : BitVec 2)
  /-- BB_ITU_NEXT, 41_bitbuffer_serial.md R144. -/
  | bbItuNext (b : BitVec 2)
  /-- BB_SER_LEN, 41_bitbuffer_serial.md R151. -/
  | bbSerLen (b : BitVec 2)
  /-- BB_SER_BYTE, 41_bitbuffer_serial.md R152; byte offset in A0. -/
  | bbSerByte (b : BitVec 2)
  /-- BB_DESER_BEGIN, 41_bitbuffer_serial.md R160. -/
  | bbDeserBegin (b : BitVec 2)
  /-- BB_DESER_BYTE, 41_bitbuffer_serial.md R161; d = IMM[7:0]. -/
  | bbDeserByte (b : BitVec 2) (d : Byte)
  /-- BB_DESER_END, 41_bitbuffer_serial.md R163. -/
  | bbDeserEnd (b : BitVec 2)
  /-- HT_CLEAR, 42_huffman.md R181. -/
  | htClear
  /-- HT_PUSH, 42_huffman.md R182; symbol in A0, weight in A1. -/
  | htPush
  /-- HT_BUILD, 42_huffman.md R192. -/
  | htBuild
  /-- HT_INFO, 42_huffman.md R210. -/
  | htInfo
  /-- HT_NODE_WEIGHT, 42_huffman.md R211; node index in A0. -/
  | htNodeWeight
  /-- HT_NODE_PARENT, 42_huffman.md R212; node index in A0. -/
  | htNodeParent
  /-- HT_NODE_CHILDREN, 42_huffman.md R213; node index in A0. -/
  | htNodeChildren
  /-- HT_NODE_SYMBOL, 42_huffman.md R214; node index in A0. -/
  | htNodeSymbol
  /-- HT_NODE_CODE, 42_huffman.md R215; node index in A0, chunk number j = IMM. -/
  | htNodeCode (j : BitVec 16)
  /-- HT_LOOKUP, 42_huffman.md R216; symbol in A0. -/
  | htLookup
  deriving DecidableEq, Repr

end Sys2Proof
end

