-- ==== Sys2Proof/Decode.lean ====
section
/-! DEFINITION. Decoding a command word, total on all 32-bit words and rejecting by name (30_encoding.md R80 to R88),
the encoder written from the same format, and the opcode map as the spec prints it (R87). The check BUF < NBUF (R86)
depends on the instance and is made when the command runs (Machine/Operands.lean, `selectBuf`; log 20). -/

namespace Sys2Proof

/-! ### The fields of the one format CMD (30_encoding.md R80) -/

/-- OPC, bits [7:0]. -/
def fieldOpc (w : Word) : BitVec 8 := w.extractLsb' 0 8

/-- BUF, bits [9:8]. -/
def fieldBuf (w : Word) : BitVec 2 := w.extractLsb' 8 2

/-- RSV, bits [15:10]. -/
def fieldRsv (w : Word) : BitVec 6 := w.extractLsb' 10 6

/-- IMM, bits [31:16]. -/
def fieldImm (w : Word) : BitVec 16 := w.extractLsb' 16 16

/-- `CMD = (IMM << 16) | (BUF << 8) | OPC` with RSV = 0 (30_encoding.md R80). -/
def commandWord (imm : BitVec 16) (buf : BitVec 2) (opc : BitVec 8) : Word :=
  (imm ++ 0#6 ++ buf ++ opc : BitVec (16 + 6 + 2 + 8))

/-! ### Decoding -/

/-- Why a word is no command of the opcode map (30_encoding.md R88). Each one makes the engine raise ILLEGAL
(43_control.md R231). -/
inductive DecodeError where
  /-- RSV, bits [15:10], is not 0 (R83). -/
  | reservedBits
  /-- OPC is one of the unassigned opcodes (R88). -/
  | unassignedOpcode
  /-- BUF is not 0 in NOP or a Huffman command (R82). -/
  | bufNotZero
  /-- An IMM bit is set that the row fixes to 0 (R85). -/
  | immNotZero
  deriving DecidableEq, Repr

/-- The command `i`, if the IMM of `w` is below `bound`: the IMM bits a row fixes are those of weight `bound` and more
(30_encoding.md R85). -/
def immBelow (bound : Nat) (w : Word) (i : Instr) : Except DecodeError Instr :=
  if (fieldImm w).toNat < bound then .ok i else .error .immNotZero

/-- A command that names no buffer: BUF is part of the fixed pattern (30_encoding.md R82). -/
def bufZero (w : Word) (r : Except DecodeError Instr) : Except DecodeError Instr :=
  if fieldBuf w = 0 then r else .error .bufNotZero

/-- The opcode map by OPC (30_encoding.md R87), for a word whose RSV is 0. -/
def decodeOpc (w : Word) : Except DecodeError Instr :=
  match fieldOpc w with
  | 0x00#8 => bufZero w (immBelow 1 w .nop)
  | 0x10#8 => immBelow 1 w (.bbClear (fieldBuf w))
  | 0x11#8 => immBelow 2 w (.bbAppend (fieldBuf w) ((fieldImm w).getLsbD 0))
  | 0x12#8 => immBelow 256 w (.bbAppendChar (fieldBuf w) ((fieldImm w).setWidth 8))
  | 0x13#8 => immBelow 1 w (.bbRemove (fieldBuf w))
  | 0x14#8 => immBelow 1 w (.bbLast (fieldBuf w))
  | 0x15#8 => immBelow 1 w (.bbInfo (fieldBuf w))
  | 0x16#8 => immBelow 1 w (.bbGetbit (fieldBuf w))
  | 0x17#8 => immBelow 1 w (.bbGetchar (fieldBuf w))
  | 0x18#8 => immBelow 1 w (.bbGetunit (fieldBuf w))
  | 0x19#8 => immBelow 1 w (.bbEqual (fieldBuf w))
  | 0x1A#8 => immBelow 1 w (.bbItbStart (fieldBuf w))
  | 0x1B#8 => immBelow 1 w (.bbItbNext (fieldBuf w))
  | 0x1C#8 => immBelow 1 w (.bbItuStart (fieldBuf w))
  | 0x1D#8 => immBelow 1 w (.bbItuNext (fieldBuf w))
  | 0x20#8 => immBelow 1 w (.bbSerLen (fieldBuf w))
  | 0x21#8 => immBelow 1 w (.bbSerByte (fieldBuf w))
  | 0x22#8 => immBelow 1 w (.bbDeserBegin (fieldBuf w))
  | 0x23#8 => immBelow 256 w (.bbDeserByte (fieldBuf w) ((fieldImm w).setWidth 8))
  | 0x24#8 => immBelow 1 w (.bbDeserEnd (fieldBuf w))
  | 0x30#8 => bufZero w (immBelow 1 w .htClear)
  | 0x31#8 => bufZero w (immBelow 1 w .htPush)
  | 0x32#8 => bufZero w (immBelow 1 w .htBuild)
  | 0x33#8 => bufZero w (immBelow 1 w .htInfo)
  | 0x34#8 => bufZero w (immBelow 1 w .htNodeWeight)
  | 0x35#8 => bufZero w (immBelow 1 w .htNodeParent)
  | 0x36#8 => bufZero w (immBelow 1 w .htNodeChildren)
  | 0x37#8 => bufZero w (immBelow 1 w .htNodeSymbol)
  | 0x38#8 => bufZero w (.ok (.htNodeCode (fieldImm w)))
  | 0x39#8 => bufZero w (immBelow 1 w .htLookup)
  | _    => .error .unassignedOpcode

/-- Decoding (30_encoding.md R86): every 32-bit word is a command of the map or rejected by name. -/
def decode (w : Word) : Except DecodeError Instr :=
  if fieldRsv w = 0 then decodeOpc w else .error .reservedBits

/-- What the decoder reads from a command whose bits are the number `w`, of which `nbits` are given and the rest are 0. -/
def decodeTableWord (nbits w : Nat) : Option Instr :=
  match decode (BitVec.ofNat 32 (w % 2 ^ nbits)) with
  | .ok i    => some i
  | .error _ => none

/-! ### Encoding -/

/-- The word of a command (30_encoding.md R80, R85, R87). -/
def encode : Instr → Word
  | .nop => commandWord 0 0 0x00
  | .bbClear b => commandWord 0 b 0x10
  | .bbAppend b v => commandWord ((BitVec.ofBool v).setWidth 16) b 0x11
  | .bbAppendChar b c => commandWord (c.setWidth 16) b 0x12
  | .bbRemove b => commandWord 0 b 0x13
  | .bbLast b => commandWord 0 b 0x14
  | .bbInfo b => commandWord 0 b 0x15
  | .bbGetbit b => commandWord 0 b 0x16
  | .bbGetchar b => commandWord 0 b 0x17
  | .bbGetunit b => commandWord 0 b 0x18
  | .bbEqual b => commandWord 0 b 0x19
  | .bbItbStart b => commandWord 0 b 0x1A
  | .bbItbNext b => commandWord 0 b 0x1B
  | .bbItuStart b => commandWord 0 b 0x1C
  | .bbItuNext b => commandWord 0 b 0x1D
  | .bbSerLen b => commandWord 0 b 0x20
  | .bbSerByte b => commandWord 0 b 0x21
  | .bbDeserBegin b => commandWord 0 b 0x22
  | .bbDeserByte b d => commandWord (d.setWidth 16) b 0x23
  | .bbDeserEnd b => commandWord 0 b 0x24
  | .htClear => commandWord 0 0 0x30
  | .htPush => commandWord 0 0 0x31
  | .htBuild => commandWord 0 0 0x32
  | .htInfo => commandWord 0 0 0x33
  | .htNodeWeight => commandWord 0 0 0x34
  | .htNodeParent => commandWord 0 0 0x35
  | .htNodeChildren => commandWord 0 0 0x36
  | .htNodeSymbol => commandWord 0 0 0x37
  | .htNodeCode j => commandWord j 0 0x38
  | .htLookup => commandWord 0 0 0x39

/-! ### The opcode map as masks and matches (30_encoding.md R87) -/

/-- The (mask, match) pair of a command's row. -/
def opcodeRow : Instr → Word × Word
  | .nop => (0xFFFFFFFF#32, 0x00000000#32)
  | .bbClear _ => (0xFFFFFCFF#32, 0x00000010#32)
  | .bbAppend _ _ => (0xFFFEFCFF#32, 0x00000011#32)
  | .bbAppendChar _ _ => (0xFF00FCFF#32, 0x00000012#32)
  | .bbRemove _ => (0xFFFFFCFF#32, 0x00000013#32)
  | .bbLast _ => (0xFFFFFCFF#32, 0x00000014#32)
  | .bbInfo _ => (0xFFFFFCFF#32, 0x00000015#32)
  | .bbGetbit _ => (0xFFFFFCFF#32, 0x00000016#32)
  | .bbGetchar _ => (0xFFFFFCFF#32, 0x00000017#32)
  | .bbGetunit _ => (0xFFFFFCFF#32, 0x00000018#32)
  | .bbEqual _ => (0xFFFFFCFF#32, 0x00000019#32)
  | .bbItbStart _ => (0xFFFFFCFF#32, 0x0000001A#32)
  | .bbItbNext _ => (0xFFFFFCFF#32, 0x0000001B#32)
  | .bbItuStart _ => (0xFFFFFCFF#32, 0x0000001C#32)
  | .bbItuNext _ => (0xFFFFFCFF#32, 0x0000001D#32)
  | .bbSerLen _ => (0xFFFFFCFF#32, 0x00000020#32)
  | .bbSerByte _ => (0xFFFFFCFF#32, 0x00000021#32)
  | .bbDeserBegin _ => (0xFFFFFCFF#32, 0x00000022#32)
  | .bbDeserByte _ _ => (0xFF00FCFF#32, 0x00000023#32)
  | .bbDeserEnd _ => (0xFFFFFCFF#32, 0x00000024#32)
  | .htClear => (0xFFFFFFFF#32, 0x00000030#32)
  | .htPush => (0xFFFFFFFF#32, 0x00000031#32)
  | .htBuild => (0xFFFFFFFF#32, 0x00000032#32)
  | .htInfo => (0xFFFFFFFF#32, 0x00000033#32)
  | .htNodeWeight => (0xFFFFFFFF#32, 0x00000034#32)
  | .htNodeParent => (0xFFFFFFFF#32, 0x00000035#32)
  | .htNodeChildren => (0xFFFFFFFF#32, 0x00000036#32)
  | .htNodeSymbol => (0xFFFFFFFF#32, 0x00000037#32)
  | .htNodeCode _ => (0x0000FFFF#32, 0x00000038#32)
  | .htLookup => (0xFFFFFFFF#32, 0x00000039#32)

end Sys2Proof
end

