-- ==== Sys2Proof/Config.lean ====
section
/-! DEFINITION. What an implementation of the HBB fixes (00_scope.md R8, 20_memory.md R64) and the one free value
the spec leaves (20_memory.md R71). -/

namespace Sys2Proof

/-- WORD_BYTES (W): the byte width of a metadata field of the wire image, 4 or 8 (00_scope.md R8, R10). -/
inductive WordBytes where
  | four
  | eight
  deriving DecidableEq, Repr

/-- BIT_ORDER: which physical bit of a unit holds in-unit position p (00_scope.md R8, 20_memory.md R62). -/
inductive BitOrder where
  | lsbFirst
  | msbFirst
  deriving DecidableEq, Repr

/-- MERGE_POLICY: whether the merge scan skips nodes that have a parent (00_scope.md R8, 42_huffman.md R186). -/
inductive MergePolicy where
  | excludeParented
  | sourceLiteral
  deriving DecidableEq, Repr

/-- DUP_LOOKUP: which leaf a lookup of a repeated symbol returns (00_scope.md R8, 42_huffman.md R199). -/
inductive DupLookup where
  | last
  | first
  deriving DecidableEq, Repr

/-- The parameters a model takes as arguments (00_scope.md R8), and HBB_BASE (20_memory.md R64). Their legal
ranges are `Params.Legal`. -/
structure Params where
  /-- WORD_BYTES. -/
  wordBytes  : WordBytes
  /-- BIT_ORDER. -/
  bitOrder   : BitOrder
  /-- NBUF, 1 to 4. -/
  nbuf       : Nat
  /-- MAX_UNITS, 1 to 2^29 - 1. -/
  maxUnits   : Nat
  /-- SYM_BITS, 1 to 16. -/
  symBits    : Nat
  /-- MAX_ENTRIES, 1 to 32768. -/
  maxEntries : Nat
  /-- WEIGHT_BITS, 1 to 32 - LOG2E. -/
  weightBits : Nat
  /-- MERGE_POLICY. -/
  merge      : MergePolicy
  /-- DUP_LOOKUP. -/
  dup        : DupLookup
  /-- HBB_BASE, the host address of the port's first byte; the spec gives it no range and no reference value. -/
  hbbBase    : Nat
  deriving DecidableEq, Repr

/-- The reference values of 00_scope.md R8. HBB_BASE has none there: 0 is a DESIGN CHOICE (log 2; safe, since every
statement holds for every base). -/
def Params.reference : Params where
  wordBytes  := .eight
  bitOrder   := .lsbFirst
  nbuf       := 2
  maxUnits   := 4096
  symBits    := 8
  maxEntries := 256
  weightBits := 24
  merge      := .excludeParented
  dup        := .last
  hbbBase    := 0

/-- The free value behind a host read of RES0, RES1 or STATUS.ERR while BUSY = 1: "returns any value (the model draws
it)" (20_memory.md R71, 70_reset_and_hazards.md R293). The n-th draw is `freeRead n`; nothing constrains it (log 6; safe). -/
opaque Config.freeRead : Nat → Word

end Sys2Proof
end

