-- ==== Sys2Proof/Machine/Derived.lean ====
section
/-! DEFINITION. The constants derived from the parameters (00_scope.md R9), the legal parameter ranges (R8), and the
read-only CONFIG registers that report them (10_state.md R31, R33 to R35). -/

namespace Sys2Proof

/-- W as a number (00_scope.md R8). -/
def WordBytes.bytes : WordBytes → Nat
  | .four  => 4
  | .eight => 8

/-- LOG2E of a number of entries: ceil(log2 m), 0 when m = 1 (00_scope.md R9). -/
def ceilLog2 (m : Nat) : Nat :=
  if m ≤ 1 then 0 else Nat.log2 (m - 1) + 1

/-- `ceil_div(a, b) = (a + b - 1) div b` (00_scope.md R11). -/
def ceilDiv (a b : Nat) : Nat :=
  (a + b - 1) / b

/-- W, the width in bytes of a metadata field of the wire image. -/
def Params.w (p : Params) : Nat :=
  p.wordBytes.bytes

/-- MAX_BITS, the largest bitCount (00_scope.md R9). -/
def Params.maxBits (p : Params) : Nat :=
  8 * p.maxUnits

/-- LOG2E (00_scope.md R9). -/
def Params.log2e (p : Params) : Nat :=
  ceilLog2 p.maxEntries

/-- NODE_BITS, the width of a node weight (00_scope.md R9). -/
def Params.nodeBits (p : Params) : Nat :=
  p.weightBits + p.log2e

/-- MAX_NODES (00_scope.md R9). -/
def Params.maxNodes (p : Params) : Nat :=
  2 * p.maxEntries - 1

/-- MAX_CODE_LEN, the longest code (00_scope.md R9). -/
def Params.maxCodeLen (p : Params) : Nat :=
  p.maxEntries - 1

/-- CODE_CHUNKS, how many 32-bit chunks hold a code (00_scope.md R9). -/
def Params.codeChunks (p : Params) : Nat :=
  max 1 (ceilDiv p.maxCodeLen 32)

/-- SCAP, the capacity in bytes of a staging area (00_scope.md R9). -/
def Params.scap (p : Params) : Nat :=
  3 * p.w + p.maxUnits

/-- The legal values of the parameters (00_scope.md R8). The parameters with two values are legal by their types. -/
abbrev Params.Legal (p : Params) : Prop :=
  (1 ≤ p.nbuf ∧ p.nbuf ≤ 4) ∧
  (1 ≤ p.maxUnits ∧ p.maxUnits ≤ 2 ^ 29 - 1) ∧
  (1 ≤ p.symBits ∧ p.symBits ≤ 16) ∧
  (1 ≤ p.maxEntries ∧ p.maxEntries ≤ 32768) ∧
  (1 ≤ p.weightBits ∧ p.weightBits ≤ 32 - p.log2e)

/-- ID: bits [31:16] are 'H', 'B', bits [15:0] are HBB-1 (10_state.md R31). -/
def idWord : Word :=
  0x48420001#32

/-- CONFIG0, field by field from bit 31 down (10_state.md R33). -/
def Params.config0 (p : Params) : Word :=
  (0#15 ++ BitVec.ofNat 5 (p.weightBits - 1) ++ BitVec.ofNat 4 (p.symBits - 1) ++ 0#2
    ++ BitVec.ofBool (p.dup == .first) ++ BitVec.ofBool (p.merge == .sourceLiteral)
    ++ BitVec.ofBool (p.bitOrder == .msbFirst) ++ BitVec.ofBool (p.wordBytes == .eight)
    ++ BitVec.ofNat 2 (p.nbuf - 1) : BitVec (15 + 5 + 4 + 2 + 1 + 1 + 1 + 1 + 2))

/-- CONFIG1 holds MAX_UNITS (10_state.md R34). -/
def Params.config1 (p : Params) : Word :=
  BitVec.ofNat 32 p.maxUnits

/-- CONFIG2 holds MAX_ENTRIES (10_state.md R35). -/
def Params.config2 (p : Params) : Word :=
  BitVec.ofNat 32 p.maxEntries

end Sys2Proof
end

