-- ==== Sys2Proof/Machine/State.lean ====
section
/-! DEFINITION. The state of an HBB (10_state.md R20 to R55) as plain data, the reasons a step can stop, and the state
after reset (R55). -/

namespace Sys2Proof.Machine

/-- The codes of STATUS.ERR (60_exceptions.md R250), by name; codes 12 to 15 are "never written" and have no name. The
numbers are `ErrCode.code` (Machine/Flags.lean). -/
inductive ErrCode where
  | ok
  | underflow
  | empty
  | range
  | capacity
  | malformed
  | notBuilt
  | built
  | iterStale
  | illegal
  | notFound
  | sequence
  deriving DecidableEq, Repr

/-- Why a wire image is malformed (41_bitbuffer_serial.md R162); the subcodes are `Subcode.code` (Machine/Wire.lean). -/
inductive Subcode where
  | shortHeader
  | lengthMismatch
  | zeroUnits
  | indexMismatch
  | countMismatch
  | nonzeroTail
  deriving DecidableEq, Repr

/-- The state of a traversal cursor (10_state.md R44). -/
inductive CursorState where
  | idle
  | active
  | stale
  deriving DecidableEq, Repr

/-- A traversal cursor: its state and the index of the next element (10_state.md R44). -/
structure Cursor where
  state : CursorState
  pos   : Nat
  deriving DecidableEq, Repr

/-- A deserialisation staging area (10_state.md R45). -/
structure Staging where
  active : Bool
  bytes  : List Byte
  ovf    : Bool
  deriving DecidableEq, Repr

/-- One bit buffer (10_state.md R40). unitCount is `units.length`; currentUnitIndex is no separate state (R41). -/
structure Buffer where
  /-- "total logical bits appended and not yet removed". -/
  bitCount : Nat
  /-- The storage units, unit 0 first. -/
  units    : List Byte
  /-- The bit cursor. -/
  itb      : Cursor
  /-- The unit cursor. -/
  itu      : Cursor
  /-- The staging area. -/
  stg      : Staging
  deriving DecidableEq, Repr

/-- The buffers B[0] to B[3] that the two BUF bits can name (30_encoding.md R80). An instance has the first NBUF of
them; no command reaches the others (30_encoding.md R82, log 10). -/
structure Buffers where
  b0 : Buffer
  b1 : Buffer
  b2 : Buffer
  b3 : Buffer
  deriving DecidableEq, Repr

/-- A raw entry of the Huffman unit (10_state.md R48). -/
structure Entry where
  symbol : Nat
  weight : Nat
  deriving DecidableEq, Repr

/-- A tree node (10_state.md R49); an absent symbol or link is `none`. A code is its list of bits, position 0 first. -/
structure Node where
  symbol : Option Nat
  weight : Nat
  parent : Option Nat
  left   : Option Nat
  right  : Option Nat
  code   : List Bool
  deriving DecidableEq, Repr

/-- The phase of the Huffman unit (10_state.md R48). -/
inductive Phase where
  | loading
  | built
  deriving DecidableEq, Repr

/-- The Huffman unit's state H (10_state.md R48). -/
structure Huffman where
  phase : Phase
  raw   : List Entry
  n     : Nat
  nodes : List Node
  deriving DecidableEq, Repr

/-- What happens next at the block's boundary (00_scope.md R18, 20_memory.md R65, 70_reset_and_hazards.md R280, R290,
R294). The list `State.inputs` of these is the interleaving of the host, the engine and the reset line (log 4). -/
inductive Input where
  /-- `MemRead(addr, width)` by the host. -/
  | read (addr width : Nat)
  /-- `MemWrite(addr, width, data)` by the host. -/
  | write (addr width : Nat) (data : Word)
  /-- The engine runs the command in progress, if there is one, as one atomic step. -/
  | engine
  /-- The reset input is asserted. -/
  | resetAssert
  /-- The reset input is released. -/
  | resetRelease
  deriving DecidableEq, Repr

/-- The whole state (10_state.md R20). -/
structure State where
  /-- The parameters (00_scope.md R8): the model's own field, an argument that no step changes (log 1). -/
  cfg       : Params
  /-- CMD readback: the last accepted command word (10_state.md R30). -/
  cmd       : Word
  /-- ARG0 (10_state.md R21). -/
  arg0      : Word
  /-- ARG1 (10_state.md R21). -/
  arg1      : Word
  /-- RES0 (10_state.md R21). -/
  res0      : Word
  /-- RES1 (10_state.md R21). -/
  res1      : Word
  /-- STATUS.ERR (10_state.md R24). -/
  err       : ErrCode
  /-- STATUS.BUSY (10_state.md R25, R51). -/
  busy      : Bool
  /-- STATUS.ERR_STICKY (10_state.md R26). -/
  errSticky : Bool
  /-- STATUS.OVERRUN (10_state.md R27). -/
  overrun   : Bool
  /-- The engine's latched command word (10_state.md R51). -/
  latCmd    : Word
  /-- The engine's latched A0 (10_state.md R51, 70_reset_and_hazards.md R292). -/
  latA0     : Word
  /-- The engine's latched A1 (10_state.md R51, 70_reset_and_hazards.md R292). -/
  latA1     : Word
  /-- The bit buffers (10_state.md R40). -/
  bufs      : Buffers
  /-- The Huffman unit (10_state.md R48). -/
  ht        : Huffman
  /-- The reset input is asserted (70_reset_and_hazards.md R280; the model's own field, log 8). -/
  inReset   : Bool
  /-- What is still to happen at the block's boundary (the model's own field, log 4). -/
  inputs    : List Input
  /-- The host's index into its program (10_state.md R22; the model's own field, log 17). -/
  hostPos   : Nat
  /-- The value the host's last register read returned (the model's own field, log 17). -/
  rdata     : Word
  /-- How many free values have been drawn (20_memory.md R71; the model's own field, log 6). -/
  draws     : Nat
  deriving DecidableEq, Repr

/-- Why the machine has no step. None of these is raised by a command: a command that fails is a next state
(60_exceptions.md R262, R263). -/
inductive Fault where
  /-- Raised by a host access while reset is asserted: "the port accepts no access (the host has no step)"
  (70_reset_and_hazards.md R280). Safe: the model stops. -/
  | resetAsserted
  deriving DecidableEq, Repr

/-- What the machine refuses. -/
inductive Refusal where
  /-- Raised by `exec` for a command that has no meaning yet; no arm raises it. Safe: the model stops. -/
  | notModelled (mnemonic : String)
  /-- Raised by a host access that is not 32 bits wide, not aligned, or outside the port: "not admitted: the model has no
  step for it (the host is stuck)" (20_memory.md R65; treatment `refuse`, 93_implementation_defined.md §2 item 3). Safe:
  the model stops. -/
  | accessNotAdmitted
  deriving DecidableEq, Repr

/-- A cursor no traversal has used (10_state.md R55). -/
def Cursor.reset : Cursor where
  state := .idle
  pos   := 0

/-- No deserialisation session (10_state.md R55). -/
def Staging.closed : Staging where
  active := false
  bytes  := []
  ovf    := false

/-- A buffer "created empty (one zeroed unit, `bitCount = 0`)" (10_state.md R55). -/
def Buffer.reset : Buffer where
  bitCount := 0
  units    := [0#8]
  itb      := .reset
  itu      := .reset
  stg      := .closed

/-- The Huffman unit after reset and after HT_CLEAR (10_state.md R55, 42_huffman.md R181). -/
def Huffman.reset : Huffman where
  phase := .loading
  raw   := []
  n     := 0
  nodes := []

/-- The state after reset of an HBB with parameters `p` (10_state.md R55). The engine's latches are "not observable"
there: 0 is a DESIGN CHOICE (log 3, unsafe). The host has nothing to do yet, has read nothing and no value is drawn:
DESIGN CHOICE (log 4, 6, 17, unsafe for a claim that rests on them). -/
def State.resetWith (p : Params) : State where
  cfg       := p
  cmd       := 0
  arg0      := 0
  arg1      := 0
  res0      := 0
  res1      := 0
  err       := .ok
  busy      := false
  errSticky := false
  overrun   := false
  latCmd    := 0
  latA0     := 0
  latA1     := 0
  bufs      := { b0 := .reset, b1 := .reset, b2 := .reset, b3 := .reset }
  ht        := .reset
  inReset   := false
  inputs    := []
  hostPos   := 0
  rdata     := 0
  draws     := 0

/-- The state after reset (10_state.md R55) with the reference parameters of 00_scope.md R8 (DESIGN CHOICE, log 1). -/
def State.reset : State :=
  State.resetWith Params.reference

end Sys2Proof.Machine
end

