-- ==== Sys2Proof/Machine/Ops.lean ====
section
/-! DEFINITION. The named operations over the state: how a command ends (`complete`, and `raise`, the one operation by
which an error is taken), access to a buffer, the bits of a storage unit, and the buffer primitives AppendBit,
RemoveLast and MarkStale. -/

namespace Sys2Proof.Machine

/-- The answer of a command or of a step. -/
abbrev Answer := Host.Outcome State Fault Refusal

/-- `zext_32` of a number below 2^32 (00_scope.md R11). Every number a command reports is below 2^32 in a state a run
reaches (log 15). -/
def word32 (n : Nat) : Word :=
  BitVec.ofNat 32 n

/-- A bit as a 32-bit result, 0 or 1 (00_scope.md R12). -/
def bitWord (v : Bool) : Word :=
  if v then 1 else 0

/-! ### Ending a command -/

/-- The state a command leaves when it completes: ERR = 0, RES0, RES1, and BUSY falls (00_scope.md R13 `complete`,
10_state.md R24 to R26). ERR_STICKY stays. -/
def State.completed (r0 r1 : Word) (s : State) : State :=
  { s with err := .ok, res0 := r0, res1 := r1, busy := false }

/-- `complete(r0, r1)` ends a command successfully (00_scope.md R13). -/
def complete (r0 r1 : Word) (s : State) : Answer :=
  .next (s.completed r0 r1)

/-- The state an error leaves: ERR, RES0 = info, RES1 = 0, ERR_STICKY = 1, BUSY falls, "nothing else changes"
(60_exceptions.md R262). -/
def State.raised (e : ErrCode) (info : Word) (s : State) : State :=
  { s with err := e, res0 := info, res1 := 0, errSticky := true, busy := false }

/-- `raise E(info)`, the one operation by which an error is taken (00_scope.md R13, 60_exceptions.md R262). There is no
trap entry and no return from one: "an error saves no state, changes no mode or mask, and transfers control nowhere"
(R263, R264), so the host simply goes on. -/
def raise (e : ErrCode) (info : Word) (s : State) : Answer :=
  .next (s.raised e info)

/-! ### Buffers by number -/

/-- B[b] among the four buffers BUF can name. -/
def Buffers.get (bs : Buffers) (b : BitVec 2) : Buffer :=
  match b.toNat with
  | 0 => bs.b0
  | 1 => bs.b1
  | 2 => bs.b2
  | _ => bs.b3

/-- The four buffers with B[b] replaced. -/
def Buffers.set (bs : Buffers) (b : BitVec 2) (B : Buffer) : Buffers :=
  match b.toNat with
  | 0 => { bs with b0 := B }
  | 1 => { bs with b1 := B }
  | 2 => { bs with b2 := B }
  | _ => { bs with b3 := B }

/-- B[b] (00_scope.md R13). -/
def State.buf (s : State) (b : BitVec 2) : Buffer :=
  s.bufs.get b

/-- `B[b] <- B`. -/
def State.setBuf (s : State) (b : BitVec 2) (B : Buffer) : State :=
  { s with bufs := s.bufs.set b B }

/-- `H <- H'`. -/
def State.setHt (s : State) (H : Huffman) : State :=
  { s with ht := H }

/-! ### The bits of a storage unit -/

/-- The physical bit of in-unit position `p` (20_memory.md R62, R63). -/
def physBit (o : BitOrder) (p : Nat) : Nat :=
  match o with
  | .lsbFirst => p
  | .msbFirst => 7 - p

/-- `UnitBit(u, p)` (00_scope.md R13). -/
def unitBit (o : BitOrder) (u : Byte) (p : Nat) : Bool :=
  u.getLsbD (physBit o p)

/-- `SetUnitBit(u, p, v)`: "u with that one bit replaced by v" (00_scope.md R13). -/
def setUnitBit (o : BitOrder) (u : Byte) (p : Nat) (v : Bool) : Byte :=
  let m : Byte := 1#8 <<< physBit o p
  if v then u ||| m else u &&& ~~~m

/-! ### The buffer primitives -/

/-- `Bit(b, k) = UnitBit(B[b].units[k div 8], k mod 8)` (00_scope.md R15). -/
def Buffer.bit (o : BitOrder) (B : Buffer) (k : Nat) : Bool :=
  unitBit o (B.units.getD (k / 8) 0) (k % 8)

/-- One cursor under MarkStale: ACTIVE becomes STALE and pos is kept, IDLE and STALE stay (70_reset_and_hazards.md R295). -/
def Cursor.markStale (c : Cursor) : Cursor :=
  match c.state with
  | .active => { c with state := .stale }
  | .idle   => c
  | .stale  => c

/-- `MarkStale(b)` (70_reset_and_hazards.md R295). -/
def Buffer.markStale (B : Buffer) : Buffer :=
  { B with itb := B.itb.markStale, itu := B.itu.markStale }

/-- The units AppendBit writes into: a new zeroed unit is allocated when the current one is full (40_bitbuffer.md R101). -/
def Buffer.grownUnits (B : Buffer) : List Byte :=
  if 0 < B.bitCount ∧ B.bitCount % 8 = 0 then B.units ++ [0#8] else B.units

/-- `AppendBit(b, v)` past its capacity check (40_bitbuffer.md R101). -/
def Buffer.appendBit (o : BitOrder) (v : Bool) (B : Buffer) : Buffer :=
  let us := B.grownUnits
  let k  := us.length - 1
  let u  := setUnitBit o (us.getD k 0) (B.bitCount % 8) v
  Buffer.markStale { B with units := us.set k u, bitCount := B.bitCount + 1 }

/-- The bit RemoveLast returns, UnitBit(units[k], (bitCount - 1) mod 8) with k = currentUnitIndex (40_bitbuffer.md R102). -/
def Buffer.removedBit (o : BitOrder) (B : Buffer) : Bool :=
  unitBit o (B.units.getD (B.units.length - 1) 0) ((B.bitCount - 1) % 8)

/-- `RemoveLast(b)` past its underflow check: the vacated slot is cleared first; the trailing unit goes when it holds no
logical bit any more and is not the only one (40_bitbuffer.md R102, 90_conflicts.md C2). -/
def Buffer.removeLast (o : BitOrder) (B : Buffer) : Buffer :=
  let k  := B.units.length - 1
  let u  := setUnitBit o (B.units.getD k 0) ((B.bitCount - 1) % 8) false
  let us := B.units.set k u
  let n  := B.bitCount - 1
  Buffer.markStale
    { B with bitCount := n, units := if n = 8 * k ∧ 1 < us.length then us.take k else us }

end Sys2Proof.Machine
end

