-- ==== Sys2Proof/Machine/Operands.lean ====
section
/-! DEFINITION. The operand forms of the commands: the buffer a command selects (BUF, checked against NBUF), the
latched register operands A0 and A1, and the representation of an absent link or symbol. -/

namespace Sys2Proof.Machine

/-- A0, "zero-extended 32-bit unsigned", as latched when the command was issued (30_encoding.md R84,
70_reset_and_hazards.md R292). -/
def State.a0 (s : State) : Nat :=
  s.latA0.toNat

/-- A1, likewise. -/
def State.a1 (s : State) : Nat :=
  s.latA1.toNat

/-- A bit-buffer command on `b = BUF`: "If `b ≥ NBUF` the command raises ILLEGAL" before its own checks
(30_encoding.md R82, R86; 60_exceptions.md R265). -/
def selectBuf (b : BitVec 2) (s : State) (run : Buffer → Answer) : Answer :=
  if s.cfg.nbuf ≤ b.toNat then raise .illegal 0 s else run (s.buf b)

/-- NONE, returned where an optional link or symbol is absent (00_scope.md R17). -/
def noneWord : Word :=
  0xFFFFFFFF#32

/-- A link or symbol as a result word, NONE if absent (42_huffman.md R180). -/
def optWord : Option Nat → Word
  | some k => word32 k
  | none   => noneWord

/-- The value of the appended bit for a text character: 1 for '1' (0x31), 0 for any other byte (40_bitbuffer.md R104,
00_scope.md R12). -/
def charBit (c : Byte) : Bool :=
  c == 0x31#8

/-- A bit as a text character, 0x30 + bit (40_bitbuffer.md R110). -/
def bitChar (v : Bool) : Word :=
  if v then 0x31 else 0x30

end Sys2Proof.Machine
end

