-- ==== Sys2Proof/Machine/BitBuffer.lean ====
section
/-! DEFINITION. The bit-buffer core family (40_bitbuffer.md). -/

namespace Sys2Proof.Machine

/-- AppendBit with its capacity check, and the results BB_APPEND and BB_APPEND_CHAR share (40_bitbuffer.md R101, R103). -/
def appendTo (b : BitVec 2) (v : Bool) (s : State) : Answer :=
  selectBuf b s fun B =>
    if B.bitCount = s.cfg.maxBits then raise .capacity 0 s
    else
      let B' := B.appendBit s.cfg.bitOrder v
      complete (word32 B'.bitCount) (word32 B'.units.length) (s.setBuf b B')

/-- BB_CLEAR (40_bitbuffer.md R106); the staging area is not touched. -/
def execBbClear (b : BitVec 2) (s : State) : Answer :=
  selectBuf b s fun B =>
    complete 0 0 (s.setBuf b (Buffer.markStale { B with bitCount := 0, units := [0#8] }))

/-- BB_APPEND (40_bitbuffer.md R103). -/
def execBbAppend (b : BitVec 2) (v : Bool) (s : State) : Answer :=
  appendTo b v s

/-- BB_APPEND_CHAR (40_bitbuffer.md R104). -/
def execBbAppendChar (b : BitVec 2) (c : Byte) (s : State) : Answer :=
  appendTo b (charBit c) s

/-- BB_REMOVE: RES0 = the removed bit, RES1 = the new bitCount (40_bitbuffer.md R105). -/
def execBbRemove (b : BitVec 2) (s : State) : Answer :=
  selectBuf b s fun B =>
    if B.bitCount = 0 then raise .underflow 0 s
    else
      let B' := B.removeLast s.cfg.bitOrder
      complete (bitWord (B.removedBit s.cfg.bitOrder)) (word32 B'.bitCount) (s.setBuf b B')

/-- BB_LAST (40_bitbuffer.md R107). -/
def execBbLast (b : BitVec 2) (s : State) : Answer :=
  selectBuf b s fun B =>
    if B.bitCount = 0 then raise .empty 0 s
    else complete (bitWord (B.bit s.cfg.bitOrder (B.bitCount - 1))) 0 s

/-- BB_INFO (40_bitbuffer.md R108). -/
def execBbInfo (b : BitVec 2) (s : State) : Answer :=
  selectBuf b s fun B =>
    complete (word32 B.bitCount) (word32 B.units.length) s

/-- BB_GETBIT (40_bitbuffer.md R109). -/
def execBbGetbit (b : BitVec 2) (s : State) : Answer :=
  selectBuf b s fun B =>
    if B.bitCount ≤ s.a0 then raise .range 0 s
    else complete (bitWord (B.bit s.cfg.bitOrder s.a0)) 0 s

/-- BB_GETCHAR (40_bitbuffer.md R110). -/
def execBbGetchar (b : BitVec 2) (s : State) : Answer :=
  selectBuf b s fun B =>
    if B.bitCount ≤ s.a0 then raise .range 0 s
    else complete (bitChar (B.bit s.cfg.bitOrder s.a0)) 0 s

/-- BB_GETUNIT (40_bitbuffer.md R111). -/
def execBbGetunit (b : BitVec 2) (s : State) : Answer :=
  selectBuf b s fun B =>
    if B.units.length ≤ s.a0 then raise .range 0 s
    else complete ((B.units.getD s.a0 0).setWidth 32) 0 s

/-- Equality of two buffers: same bitCount and same units; cursors and staging areas do not count (10_state.md R46). -/
def Buffer.sameBits (B C : Buffer) : Bool :=
  B.bitCount == C.bitCount && B.units == C.units

/-- BB_EQUAL; the other buffer c is A0 (40_bitbuffer.md R112). -/
def execBbEqual (b : BitVec 2) (s : State) : Answer :=
  selectBuf b s fun B =>
    if s.cfg.nbuf ≤ s.a0 then raise .range 0 s
    else complete (bitWord (B.sameBits (s.buf (BitVec.ofNat 2 s.a0)))) 0 s

end Sys2Proof.Machine
end

