-- ==== Sys2Proof/Machine/Control.lean ====
section
/-! DEFINITION. The control family: NOP (43_control.md). -/

namespace Sys2Proof.Machine

/-- NOP (43_control.md R230). -/
def execNop (s : State) : Answer :=
  complete 0 0 s

end Sys2Proof.Machine
end

