-- ==== Sys2Proof/Machine/Build.lean ====
section
/-! DEFINITION. The build algorithm of the Huffman unit: normalisation, seeding, the merge loop and code generation
(42_huffman.md R183 to R191), and the symbol lookup (R199). -/

namespace Sys2Proof.Machine

/-! ### Normalisation (42_huffman.md R183) -/

/-- The sort order: the key (symbol, weight), "compared lexicographically as unsigned numbers". -/
def Entry.le (e f : Entry) : Bool :=
  decide (e.symbol < f.symbol) || (e.symbol == f.symbol && decide (e.weight ≤ f.weight))

/-- An entry inserted into a sorted list, before the first entry not below it. -/
def insertEntry (e : Entry) : List Entry → List Entry
  | []      => [e]
  | f :: fs => if e.le f then e :: f :: fs else f :: insertEntry e fs

/-- The entries "in ascending order of the key (symbol, weight)". -/
def sortEntries (raw : List Entry) : List Entry :=
  raw.foldr insertEntry []

/-- One step of the duplicate removal: an entry is dropped when it equals the last one kept. -/
def keepNew (out : List Entry) (e : Entry) : List Entry :=
  if out.getLast? = some e then out else out ++ [e]

/-- `Normalize(raw)`. -/
def normalize (raw : List Entry) : List Entry :=
  (sortEntries raw).foldl keepNew []

/-! ### Allocation and seeding (42_huffman.md R184, R185) -/

/-- A leaf as seeded. -/
def leafNode (e : Entry) : Node where
  symbol := some e.symbol
  weight := e.weight
  parent := none
  left   := none
  right  := none
  code   := []

/-- An internal node as pre-allocated, "with zero weight and no symbol". -/
def blankNode : Node where
  symbol := none
  weight := 0
  parent := none
  left   := none
  right  := none
  code   := []

/-- The `max(0, 2n - 1)` seeded nodes: the n leaves in sorted order, then the n - 1 internal ones (90_conflicts.md C4). -/
def seed (out : List Entry) : List Node :=
  out.map leafNode ++ List.replicate (out.length - 1) blankNode

/-! ### The merge loop (42_huffman.md R186 to R189) -/

/-- `nodes[j]`. -/
def nodeAt (nodes : List Node) (j : Nat) : Node :=
  nodes.getD j blankNode

/-- Whether node `j`, below the node being built, may be selected (42_huffman.md R186). -/
def candidate (pol : MergePolicy) (nodes : List Node) (j : Nat) : Bool :=
  match pol with
  | .excludeParented => (nodeAt nodes j).parent.isNone
  | .sourceLiteral   => true

/-- `m = NONE or nodes[j].weight < nodes[m].weight`, the strict comparison of the scan (42_huffman.md R187). -/
def lighter (nodes : List Node) (j : Nat) : Option Nat → Bool
  | none   => true
  | some m => decide ((nodeAt nodes j).weight < (nodeAt nodes m).weight)

/-- One step of the scan at node `j`, with the two minima found so far (42_huffman.md R187). -/
def scanStep (pol : MergePolicy) (nodes : List Node) (m : Option Nat × Option Nat) (j : Nat) : Option Nat × Option Nat :=
  if !candidate pol nodes j then m
  else if lighter nodes j m.1 then (some j, m.1)
  else if lighter nodes j m.2 then (m.1, some j)
  else m

/-- `Select2(i)`: the scan of [0, i) in ascending order (42_huffman.md R187). -/
def select2 (pol : MergePolicy) (nodes : List Node) (i : Nat) : Option Nat × Option Nat :=
  (List.range i).foldl (scanStep pol nodes) (none, none)

/-- Node `i` linked over the selected nodes `s1` and `s2` (42_huffman.md R188). -/
def link (nodes : List Node) (i s1 s2 : Nat) : List Node :=
  let weight := (nodeAt nodes s1).weight + (nodeAt nodes s2).weight
  let nodes1 := nodes.modify i fun x => { x with weight := weight, left := some s1, right := some s2 }
  let nodes2 := nodes1.modify s1 fun x => { x with parent := some i }
  nodes2.modify s2 fun x => { x with parent := some i }

/-- `Merge(i)` (42_huffman.md R188). "Each step has at least two candidates" (R189), so the last arm is never taken in a
build (log 13). -/
def mergeStep (pol : MergePolicy) (nodes : List Node) (i : Nat) : List Node :=
  match select2 pol nodes i with
  | (some s1, some s2) => link nodes i s1 s2
  | _                  => nodes

/-- `for i in n .. 2n-2: Merge(i)` (42_huffman.md R189). -/
def mergeLoop (pol : MergePolicy) (n : Nat) (nodes : List Node) : List Node :=
  (List.range' n (n - 1)).foldl (mergeStep pol) nodes

/-! ### Code generation (42_huffman.md R190) -/

/-- One edge of the traversal: the child gets the parent's code with the edge's bit, and enters the queue. -/
def visitChild (code : List Bool) (v : Bool) (child : Option Nat) (t : List Node × List Nat) : List Node × List Nat :=
  match child with
  | none   => t
  | some c => (t.1.modify c fun x => { x with code := code ++ [v] }, t.2 ++ [c])

/-- The breadth-first traversal, one dequeued node per unit of fuel (log 12). -/
def bfs : Nat → List Nat → List Node → List Node
  | 0, _, nodes => nodes
  | _ + 1, [], nodes => nodes
  | fuel + 1, x :: queue, nodes =>
    let nd := nodeAt nodes x
    let t  := visitChild nd.code true nd.right (visitChild nd.code false nd.left (nodes, queue))
    bfs fuel t.2 t.1

/-- `CodeGen()`: nothing for n = 0, else the traversal from the root 2n - 2, whose code is empty. Every node is dequeued
at most once, so as many units of fuel as there are nodes are enough (log 12). -/
def codeGen (n : Nat) (nodes : List Node) : List Node :=
  if n = 0 then nodes
  else
    let root := 2 * n - 2
    bfs nodes.length [root] (nodes.modify root fun x => { x with code := [] })

/-- The node array HT_BUILD leaves for the normalised entries `out` (42_huffman.md R184 to R191). -/
def buildTree (pol : MergePolicy) (out : List Entry) : List Node :=
  codeGen out.length (mergeLoop pol out.length (seed out))

/-- The Huffman unit after HT_BUILD: H.raw is kept (42_huffman.md R192). -/
def Huffman.build (pol : MergePolicy) (H : Huffman) : Huffman :=
  let out := normalize H.raw
  { H with phase := .built, n := out.length, nodes := buildTree pol out }

/-! ### The mapping (42_huffman.md R199) -/

/-- The leaves below `n` that carry symbol `k`, in ascending order. -/
def leavesOf (H : Huffman) (k : Nat) : List Nat :=
  (List.range H.n).filter fun j => (nodeAt H.nodes j).symbol == some k

/-- `LeafOf(s)`: the last or the first leaf that carries the symbol (DUP_LOOKUP). -/
def leafOf (dup : DupLookup) (H : Huffman) (k : Nat) : Option Nat :=
  match dup with
  | .last  => (leavesOf H k).getLast?
  | .first => (leavesOf H k).head?

/-- Chunk `j` of a code: bit t is code position 32j + t, positions past the end read 0 (42_huffman.md R215). -/
def codeChunk (code : List Bool) (j : Nat) : Nat :=
  ((List.range 32).map fun t => if code.getD (32 * j + t) false then 2 ^ t else 0).sum

end Sys2Proof.Machine
end

