-- ==== Sys2Proof/Machine/Huffman.lean ====
section
/-! DEFINITION. The Huffman family (42_huffman.md): loading, building and reading. -/

namespace Sys2Proof.Machine

/-- HT_CLEAR (42_huffman.md R181). -/
def execHtClear (s : State) : Answer :=
  complete 0 0 (s.setHt .reset)

/-- HT_PUSH: BUILT, RANGE, CAPACITY in that order (42_huffman.md R182, 60_exceptions.md R265). -/
def execHtPush (s : State) : Answer :=
  if s.ht.phase = .built then raise .built 0 s
  else if 2 ^ s.cfg.symBits ≤ s.a0 ∨ 2 ^ s.cfg.weightBits ≤ s.a1 then raise .range 0 s
  else if s.ht.raw.length = s.cfg.maxEntries then raise .capacity 0 s
  else
    let raw := s.ht.raw ++ [{ symbol := s.a0, weight := s.a1 }]
    complete (word32 raw.length) 0 (s.setHt { s.ht with raw := raw })

/-- HT_BUILD (42_huffman.md R192). -/
def execHtBuild (s : State) : Answer :=
  if s.ht.phase = .built then raise .built 0 s
  else
    let H := s.ht.build s.cfg.merge
    complete (word32 H.n) (word32 (2 * H.n - 1)) (s.setHt H)

/-- HT_INFO: the raw count with the phase in bit 31, and n (42_huffman.md R210). -/
def execHtInfo (s : State) : Answer :=
  let builtBit : Word := if s.ht.phase = .built then 0x80000000#32 else 0
  complete (word32 s.ht.raw.length ||| builtBit) (word32 s.ht.n) s

/-- A command that reads node k = A0: NOT_BUILT, then RANGE (42_huffman.md R180, R211 to R214). -/
def readNode (s : State) (run : Node → Answer) : Answer :=
  if s.ht.phase = .loading then raise .notBuilt 0 s
  else if s.ht.nodes.length ≤ s.a0 then raise .range 0 s
  else run (nodeAt s.ht.nodes s.a0)

/-- HT_NODE_WEIGHT (42_huffman.md R211). -/
def execHtNodeWeight (s : State) : Answer :=
  readNode s fun x => complete (word32 x.weight) 0 s

/-- HT_NODE_PARENT (42_huffman.md R212). -/
def execHtNodeParent (s : State) : Answer :=
  readNode s fun x => complete (optWord x.parent) 0 s

/-- HT_NODE_CHILDREN (42_huffman.md R213). -/
def execHtNodeChildren (s : State) : Answer :=
  readNode s fun x => complete (optWord x.left) (optWord x.right) s

/-- HT_NODE_SYMBOL (42_huffman.md R214). -/
def execHtNodeSymbol (s : State) : Answer :=
  readNode s fun x => complete (optWord x.symbol) 0 s

/-- HT_NODE_CODE; a chunk number of CODE_CHUNKS or more is out of range too (42_huffman.md R215). -/
def execHtNodeCode (j : BitVec 16) (s : State) : Answer :=
  readNode s fun x =>
    if s.cfg.codeChunks ≤ j.toNat then raise .range 0 s
    else complete (word32 x.code.length) (word32 (codeChunk x.code j.toNat)) s

/-- HT_LOOKUP: NOT_BUILT, then NOT_FOUND (42_huffman.md R216). -/
def execHtLookup (s : State) : Answer :=
  if s.ht.phase = .loading then raise .notBuilt 0 s
  else
    match leafOf s.cfg.dup s.ht s.a0 with
    | none   => raise .notFound 0 s
    | some x => complete (word32 x) (word32 (nodeAt s.ht.nodes x).code.length) s

end Sys2Proof.Machine
end

