-- ==== Sys2Proof/Machine/Traversal.lean ====
section
/-! DEFINITION. The traversal family (41_bitbuffer_serial.md R140 to R145). -/

namespace Sys2Proof.Machine

/-- The cursor a START leaves: (ACTIVE, 0) (41_bitbuffer_serial.md R141, R143). -/
def Cursor.started : Cursor where
  state := .active
  pos   := 0

/-- The cursor after one element is delivered at `pos` (41_bitbuffer_serial.md R142, R144). -/
def Cursor.advanced (c : Cursor) : Cursor where
  state := .active
  pos   := c.pos + 1

/-- One NEXT with cursor `c` over a sequence of `len` elements: SEQUENCE when IDLE, ITER_STALE when STALE, the element
and RES1 = 1 when one is left, (0, 0) at the end. `elem` is the element at pos, `moved` the state with the cursor
advanced (41_bitbuffer_serial.md R142, R144). -/
def nextElement (c : Cursor) (len : Nat) (elem : Word) (moved s : State) : Answer :=
  match c.state with
  | .idle   => raise .sequence 0 s
  | .stale  => raise .iterStale 0 s
  | .active => if c.pos < len then complete elem 1 moved else complete 0 0 s

/-- BB_ITB_START (41_bitbuffer_serial.md R141). -/
def execBbItbStart (b : BitVec 2) (s : State) : Answer :=
  selectBuf b s fun B =>
    complete 0 0 (s.setBuf b { B with itb := .started })

/-- BB_ITB_NEXT (41_bitbuffer_serial.md R142). -/
def execBbItbNext (b : BitVec 2) (s : State) : Answer :=
  selectBuf b s fun B =>
    nextElement B.itb B.bitCount (bitWord (B.bit s.cfg.bitOrder B.itb.pos))
      (s.setBuf b { B with itb := B.itb.advanced }) s

/-- BB_ITU_START (41_bitbuffer_serial.md R143). -/
def execBbItuStart (b : BitVec 2) (s : State) : Answer :=
  selectBuf b s fun B =>
    complete 0 0 (s.setBuf b { B with itu := .started })

/-- BB_ITU_NEXT (41_bitbuffer_serial.md R144). -/
def execBbItuNext (b : BitVec 2) (s : State) : Answer :=
  selectBuf b s fun B =>
    nextElement B.itu B.units.length ((B.units.getD B.itu.pos 0).setWidth 32)
      (s.setBuf b { B with itu := B.itu.advanced }) s

end Sys2Proof.Machine
end

