-- ==== Sys2Proof/Machine/Wire.lean ====
section
/-! DEFINITION. The wire-format family: serialisation and deserialisation (41_bitbuffer_serial.md R150 to R164). -/

namespace Sys2Proof.Machine

/-! ### The wire image -/

/-- `le_bytes(v, N)`, least significant byte first (00_scope.md R11). -/
def leBytes (v : Nat) : Nat → List Byte
  | 0     => []
  | n + 1 => BitVec.ofNat 8 v :: leBytes (v / 256) n

/-- `le_value(bytes)`, the inverse (00_scope.md R11). -/
def leValue : List Byte → Nat
  | []      => 0
  | u :: us => u.toNat + 256 * leValue us

/-- `Image(b)` with W = `w`: bitCount, unitCount, currentUnitIndex, then the units (41_bitbuffer_serial.md R150, 20_memory.md
R60). -/
def Buffer.image (w : Nat) (B : Buffer) : List Byte :=
  leBytes B.bitCount w ++ leBytes B.units.length w ++ leBytes (B.units.length - 1) w ++ B.units

/-- BB_SER_LEN (41_bitbuffer_serial.md R151). -/
def execBbSerLen (b : BitVec 2) (s : State) : Answer :=
  selectBuf b s fun B =>
    complete (word32 (3 * s.cfg.w + B.units.length)) 0 s

/-- BB_SER_BYTE (41_bitbuffer_serial.md R152). -/
def execBbSerByte (b : BitVec 2) (s : State) : Answer :=
  selectBuf b s fun B =>
    if 3 * s.cfg.w + B.units.length ≤ s.a0 then raise .range 0 s
    else complete (((B.image s.cfg.w).getD s.a0 0).setWidth 32) 0 s

/-! ### Reading an image -/

/-- The number of a subcode (41_bitbuffer_serial.md R162). -/
def Subcode.code : Subcode → Word
  | .shortHeader    => 1
  | .lengthMismatch => 2
  | .zeroUnits      => 3
  | .indexMismatch  => 4
  | .countMismatch  => 5
  | .nonzeroTail    => 6

/-- The bitCount field of an image, bytes [0, W). -/
def imageBitCount (w : Nat) (bytes : List Byte) : Nat :=
  leValue (bytes.take w)

/-- The unitCount field of an image, bytes [W, 2W). -/
def imageUnitCount (w : Nat) (bytes : List Byte) : Nat :=
  leValue ((bytes.drop w).take w)

/-- The currentUnitIndex field of an image, bytes [2W, 3W). -/
def imageUnitIndex (w : Nat) (bytes : List Byte) : Nat :=
  leValue ((bytes.drop (2 * w)).take w)

/-- The storage units of an image, bytes [3W, 3W + unitCount). -/
def imageUnits (w : Nat) (bytes : List Byte) : List Byte :=
  (bytes.drop (3 * w)).take (imageUnitCount w bytes)

/-- A position of the last unit at or beyond bitCount holds 1: the image breaks invariant I2 (the last check of
41_bitbuffer_serial.md R162). -/
def tailNonzero (o : BitOrder) (bitCount unitCount : Nat) (lastUnit : Byte) : Bool :=
  (List.range 8).any fun p => decide (bitCount ≤ 8 * (unitCount - 1) + p) && unitBit o lastUnit p

/-- `Validate(bytes, ovf)`: `none` for a well-formed image, else the first check that fails, in the order of
41_bitbuffer_serial.md R162. -/
def validate (o : BitOrder) (w : Nat) (bytes : List Byte) (ovf : Bool) : Option Subcode :=
  let bc := imageBitCount w bytes
  let u  := imageUnitCount w bytes
  let c  := imageUnitIndex w bytes
  if ovf = false ∧ bytes.length < 3 * w then some .shortHeader
  else if ovf = true ∨ bytes.length ≠ 3 * w + u then some .lengthMismatch
  else if u = 0 then some .zeroUnits
  else if c ≠ u - 1 then some .indexMismatch
  else if u ≠ max 1 (ceilDiv bc 8) then some .countMismatch
  else if tailNonzero o bc u (bytes.getD (3 * w + u - 1) 0) then some .nonzeroTail
  else none

/-! ### The deserialisation session -/

/-- BB_DESER_BEGIN (41_bitbuffer_serial.md R160). -/
def execBbDeserBegin (b : BitVec 2) (s : State) : Answer :=
  selectBuf b s fun B =>
    complete 0 0 (s.setBuf b { B with stg := { active := true, bytes := [], ovf := false } })

/-- The staging area after one byte arrives: stored while there is room (SCAP), else only ovf is set
(41_bitbuffer_serial.md R161). -/
def Staging.receive (scap : Nat) (d : Byte) (g : Staging) : Staging :=
  if g.bytes.length < scap then { g with active := true, bytes := g.bytes ++ [d] }
  else { g with active := true, ovf := true }

/-- BB_DESER_BYTE (41_bitbuffer_serial.md R161). -/
def execBbDeserByte (b : BitVec 2) (d : Byte) (s : State) : Answer :=
  selectBuf b s fun B =>
    if B.stg.active = false then raise .sequence 0 s
    else
      let g := B.stg.receive s.cfg.scap d
      complete (word32 g.bytes.length) (bitWord g.ovf) (s.setBuf b { B with stg := g })

/-- The buffer with a valid image installed: the session closes and the cursors go stale (41_bitbuffer_serial.md R163). -/
def Buffer.install (w : Nat) (bytes : List Byte) (B : Buffer) : Buffer :=
  Buffer.markStale
    { B with bitCount := imageBitCount w bytes, units := imageUnits w bytes, stg := .closed }

/-- BB_DESER_END (41_bitbuffer_serial.md R163). -/
def execBbDeserEnd (b : BitVec 2) (s : State) : Answer :=
  selectBuf b s fun B =>
    if B.stg.active = false then raise .sequence 0 s
    else
      match validate s.cfg.bitOrder s.cfg.w B.stg.bytes B.stg.ovf with
      | some r => raise .malformed r.code s
      | none =>
        let B' := B.install s.cfg.w B.stg.bytes
        complete (word32 B'.bitCount) (word32 (imageUnitCount s.cfg.w B.stg.bytes)) (s.setBuf b B')

end Sys2Proof.Machine
end

