-- ==== Sys2Proof/Machine/Dispatch.lean ====
section
/-! DEFINITION. One arm per command: the engine's run of a decoded command (30_encoding.md R86). -/

namespace Sys2Proof.Machine

/-- The meaning of a command (30_encoding.md R87). -/
def exec (i : Instr) (s : State) : Host.Outcome State Fault Refusal :=
  match i with
  | .nop => Sys2Proof.Machine.execNop s
  | .bbClear b => Sys2Proof.Machine.execBbClear b s
  | .bbAppend b v => Sys2Proof.Machine.execBbAppend b v s
  | .bbAppendChar b c => Sys2Proof.Machine.execBbAppendChar b c s
  | .bbRemove b => Sys2Proof.Machine.execBbRemove b s
  | .bbLast b => Sys2Proof.Machine.execBbLast b s
  | .bbInfo b => Sys2Proof.Machine.execBbInfo b s
  | .bbGetbit b => Sys2Proof.Machine.execBbGetbit b s
  | .bbGetchar b => Sys2Proof.Machine.execBbGetchar b s
  | .bbGetunit b => Sys2Proof.Machine.execBbGetunit b s
  | .bbEqual b => Sys2Proof.Machine.execBbEqual b s
  | .bbItbStart b => Sys2Proof.Machine.execBbItbStart b s
  | .bbItbNext b => Sys2Proof.Machine.execBbItbNext b s
  | .bbItuStart b => Sys2Proof.Machine.execBbItuStart b s
  | .bbItuNext b => Sys2Proof.Machine.execBbItuNext b s
  | .bbSerLen b => Sys2Proof.Machine.execBbSerLen b s
  | .bbSerByte b => Sys2Proof.Machine.execBbSerByte b s
  | .bbDeserBegin b => Sys2Proof.Machine.execBbDeserBegin b s
  | .bbDeserByte b d => Sys2Proof.Machine.execBbDeserByte b d s
  | .bbDeserEnd b => Sys2Proof.Machine.execBbDeserEnd b s
  | .htClear => Sys2Proof.Machine.execHtClear s
  | .htPush => Sys2Proof.Machine.execHtPush s
  | .htBuild => Sys2Proof.Machine.execHtBuild s
  | .htInfo => Sys2Proof.Machine.execHtInfo s
  | .htNodeWeight => Sys2Proof.Machine.execHtNodeWeight s
  | .htNodeParent => Sys2Proof.Machine.execHtNodeParent s
  | .htNodeChildren => Sys2Proof.Machine.execHtNodeChildren s
  | .htNodeSymbol => Sys2Proof.Machine.execHtNodeSymbol s
  | .htNodeCode j => Sys2Proof.Machine.execHtNodeCode j s
  | .htLookup => Sys2Proof.Machine.execHtLookup s

end Sys2Proof.Machine
end

