-- ==== Sys2Proof/Machine/Flags.lean ====
section
/-! DEFINITION. The STATUS register: the numbers of the error codes, the register as a word, and the host's
write-1-to-clear. The HBB has no other flags (10_state.md R24). -/

namespace Sys2Proof.Machine

/-- The number of an error code (60_exceptions.md R250). -/
def ErrCode.code : ErrCode → BitVec 4
  | .ok        => 0
  | .underflow => 1
  | .empty     => 2
  | .range     => 3
  | .capacity  => 4
  | .malformed => 5
  | .notBuilt  => 6
  | .built     => 7
  | .iterStale => 8
  | .illegal   => 9
  | .notFound  => 10
  | .sequence  => 11

/-- STATUS with `err` in its ERR field, from bit 31 down: reserved bits [31:11] read 0, OVERRUN, ERR_STICKY, BUSY,
reserved bits [7:4] read 0, ERR (10_state.md R23). -/
def State.statusWith (s : State) (err : BitVec 4) : Word :=
  (0#21 ++ BitVec.ofBool s.overrun ++ BitVec.ofBool s.errSticky ++ BitVec.ofBool s.busy ++ 0#4
    ++ err : BitVec (21 + 1 + 1 + 1 + 4 + 4))

/-- STATUS as the host reads it while BUSY = 0 (10_state.md R23). -/
def State.statusWord (s : State) : Word :=
  s.statusWith s.err.code

/-- A host write to STATUS "affects only bits 9 and 10": a data bit 1 clears the sticky bit (10_state.md R26 to R28). -/
def State.clearSticky (v : Word) (s : State) : State :=
  { s with
    errSticky := s.errSticky && !v.getLsbD 9
    overrun   := s.overrun && !v.getLsbD 10 }

end Sys2Proof.Machine
end

