-- ==== Sys2Proof/Machine/Port.lean ====
section
/-! DEFINITION. The host's register port (20_memory.md R64 to R73, 10_state.md R21 to R35, 70_reset_and_hazards.md R290
to R294): reads, writes, and the acceptance of a command. -/

namespace Sys2Proof.Machine

/-- The registers of the port (20_memory.md R64). -/
inductive PortReg where
  | id
  | config0
  | config1
  | config2
  | cmd
  | arg0
  | arg1
  | res0
  | res1
  | status
  | reserved
  deriving DecidableEq, Repr

/-- The register at a byte offset of the port; 0x28 to 0x3C are reserved (20_memory.md R64). -/
def regAt (offset : Nat) : PortReg :=
  match offset with
  | 0x00 => .id
  | 0x04 => .config0
  | 0x08 => .config1
  | 0x0C => .config2
  | 0x10 => .cmd
  | 0x14 => .arg0
  | 0x18 => .arg1
  | 0x1C => .res0
  | 0x20 => .res1
  | 0x24 => .status
  | _    => .reserved

/-- The port offset of a host access, if the port admits it: 32 bits wide, at an offset from HBB_BASE that is a multiple
of 4 and below 0x40 (20_memory.md R65). -/
def portOffset (base addr width : Nat) : Option Nat :=
  if width = 4 ∧ base ≤ addr ∧ addr - base < 0x40 ∧ (addr - base) % 4 = 0 then some (addr - base) else none

/-- Whether a read of the register returns a drawn value: RES0, RES1 and STATUS (in its ERR field) while BUSY = 1
(20_memory.md R71, 70_reset_and_hazards.md R293). -/
def PortReg.drawn (r : PortReg) (busy : Bool) : Bool :=
  busy && (r == .res0 || r == .res1 || r == .status)

/-- What a host read of a register returns (20_memory.md R65, R71; 10_state.md R30 to R35). -/
def State.readReg (s : State) : PortReg → Word
  | .id       => idWord
  | .config0  => s.cfg.config0
  | .config1  => s.cfg.config1
  | .config2  => s.cfg.config2
  | .cmd      => s.cmd
  | .arg0     => s.arg0
  | .arg1     => s.arg1
  | .res0     => if s.busy then Config.freeRead s.draws else s.res0
  | .res1     => if s.busy then Config.freeRead s.draws else s.res1
  | .status   => if s.busy then s.statusWith ((Config.freeRead s.draws).setWidth 4) else s.statusWord
  | .reserved => 0

/-- A CMD write with BUSY = 0 is accepted: CMD readback and the engine latch the word, the engine latches ARG0 and ARG1,
BUSY becomes 1 "in the same step" (70_reset_and_hazards.md R290, R292; 10_state.md R30). -/
def State.accept (v : Word) (s : State) : State :=
  { s with cmd := v, latCmd := v, latA0 := s.arg0, latA1 := s.arg1, busy := true }

/-- A host write to CMD: accepted, or with BUSY = 1 dropped with OVERRUN set (70_reset_and_hazards.md R290, R291). -/
def State.writeCmd (v : Word) (s : State) : State :=
  if s.busy then { s with overrun := true } else s.accept v

/-- A host write of a register (20_memory.md R65, R66; 10_state.md R21, R28): every write but those of CMD, ARG0, ARG1
and STATUS is ignored. -/
def State.writeReg (s : State) (v : Word) : PortReg → State
  | .cmd      => s.writeCmd v
  | .arg0     => { s with arg0 := v }
  | .arg1     => { s with arg1 := v }
  | .status   => s.clearSticky v
  | .id       => s
  | .config0  => s
  | .config1  => s
  | .config2  => s
  | .res0     => s
  | .res1     => s
  | .reserved => s

/-- A host access to the register `run` acts on: none while reset is asserted (70_reset_and_hazards.md R280), none that
the port does not admit (20_memory.md R65); else the host moves on by one access (10_state.md R22). -/
def portAccess (addr width : Nat) (s : State) (run : PortReg → State) : Answer :=
  if s.inReset then .fault .resetAsserted
  else
    match portOffset s.cfg.hbbBase addr width with
    | none     => .refused .accessNotAdmitted
    | some off => .next { run (regAt off) with hostPos := s.hostPos + 1 }

/-- The effect of a register read: the value goes to the host, and a drawn one uses up a draw; nothing else changes
(20_memory.md R66, R71). -/
def State.afterRead (s : State) (r : PortReg) : State :=
  { s with rdata := s.readReg r, draws := if r.drawn s.busy then s.draws + 1 else s.draws }

/-- `MemRead(addr, width)` (20_memory.md R65). -/
def hostRead (addr width : Nat) (s : State) : Answer :=
  portAccess addr width s fun r => s.afterRead r

/-- `MemWrite(addr, width, v)` (20_memory.md R65). -/
def hostWrite (addr width : Nat) (v : Word) (s : State) : Answer :=
  portAccess addr width s fun r => s.writeReg v r

end Sys2Proof.Machine
end

