-- ==== Sys2Proof/Machine/Engine.lean ====
section
/-! DEFINITION. The command engine's turn, the reset input, and what one input does. -/

namespace Sys2Proof.Machine

/-- The command in progress runs as one atomic step: decode the latched word and run its rule, or raise ILLEGAL
(30_encoding.md R86, 43_control.md R231, 70_reset_and_hazards.md R290). -/
def runCommand (s : State) : Answer :=
  match decode s.latCmd with
  | .ok i    => exec i s
  | .error _ => raise .illegal 0 s

/-- The engine's turn: with BUSY = 1 the command in progress runs; otherwise, and while reset is asserted, "the block
executes nothing" (70_reset_and_hazards.md R280, R290). -/
def engineTurn (s : State) : Answer :=
  if s.inReset then .next s
  else if s.busy then runCommand s
  else .next s

/-- Every piece of the block's state at its reset value; the parameters, the host and the draws are not the block's
(70_reset_and_hazards.md R280, R281, R294; 10_state.md R55). -/
def State.toReset (s : State) : State :=
  { State.resetWith s.cfg with
    inReset := s.inReset, inputs := s.inputs, hostPos := s.hostPos, rdata := s.rdata, draws := s.draws }

/-- Reset asserted: the command in progress "is abandoned and none of its effects survive" (70_reset_and_hazards.md
R281). -/
def State.assertReset (s : State) : State :=
  { s.toReset with inReset := true }

/-- Reset released: "every piece of state has the value in 10_state.md rule R55", and the port is ready in the same step
(70_reset_and_hazards.md R280, R282). Nothing happens if it was not asserted (log 8). -/
def State.releaseReset (s : State) : State :=
  if s.inReset then { s.toReset with inReset := false } else s

/-- What one input does to the machine. -/
def takeInput (e : Input) (s : State) : Answer :=
  match e with
  | .read addr width    => hostRead addr width s
  | .write addr width v => hostWrite addr width v s
  | .engine             => engineTurn s
  | .resetAssert        => .next s.assertReset
  | .resetRelease       => .next s.releaseReset

end Sys2Proof.Machine
end

