-- ==== Sys2Proof/Machine/Step.lean ====
section
/-! DEFINITION. One step of the machine, and the state in which a given command is the next thing the engine runs. -/

namespace Sys2Proof.Machine

/-- One step: the next input of the list acts. When the list is used up the engine still finishes a command in progress
(70_reset_and_hazards.md R290, R299), and then nothing more happens (R280, R300; log 5). -/
def step (s : State) : Host.Outcome State Fault Refusal :=
  match s.inputs with
  | []        => engineTurn s
  | e :: rest => takeInput e { s with inputs := rest }

/-- `s` with the command of bits `w` (of which `nbits` are given, the rest 0) accepted from the host and the engine's turn
next, so that the very next step runs it (log 4). It stands for the host's CMD write, with reset released. -/
def State.withFetchWord (s : State) (nbits w : Nat) : State :=
  { s.accept (BitVec.ofNat 32 (w % 2 ^ nbits)) with inReset := false, inputs := .engine :: s.inputs }

end Sys2Proof.Machine
end

