-- ==== Sys2Proof/WellFormed.lean ====
section
/-! DEFINITION. Which commands an HBB with given parameters has: the one check decoding makes beside the opcode map
is that BUF selects a buffer that exists (30_encoding.md R82, R86). The ranges of the parameters themselves are
`Params.Legal` (00_scope.md R8). -/

namespace Sys2Proof

/-- The buffer a command selects: BUF for the bit-buffer commands, none for NOP and the Huffman commands
(30_encoding.md R80, R82). -/
def Instr.bufSelect : Instr → Option (BitVec 2)
  | .nop => none
  | .bbClear b => some b
  | .bbAppend b _ => some b
  | .bbAppendChar b _ => some b
  | .bbRemove b => some b
  | .bbLast b => some b
  | .bbInfo b => some b
  | .bbGetbit b => some b
  | .bbGetchar b => some b
  | .bbGetunit b => some b
  | .bbEqual b => some b
  | .bbItbStart b => some b
  | .bbItbNext b => some b
  | .bbItuStart b => some b
  | .bbItuNext b => some b
  | .bbSerLen b => some b
  | .bbSerByte b => some b
  | .bbDeserBegin b => some b
  | .bbDeserByte b _ => some b
  | .bbDeserEnd b => some b
  | .htClear => none
  | .htPush => none
  | .htBuild => none
  | .htInfo => none
  | .htNodeWeight => none
  | .htNodeParent => none
  | .htNodeChildren => none
  | .htNodeSymbol => none
  | .htNodeCode _ => none
  | .htLookup => none

/-- A command is well formed for parameters `p` when its buffer exists: BUF < NBUF (30_encoding.md R82). Every other
operand of the word is in range by its type. -/
def Instr.wellFormed (p : Params) (i : Instr) : Bool :=
  match i.bufSelect with
  | some b => decide (b.toNat < p.nbuf)
  | none   => true

end Sys2Proof
end

