-- ==== Sys2Proof/Safety.lean ====
section
/-! DEFINITION. What a good state is, in the terms the statements use: the invariants of the buffers (10_state.md R40 to
R45), of the Huffman unit (R48, R49), of the engine, and the end of a run (70_reset_and_hazards.md R300). -/

namespace Sys2Proof.Machine

/-- The logical bits of a buffer in append order, Bit(b, 0) .. Bit(b, bitCount - 1) (00_scope.md R15, 10_state.md R43). -/
def Buffer.bits (o : BitOrder) (B : Buffer) : List Bool :=
  (List.range B.bitCount).map (B.bit o)

/-- Invariant I1: `unitCount = max(1, ceil_div(bitCount, 8))` (10_state.md R42). -/
def Buffer.I1 (B : Buffer) : Prop :=
  B.units.length = max 1 (ceilDiv B.bitCount 8)

/-- Invariant I2: every position of the last unit at or beyond bitCount is 0 (10_state.md R43). -/
def Buffer.I2 (o : BitOrder) (B : Buffer) : Prop :=
  ∀ p < 8, B.bitCount ≤ 8 * (B.units.length - 1) + p →
    unitBit o (B.units.getD (B.units.length - 1) 0) p = false

/-- A buffer as a host can ever observe it: the ranges of 10_state.md R40, R44, R45 and the invariants I1 and I2. -/
structure Buffer.Valid (p : Params) (B : Buffer) : Prop where
  count_le   : B.bitCount ≤ p.maxBits
  i1         : B.I1
  i2         : B.I2 p.bitOrder
  itb_le     : B.itb.pos ≤ p.maxBits
  itu_le     : B.itu.pos ≤ p.maxUnits
  staged_le  : B.stg.bytes.length ≤ p.scap

/-- A raw entry in range: symbol below 2^SYM_BITS, weight below 2^WEIGHT_BITS (10_state.md R48). -/
def Entry.InRange (p : Params) (e : Entry) : Prop :=
  e.symbol < 2 ^ p.symBits ∧ e.weight < 2 ^ p.weightBits

/-- The Huffman unit as a host can ever observe it: the entry list in range, nothing built in LOADING, and in BUILT
exactly the tree the build algorithm makes of the entry list (10_state.md R48, 42_huffman.md R192). -/
structure Huffman.Valid (p : Params) (H : Huffman) : Prop where
  raw_le  : H.raw.length ≤ p.maxEntries
  raw_in  : ∀ e ∈ H.raw, e.InRange p
  loading : H.phase = .loading → H.n = 0 ∧ H.nodes = []
  built   : H.phase = .built → H.n = (normalize H.raw).length ∧ H.nodes = buildTree p.merge (normalize H.raw)

/-- The invariant of the machine. -/
structure State.Valid (s : State) : Prop where
  legal   : s.cfg.Legal
  bufs    : ∀ b : BitVec 2, (s.buf b).Valid s.cfg
  ht      : s.ht.Valid s.cfg
  /-- "CMD readback keeps the running command's word" (70_reset_and_hazards.md R291). -/
  running : s.busy = true → s.latCmd = s.cmd
  /-- BUSY = 0 while reset is asserted: the command in progress was abandoned (70_reset_and_hazards.md R280, R281). -/
  held    : s.inReset = true → s.busy = false

/-- The end of a run: "the host has executed its last statement and STATUS.BUSY = 0" (70_reset_and_hazards.md R300). -/
def State.Ended (s : State) : Prop :=
  s.inputs = [] ∧ s.busy = false

/-! ### What a command leaves alone -/

/-- The pieces of state that no command writes: the parameters, CMD readback, ARG0 and ARG1 (10_state.md R21, R30), OVERRUN
(R27), the latches (70_reset_and_hazards.md R292), the reset line, the host and the draws. -/
structure HostKept (s t : State) : Prop where
  cfg     : t.cfg = s.cfg
  cmd     : t.cmd = s.cmd
  arg0    : t.arg0 = s.arg0
  arg1    : t.arg1 = s.arg1
  overrun : t.overrun = s.overrun
  latCmd  : t.latCmd = s.latCmd
  latA0   : t.latA0 = s.latA0
  latA1   : t.latA1 = s.latA1
  inReset : t.inReset = s.inReset
  inputs  : t.inputs = s.inputs
  hostPos : t.hostPos = s.hostPos
  rdata   : t.rdata = s.rdata
  draws   : t.draws = s.draws

/-- What every successful command does beside its own effect: ERR = 0, ERR_STICKY as before, BUSY = 0, and nothing
written that no command writes (00_scope.md R13 `complete`, 10_state.md R26). -/
structure Done (s t : State) : Prop where
  err    : t.err = .ok
  sticky : t.errSticky = s.errSticky
  idle   : t.busy = false
  kept   : HostKept s t

/-- Neither a buffer nor the Huffman unit changed. -/
structure UnitsKept (s t : State) : Prop where
  bufs : t.bufs = s.bufs
  ht   : t.ht = s.ht

/-- Nothing but buffer `b` changed in the two units (40_bitbuffer.md R100). -/
structure OnlyBuf (b : BitVec 2) (s t : State) : Prop where
  ht     : t.ht = s.ht
  others : ∀ c, c ≠ b → t.buf c = s.buf c

/-- The bits of a buffer, byte for byte and bit for bit: bitCount and units. -/
structure SameContents (B C : Buffer) : Prop where
  count : C.bitCount = B.bitCount
  units : C.units = B.units

/-- Cursor `d` is cursor `c` after a mutation: ACTIVE has become STALE, pos is kept (70_reset_and_hazards.md R295). -/
structure Staled (c d : Cursor) : Prop where
  pos   : d.pos = c.pos
  state : d.state = if c.state = .active then .stale else c.state

/-- Both cursors of a buffer after a mutation of it. -/
structure CursorsStaled (B C : Buffer) : Prop where
  itb : Staled B.itb C.itb
  itu : Staled B.itu C.itu

/-- What a bit-buffer command needs to run: a legal instance, a buffer that exists (30_encoding.md R82), holding what a
host can observe (10_state.md R40 to R45). -/
structure Ready (b : BitVec 2) (s : State) : Prop where
  legal  : s.cfg.Legal
  present : b.toNat < s.cfg.nbuf
  valid  : (s.buf b).Valid s.cfg

/-- Commands run one after the other, as a host that waits for each one has them run (30_encoding.md R96, R97). -/
def runAll : List Instr → State → Answer
  | [], s      => .next s
  | i :: is, s =>
    match exec i s with
    | .next t    => runAll is t
    | .fault r   => .fault r
    | .refused r => .refused r

/-- The results (RES0, RES1) of `k` runs of one command, each from the state the last one left. -/
def results (i : Instr) : Nat → State → List (Word × Word)
  | 0, _     => []
  | k + 1, s =>
    match exec i s with
    | .next t => (t.res0, t.res1) :: results i k t
    | _       => []

/-- The commands that change neither a buffer nor the Huffman unit: NOP and every command whose rule only reads
(43_control.md R230, 40_bitbuffer.md R107 to R112, 41_bitbuffer_serial.md R151, R152, 42_huffman.md R210 to R216). -/
def readsOnly : Instr → Bool
  | .nop => true
  | .bbLast _ => true
  | .bbInfo _ => true
  | .bbGetbit _ => true
  | .bbGetchar _ => true
  | .bbGetunit _ => true
  | .bbEqual _ => true
  | .bbSerLen _ => true
  | .bbSerByte _ => true
  | .htInfo => true
  | .htNodeWeight => true
  | .htNodeParent => true
  | .htNodeChildren => true
  | .htNodeSymbol => true
  | .htNodeCode _ => true
  | .htLookup => true
  | .bbClear _ => false
  | .bbAppend _ _ => false
  | .bbAppendChar _ _ => false
  | .bbRemove _ => false
  | .bbItbStart _ => false
  | .bbItbNext _ => false
  | .bbItuStart _ => false
  | .bbItuNext _ => false
  | .bbDeserBegin _ => false
  | .bbDeserByte _ _ => false
  | .bbDeserEnd _ => false
  | .htClear => false
  | .htPush => false
  | .htBuild => false

/-- A word matches a row of the opcode map: `(w & mask) = match` (30_encoding.md R86). -/
def MatchesRow (w : Word) (i : Instr) : Prop :=
  w &&& (opcodeRow i).1 = (opcodeRow i).2

/-- Entry order of the sort key, strictly: "(symbol, weight), compared lexicographically" (42_huffman.md R183). -/
def Entry.Before (e f : Entry) : Prop :=
  e.symbol < f.symbol ∨ (e.symbol = f.symbol ∧ e.weight < f.weight)

/-- The selection order of the merge scan, "least in the order (weight, index)" (42_huffman.md R187). -/
def NodeBefore (nodes : List Node) (j k : Nat) : Prop :=
  (nodeAt nodes j).weight < (nodeAt nodes k).weight ∨
    ((nodeAt nodes j).weight = (nodeAt nodes k).weight ∧ j < k)

end Sys2Proof.Machine
end

