-- ==== Sys2Proof/Certificates/Slice0/Obligations.lean ====
section
/-! DEFINITION. The statements for the provers. Each docstring names the rules of the spec it formalises; where a
statement says "answers a next state" the state is that of the command's own effect. Nothing here names a parameter's
reference value but `SpecWordsDecode` (NBUF = 2, as 30_encoding.md R98 says). -/

open Sys2Proof Sys2Proof.Machine

/-! ### Encoding (30_encoding.md) -/

/-- R80, R85, R87: decoding the word of a command gives the command back, with every operand at every value. -/
def Obligations.DecodeOfEncodeIsTheCommand : Prop :=
  ∀ i : Instr, decode (encode i) = .ok i

/-- R86, R87, R88: a word decodes exactly when it matches a row of the printed opcode map; it matches at most one row,
that of the command it decodes to, and that command's word is the word itself (no bit is ignored). -/
def Obligations.DecodeAcceptsExactlyTheRows : Prop :=
  ∀ w : Word,
    ((∃ i, decode w = .ok i) ↔ ∃ i, MatchesRow w i) ∧
    (∀ i j, MatchesRow w i → MatchesRow w j → opcodeRow i = opcodeRow j) ∧
    (∀ i, decode w = .ok i → MatchesRow w i ∧ encode i = w)

/-- R98: the encoding examples and the illegal examples; the last one (BUF = 2 with NBUF = 2) decodes, and is illegal
when it runs. -/
def Obligations.SpecWordsDecode : Prop :=
  (encode .nop = 0x00000000 ∧ encode (.bbClear 0) = 0x00000010 ∧ encode (.bbAppend 0 true) = 0x00010011 ∧
    encode (.bbAppend 0 false) = 0x00000011 ∧ encode (.bbAppendChar 1 0x30) = 0x00300112 ∧
    encode (.bbRemove 1) = 0x00000113 ∧ encode (.bbDeserByte 0 0xB4) = 0x00B40023 ∧ encode .htPush = 0x00000031 ∧
    encode .htBuild = 0x00000032 ∧ encode (.htNodeCode 7) = 0x00070038) ∧
  (decode 0x00300112 = .ok (.bbAppendChar 1 0x30) ∧ decode 0x00B40023 = .ok (.bbDeserByte 0 0xB4) ∧
    decode 0x00070038 = .ok (.htNodeCode 7) ∧ decode 0x00000032 = .ok .htBuild) ∧
  (decode 0x00000001 = .error .unassignedOpcode ∧ decode 0x00000410 = .error .reservedBits ∧
    decode 0x00000130 = .error .bufNotZero ∧ decode 0x00020011 = .error .immNotZero) ∧
  (∀ s : State, s.cfg.nbuf = 2 → s.latCmd = 0x00000210 → runCommand s = .next (s.raised .illegal 0))

/-! ### The step (70_reset_and_hazards.md, 43_control.md) -/

/-- 70 R290, 30 R86: with BUSY = 1 and reset released, the engine's turn (given by the input list, or the list used up) runs
the command the latched word decodes to, and the step does nothing around it but use up that input. 20 R65: a host read or
write at the head of the list is `hostRead` or `hostWrite` on the state without that input. 70 R280: with BUSY = 0 or reset
asserted the engine's turn does nothing. R300: a run that has ended (no input left, BUSY = 0) stays where it is. The input
list is the model's own (log 4, 5). -/
def Obligations.StepRunsTheDecodedCommand : Prop :=
  (∀ (s : State) (i : Instr), s.inReset = false → s.busy = true → decode s.latCmd = .ok i →
    (s.inputs = [] → step s = exec i s) ∧
    (∀ rest, s.inputs = .engine :: rest → step s = exec i { s with inputs := rest })) ∧
  (∀ (s : State) (rest : List Input) (addr width : Nat) (v : Word),
    (s.inputs = .read addr width :: rest → step s = hostRead addr width { s with inputs := rest }) ∧
    (s.inputs = .write addr width v :: rest → step s = hostWrite addr width v { s with inputs := rest }) ∧
    (s.inputs = .engine :: rest → s.inReset = true ∨ s.busy = false → step s = .next { s with inputs := rest })) ∧
  (∀ s : State, s.Ended → step s = .next s)

/-- 60 R259, 43 R231, 30 R82, R88: a latched word that matches no row of the opcode map, or is a bit-buffer command with
BUF ≥ NBUF, runs as `raise ILLEGAL(0)`, whose code is 9. -/
def Obligations.IllegalWordsRaiseIllegal : Prop :=
  (∀ (s : State) (rest : List Input), s.inReset = false → s.busy = true → s.inputs = .engine :: rest →
    ((∀ i, ¬ MatchesRow s.latCmd i) ∨ ∃ i, decode s.latCmd = .ok i ∧ i.wellFormed s.cfg = false) →
    step s = .next (({ s with inputs := rest } : State).raised .illegal 0)) ∧
  ErrCode.illegal.code = 9

/-- 70 R290, R292, 20 R74: a CMD write followed by the engine's turn runs the written word's command on the state in which
the word and the operands ARG0 and ARG1 are latched, whatever is written to ARG0 and ARG1 in between; and no command reads
CMD, ARG0 or ARG1: with other values there its answer is the same state with those other values. -/
def Obligations.IssueThenRun : Prop :=
  (∀ (s : State) (i : Instr) (x y : Word) (rest : List Input),
    s.inReset = false → s.busy = false →
    s.inputs = [.write (s.cfg.hbbBase + 0x10) 4 (encode i), .write (s.cfg.hbbBase + 0x14) 4 x,
      .write (s.cfg.hbbBase + 0x18) 4 y, .engine] ++ rest →
    Sys2Proof.core.run 4 s = exec i
      { s with cmd := encode i, latCmd := encode i, latA0 := s.arg0, latA1 := s.arg1, busy := true, arg0 := x, arg1 := y,
               inputs := rest, hostPos := s.hostPos + 3 }) ∧
  (∀ (i : Instr) (s : State) (c x y : Word), ∃ t, exec i s = .next t ∧
    exec i { s with cmd := c, arg0 := x, arg1 := y } = .next { t with cmd := c, arg0 := x, arg1 := y })

/-! ### How commands end (00_scope.md R13, R14; 60_exceptions.md) -/

/-- R262: `raise E(info)` writes ERR, RES0, RES1 and ERR_STICKY, BUSY falls, and nothing else changes. -/
def Obligations.RaiseChangesOnlyTheResult : Prop :=
  ∀ (e : ErrCode) (info : Word) (s : State), ∃ t, raise e info s = .next t ∧
    t.err = e ∧ t.res0 = info ∧ t.res1 = 0 ∧ t.errSticky = true ∧ t.busy = false ∧ HostKept s t ∧ UnitsKept s t

/-- 00 R14, 10 R21, R24, R26, 60 R262, R265, 70 R299: every command, in every state, ends in one step, either completed
(ERR = 0, ERR_STICKY as before) or raised (ERR ≠ 0, ERR_STICKY = 1, RES1 = 0, no buffer and no Huffman state changed); it
writes no register but RES0, RES1 and STATUS. -/
def Obligations.EveryCommandEndsInOneStep : Prop :=
  ∀ (i : Instr) (s : State), ∃ t, exec i s = .next t ∧ t.busy = false ∧ HostKept s t ∧
    ((t.err = .ok ∧ t.errSticky = s.errSticky) ∨
      (t.err ≠ .ok ∧ t.errSticky = true ∧ t.res1 = 0 ∧ UnitsKept s t))

/-! ### Frames -/

/-- 40 R100, 42 R180, 10 R40: a bit-buffer command changes no other buffer and not the Huffman unit; any other command
changes no buffer. -/
def Obligations.CommandsKeepTheOtherUnits : Prop :=
  ∀ (i : Instr) (s t : State), exec i s = .next t →
    (∀ b, i.bufSelect = some b → OnlyBuf b s t) ∧ (i.bufSelect = none → t.bufs = s.bufs)

/-- 40 R107 to R112, 41 R151, R152, 42 R210 to R216, 43 R230: the commands that only read change no buffer and no Huffman
state. -/
def Obligations.ReadingCommandsChangeNoUnit : Prop :=
  ∀ (i : Instr) (s t : State), readsOnly i = true → exec i s = .next t → UnitsKept s t

/-- Inside the selected buffer. 41 R141 to R145: a traversal command changes only its own cursor. 41 R160, R161: opening a
session and delivering a byte change only the staging area. 70 R296, 40 R106: a mutation by BB_CLEAR, BB_APPEND,
BB_APPEND_CHAR or BB_REMOVE does not touch the staging area. -/
def Obligations.CommandsKeepThePartsOfABuffer : Prop :=
  ∀ (b : BitVec 2) (s t : State),
    (∀ i ∈ [Instr.bbItbStart b, .bbItbNext b], exec i s = .next t →
      SameContents (s.buf b) (t.buf b) ∧ (t.buf b).itu = (s.buf b).itu ∧ (t.buf b).stg = (s.buf b).stg) ∧
    (∀ i ∈ [Instr.bbItuStart b, .bbItuNext b], exec i s = .next t →
      SameContents (s.buf b) (t.buf b) ∧ (t.buf b).itb = (s.buf b).itb ∧ (t.buf b).stg = (s.buf b).stg) ∧
    (∀ d, ∀ i ∈ [Instr.bbDeserBegin b, .bbDeserByte b d], exec i s = .next t →
      SameContents (s.buf b) (t.buf b) ∧ (t.buf b).itb = (s.buf b).itb ∧ (t.buf b).itu = (s.buf b).itu) ∧
    (∀ v c, ∀ i ∈ [Instr.bbClear b, .bbAppend b v, .bbAppendChar b c, .bbRemove b], exec i s = .next t →
      (t.buf b).stg = (s.buf b).stg)

/-! ### Control and bit-buffer core (43_control.md, 40_bitbuffer.md) -/

/-- 43 R230: NOP completes with (0, 0), ERR = 0, ERR_STICKY and OVERRUN unchanged; any other word with OPC 0x00 is no
command. -/
def Obligations.NopOnlyClearsTheResult : Prop :=
  (∀ s : State, ∃ t, exec .nop s = .next t ∧ Done s t ∧ t.res0 = 0 ∧ t.res1 = 0 ∧ UnitsKept s t) ∧
  (∀ w : Word, fieldOpc w = 0 → w ≠ 0 → ∀ i, decode w ≠ .ok i)

/-- 40 R106: BB_CLEAR on a buffer that exists leaves bitCount 0 and units [0x00], makes the cursors stale, does not touch
the staging area, and completes with (0, 0). -/
def Obligations.ClearEmptiesTheBuffer : Prop :=
  ∀ (s : State) (b : BitVec 2), b.toNat < s.cfg.nbuf →
    ∃ t, exec (.bbClear b) s = .next t ∧ Done s t ∧ OnlyBuf b s t ∧ t.res0 = 0 ∧ t.res1 = 0 ∧
      (t.buf b).bitCount = 0 ∧ (t.buf b).units = [0x00] ∧
      CursorsStaled (s.buf b) (t.buf b) ∧ (t.buf b).stg = (s.buf b).stg

/-- 40 R101, R103, R104: BB_APPEND, and BB_APPEND_CHAR with the bit of its character (1 for 0x31, else 0), on a buffer that
is not full add that bit at the end, keep I1 and I2, report the new counts and make the cursors stale. -/
def Obligations.AppendAddsOneBit : Prop :=
  ∀ (s : State) (b : BitVec 2) (v : Bool) (i : Instr),
    (i = .bbAppend b v ∨ ∃ c : Byte, i = .bbAppendChar b c ∧ v = decide (c = 0x31)) →
    Ready b s → (s.buf b).bitCount < s.cfg.maxBits →
    ∃ t, exec i s = .next t ∧ Done s t ∧ OnlyBuf b s t ∧
      (t.buf b).bits s.cfg.bitOrder = (s.buf b).bits s.cfg.bitOrder ++ [v] ∧
      (t.buf b).Valid s.cfg ∧
      t.res0.toNat = (s.buf b).bitCount + 1 ∧ t.res1.toNat = (t.buf b).units.length ∧
      CursorsStaled (s.buf b) (t.buf b) ∧ (t.buf b).stg = (s.buf b).stg

/-- 40 R102, R105: BB_REMOVE on a buffer that is not empty takes the last bit off, keeps I1 and I2, returns the bit and the
new bitCount, and makes the cursors stale. -/
def Obligations.RemoveTakesTheLastBit : Prop :=
  ∀ (s : State) (b : BitVec 2), Ready b s → 0 < (s.buf b).bitCount →
    ∃ t v, exec (.bbRemove b) s = .next t ∧ Done s t ∧ OnlyBuf b s t ∧
      (s.buf b).bits s.cfg.bitOrder = (t.buf b).bits s.cfg.bitOrder ++ [v] ∧
      (t.buf b).Valid s.cfg ∧
      t.res0 = (if v then 1 else 0) ∧ t.res1.toNat = (s.buf b).bitCount - 1 ∧
      CursorsStaled (s.buf b) (t.buf b) ∧ (t.buf b).stg = (s.buf b).stg

/-- 40 R107, R109, R110: BB_LAST, BB_GETBIT and BB_GETCHAR return the addressed logical bit, as 0 or 1, or as the character
0x30 or 0x31. -/
def Obligations.BitReadsReturnTheBit : Prop :=
  ∀ (s : State) (b : BitVec 2) (v : Bool), b.toNat < s.cfg.nbuf →
    (((s.buf b).bits s.cfg.bitOrder).getLast? = some v →
      ∃ t, exec (.bbLast b) s = .next t ∧ Done s t ∧ UnitsKept s t ∧ t.res0 = (if v then 1 else 0) ∧ t.res1 = 0) ∧
    (((s.buf b).bits s.cfg.bitOrder)[s.latA0.toNat]? = some v →
      (∃ t, exec (.bbGetbit b) s = .next t ∧ Done s t ∧ UnitsKept s t ∧ t.res0 = (if v then 1 else 0) ∧ t.res1 = 0) ∧
      (∃ t, exec (.bbGetchar b) s = .next t ∧ Done s t ∧ UnitsKept s t ∧
        t.res0 = (if v then 0x31 else 0x30) ∧ t.res1 = 0))

/-- 40 R108: BB_INFO returns bitCount and unitCount, and neither is cut to 32 bits (00 R8, R9). -/
def Obligations.InfoReportsTheCounts : Prop :=
  ∀ (s : State) (b : BitVec 2), Ready b s →
    ∃ t, exec (.bbInfo b) s = .next t ∧ Done s t ∧ UnitsKept s t ∧
      t.res0.toNat = (s.buf b).bitCount ∧ t.res1.toNat = (s.buf b).units.length

/-- 40 R111, 20 R63: BB_GETUNIT returns unit k zero-extended; its physical bit of position p is logical bit 8k + p, or 0 at
or beyond bitCount. -/
def Obligations.UnitReadsShowTheBits : Prop :=
  ∀ (s : State) (b : BitVec 2), Ready b s → s.latA0.toNat < (s.buf b).units.length →
    ∃ t, exec (.bbGetunit b) s = .next t ∧ Done s t ∧ UnitsKept s t ∧ t.res1 = 0 ∧ t.res0.toNat < 256 ∧
      ∀ p < 8, t.res0.getLsbD (if s.cfg.bitOrder = .lsbFirst then p else 7 - p) =
        (((s.buf b).bits s.cfg.bitOrder)[8 * s.latA0.toNat + p]?.getD false)

/-- 40 R112, 10 R46: BB_EQUAL of two buffers returns 1 when their bit sequences are equal, else 0. -/
def Obligations.EqualComparesTheBits : Prop :=
  ∀ (s : State) (b c : BitVec 2), Ready b s → Ready c s → s.latA0.toNat = c.toNat →
    ∃ t, exec (.bbEqual b) s = .next t ∧ Done s t ∧ UnitsKept s t ∧ t.res1 = 0 ∧
      t.res0 = (if (s.buf b).bits s.cfg.bitOrder = (s.buf c).bits s.cfg.bitOrder then 1 else 0)

/-- 40 R113: BB_APPEND then BB_REMOVE gives back the buffer's bitCount and units, and returns the appended bit; cursors
that were ACTIVE are STALE afterwards. -/
def Obligations.AppendThenRemoveIsInverse : Prop :=
  ∀ (s : State) (b : BitVec 2) (v : Bool), Ready b s → (s.buf b).bitCount < s.cfg.maxBits →
    ∃ t, runAll [.bbAppend b v, .bbRemove b] s = .next t ∧ SameContents (s.buf b) (t.buf b) ∧
      t.err = .ok ∧ t.res0 = (if v then 1 else 0) ∧ CursorsStaled (s.buf b) (t.buf b)

/-- 40 R115, 30 R97: `bb.from_str` of a string (BB_CLEAR, then BB_APPEND_CHAR of each character) of at most MAX_BITS
characters succeeds, and BB_GETCHAR then reads the string back, each character but '1' as '0'. -/
def Obligations.TextRoundTrip : Prop :=
  ∀ (s : State) (b : BitVec 2) (str : List Byte), Ready b s → str.length ≤ s.cfg.maxBits →
    ∃ t, runAll (.bbClear b :: str.map (.bbAppendChar b)) s = .next t ∧ t.err = .ok ∧
      (t.buf b).bitCount = str.length ∧
      ∀ (k : Word) (c : Byte), str[k.toNat]? = some c →
        ∃ u, exec (.bbGetchar b) { t with latA0 := k } = .next u ∧ u.err = .ok ∧
          u.res0 = (if c = 0x31 then 0x31 else 0x30)

/-! ### Errors of the bit-buffer commands (60_exceptions.md) -/

/-- 60 R251, R252: BB_REMOVE of an empty buffer raises UNDERFLOW (1), BB_LAST of one raises EMPTY (2). -/
def Obligations.EmptyBufferErrors : Prop :=
  (∀ (s : State) (b : BitVec 2), b.toNat < s.cfg.nbuf → (s.buf b).bitCount = 0 →
    exec (.bbRemove b) s = .next (s.raised .underflow 0) ∧ exec (.bbLast b) s = .next (s.raised .empty 0)) ∧
  ErrCode.underflow.code = 1 ∧ ErrCode.empty.code = 2

/-- 60 R253: an index or value operand out of its range raises RANGE (3). -/
def Obligations.OutOfRangeErrors : Prop :=
  ErrCode.range.code = 3 ∧ ∀ s : State,
    (∀ b : BitVec 2, b.toNat < s.cfg.nbuf →
      ((s.buf b).bitCount ≤ s.latA0.toNat →
        exec (.bbGetbit b) s = .next (s.raised .range 0) ∧ exec (.bbGetchar b) s = .next (s.raised .range 0)) ∧
      ((s.buf b).units.length ≤ s.latA0.toNat → exec (.bbGetunit b) s = .next (s.raised .range 0)) ∧
      (s.cfg.nbuf ≤ s.latA0.toNat → exec (.bbEqual b) s = .next (s.raised .range 0)) ∧
      (3 * s.cfg.w + (s.buf b).units.length ≤ s.latA0.toNat → exec (.bbSerByte b) s = .next (s.raised .range 0))) ∧
    (s.ht.phase = .loading → 2 ^ s.cfg.symBits ≤ s.latA0.toNat ∨ 2 ^ s.cfg.weightBits ≤ s.latA1.toNat →
      exec .htPush s = .next (s.raised .range 0)) ∧
    (s.ht.Valid s.cfg → s.ht.phase = .built → 2 * s.ht.n - 1 ≤ s.latA0.toNat →
      ∀ j, ∀ i ∈ [Instr.htNodeWeight, .htNodeParent, .htNodeChildren, .htNodeSymbol, .htNodeCode j],
        exec i s = .next (s.raised .range 0)) ∧
    (s.ht.phase = .built → ∀ j : BitVec 16, s.cfg.codeChunks ≤ j.toNat →
      exec (.htNodeCode j) s = .next (s.raised .range 0))

/-- 60 R254: BB_APPEND and BB_APPEND_CHAR at bitCount = MAX_BITS, and HT_PUSH of an entry in range at MAX_ENTRIES entries,
raise CAPACITY (4). -/
def Obligations.CapacityErrors : Prop :=
  ErrCode.capacity.code = 4 ∧ ∀ s : State,
    (∀ (b : BitVec 2) (v : Bool) (c : Byte), b.toNat < s.cfg.nbuf → (s.buf b).bitCount = s.cfg.maxBits →
      exec (.bbAppend b v) s = .next (s.raised .capacity 0) ∧
      exec (.bbAppendChar b c) s = .next (s.raised .capacity 0)) ∧
    (s.ht.phase = .loading → s.latA0.toNat < 2 ^ s.cfg.symBits → s.latA1.toNat < 2 ^ s.cfg.weightBits →
      s.ht.raw.length = s.cfg.maxEntries → exec .htPush s = .next (s.raised .capacity 0))

/-- 60 R258, R261: a NEXT raises SEQUENCE (11) when its cursor is IDLE and ITER_STALE (8) when it is STALE; BB_DESER_BYTE
and BB_DESER_END raise SEQUENCE when no session is open. -/
def Obligations.SequenceAndStaleErrors : Prop :=
  ErrCode.sequence.code = 11 ∧ ErrCode.iterStale.code = 8 ∧ ∀ (s : State) (b : BitVec 2) (d : Byte), b.toNat < s.cfg.nbuf →
    ((s.buf b).itb.state = .idle → exec (.bbItbNext b) s = .next (s.raised .sequence 0)) ∧
    ((s.buf b).itb.state = .stale → exec (.bbItbNext b) s = .next (s.raised .iterStale 0)) ∧
    ((s.buf b).itu.state = .idle → exec (.bbItuNext b) s = .next (s.raised .sequence 0)) ∧
    ((s.buf b).itu.state = .stale → exec (.bbItuNext b) s = .next (s.raised .iterStale 0)) ∧
    ((s.buf b).stg.active = false →
      exec (.bbDeserByte b d) s = .next (s.raised .sequence 0) ∧
      exec (.bbDeserEnd b) s = .next (s.raised .sequence 0))

/-! ### Traversal (41_bitbuffer_serial.md §1) -/

/-- 41 R141 to R144: a START sets its cursor to (ACTIVE, 0); a NEXT with an ACTIVE cursor returns the element at pos with
RES1 = 1 and moves on by one, or (0, 0) at the end with the cursor where it was. -/
def Obligations.TraversalCommandsStepTheCursor : Prop :=
  ∀ (s : State) (b : BitVec 2), b.toNat < s.cfg.nbuf →
    (∃ t, exec (.bbItbStart b) s = .next t ∧ Done s t ∧ t.res0 = 0 ∧ t.res1 = 0 ∧
      t.buf b = { s.buf b with itb := ⟨.active, 0⟩ }) ∧
    (∃ t, exec (.bbItuStart b) s = .next t ∧ Done s t ∧ t.res0 = 0 ∧ t.res1 = 0 ∧
      t.buf b = { s.buf b with itu := ⟨.active, 0⟩ }) ∧
    (∀ pos, (s.buf b).itb = ⟨.active, pos⟩ →
      ∃ t, exec (.bbItbNext b) s = .next t ∧ Done s t ∧
        (∀ v, ((s.buf b).bits s.cfg.bitOrder)[pos]? = some v →
          t.res0 = (if v then 1 else 0) ∧ t.res1 = 1 ∧ t.buf b = { s.buf b with itb := ⟨.active, pos + 1⟩ }) ∧
        (((s.buf b).bits s.cfg.bitOrder)[pos]? = none → t.res0 = 0 ∧ t.res1 = 0 ∧ t.buf b = s.buf b)) ∧
    (∀ pos, (s.buf b).itu = ⟨.active, pos⟩ →
      ∃ t, exec (.bbItuNext b) s = .next t ∧ Done s t ∧
        (∀ u : Byte, (s.buf b).units[pos]? = some u →
          t.res0.toNat = u.toNat ∧ t.res1 = 1 ∧ t.buf b = { s.buf b with itu := ⟨.active, pos + 1⟩ }) ∧
        ((s.buf b).units[pos]? = none → t.res0 = 0 ∧ t.res1 = 0 ∧ t.buf b = s.buf b))

/-- 41 R145: after a START, the NEXTs deliver exactly the bits (or the units) of the buffer in order, each with RES1 = 1,
and then (0, 0) for as long as they go on. -/
def Obligations.TraversalDeliversEveryElement : Prop :=
  ∀ (s t : State) (b : BitVec 2) (extra : Nat), b.toNat < s.cfg.nbuf →
    (exec (.bbItbStart b) s = .next t →
      results (.bbItbNext b) ((s.buf b).bitCount + extra) t =
        ((s.buf b).bits s.cfg.bitOrder).map (fun v => ((if v then 1 else 0 : Word), (1 : Word))) ++
          List.replicate extra (0, 0)) ∧
    (exec (.bbItuStart b) s = .next t →
      results (.bbItuNext b) ((s.buf b).units.length + extra) t =
        (s.buf b).units.map (fun u => (u.setWidth 32, (1 : Word))) ++ List.replicate extra (0, 0))

/-- 70 R295: a STALE cursor stays STALE, whatever command runs, until the next START of that traversal. -/
def Obligations.StaleUntilRestarted : Prop :=
  ∀ (i : Instr) (s t : State) (b : BitVec 2), exec i s = .next t →
    ((s.buf b).itb.state = .stale → i ≠ .bbItbStart b → (t.buf b).itb = (s.buf b).itb) ∧
    ((s.buf b).itu.state = .stale → i ≠ .bbItuStart b → (t.buf b).itu = (s.buf b).itu)

/-! ### Wire format (41_bitbuffer_serial.md §2, §3) -/

/-- 41 R150 to R152: BB_SER_LEN returns 3W + unitCount; BB_SER_BYTE k returns byte k of the three little-endian metadata
fields and then the units. -/
def Obligations.SerialisationReadsTheImage : Prop :=
  ∀ (s : State) (b : BitVec 2), Ready b s →
    (∃ t, exec (.bbSerLen b) s = .next t ∧ Done s t ∧ UnitsKept s t ∧
      t.res0.toNat = 3 * s.cfg.w + (s.buf b).units.length ∧ t.res1 = 0) ∧
    (∀ k, s.latA0.toNat = k → k < 3 * s.cfg.w + (s.buf b).units.length →
      ∃ t, exec (.bbSerByte b) s = .next t ∧ Done s t ∧ UnitsKept s t ∧ t.res1 = 0 ∧
        t.res0.toNat =
          if k < s.cfg.w then (s.buf b).bitCount / 256 ^ k % 256
          else if k < 2 * s.cfg.w then (s.buf b).units.length / 256 ^ (k - s.cfg.w) % 256
          else if k < 3 * s.cfg.w then ((s.buf b).units.length - 1) / 256 ^ (k - 2 * s.cfg.w) % 256
          else ((s.buf b).units.getD (k - 3 * s.cfg.w) 0).toNat)

/-- 41 R160, R161: BB_DESER_BEGIN opens an empty session, discarding the bytes received so far; BB_DESER_BYTE stores the
byte while fewer than SCAP are held, else sets ovf, and returns the number held and ovf. -/
def Obligations.SessionCollectsBytes : Prop :=
  ∀ (s : State) (b : BitVec 2) (d : Byte), b.toNat < s.cfg.nbuf →
    (∃ t, exec (.bbDeserBegin b) s = .next t ∧ Done s t ∧ OnlyBuf b s t ∧ t.res0 = 0 ∧ t.res1 = 0 ∧
      t.buf b = { s.buf b with stg := ⟨true, [], false⟩ }) ∧
    (∀ bytes ovf, s.cfg.Legal → (s.buf b).stg = ⟨true, bytes, ovf⟩ → bytes.length ≤ s.cfg.scap →
      ∃ t, exec (.bbDeserByte b d) s = .next t ∧ Done s t ∧ OnlyBuf b s t ∧
        t.buf b = { s.buf b with stg :=
          if bytes.length < s.cfg.scap then ⟨true, bytes ++ [d], ovf⟩ else ⟨true, bytes, true⟩ } ∧
        t.res0.toNat = (t.buf b).stg.bytes.length ∧ t.res1 = (if (t.buf b).stg.ovf then 1 else 0))

/-- 60 R255, 41 R162, R163: BB_DESER_END in an open session raises MALFORMED (5) with the subcode of the first check that
fails (1 to 6, in that order; bytes, ovf the staged image, L its length, Bc, U, C its three fields) and changes nothing else;
an image that passes them all it installs, closing the session, making the cursors stale and returning the counts. -/
def Obligations.SessionEndInstallsOrRejects : Prop :=
  ErrCode.malformed.code = 5 ∧
  ∀ (s : State) (b : BitVec 2) (bytes : List Byte) (ovf : Bool) (W L Bc U C : Nat), Ready b s →
    (s.buf b).stg = ⟨true, bytes, ovf⟩ → s.cfg.w = W → bytes.length = L → leValue (bytes.take W) = Bc →
    leValue ((bytes.drop W).take W) = U → leValue ((bytes.drop (2 * W)).take W) = C →
    (ovf = false → L < 3 * W → exec (.bbDeserEnd b) s = .next (s.raised .malformed 1)) ∧
    (ovf = true ∨ 3 * W ≤ L ∧ L ≠ 3 * W + U → exec (.bbDeserEnd b) s = .next (s.raised .malformed 2)) ∧
    (ovf = false → L = 3 * W + U →
      (U = 0 → exec (.bbDeserEnd b) s = .next (s.raised .malformed 3)) ∧
      (U ≠ 0 → C ≠ U - 1 → exec (.bbDeserEnd b) s = .next (s.raised .malformed 4)) ∧
      (U ≠ 0 → C = U - 1 → U ≠ max 1 ((Bc + 7) / 8) → exec (.bbDeserEnd b) s = .next (s.raised .malformed 5)) ∧
      (U ≠ 0 → C = U - 1 → U = max 1 ((Bc + 7) / 8) →
        ((∃ p < 8, Bc ≤ 8 * (U - 1) + p ∧ unitBit s.cfg.bitOrder (bytes.getD (3 * W + U - 1) 0) p = true) →
          exec (.bbDeserEnd b) s = .next (s.raised .malformed 6)) ∧
        ((∀ p < 8, Bc ≤ 8 * (U - 1) + p → unitBit s.cfg.bitOrder (bytes.getD (3 * W + U - 1) 0) p = false) →
          ∃ t, exec (.bbDeserEnd b) s = .next t ∧ Done s t ∧ OnlyBuf b s t ∧
            (t.buf b).image W = bytes ∧ (t.buf b).Valid s.cfg ∧
            (t.buf b).stg = ⟨false, [], false⟩ ∧ CursorsStaled (s.buf b) (t.buf b) ∧
            t.res0.toNat = (t.buf b).bitCount ∧ t.res1.toNat = (t.buf b).units.length)))

/-- 41 R164: the image of every valid buffer fits a staging area, is accepted, and carries its bitCount and units. -/
def Obligations.ImagesOfBuffersAreAccepted : Prop :=
  ∀ (p : Params) (B : Buffer), p.Legal → B.Valid p →
    validate p.bitOrder p.w (B.image p.w) false = none ∧ (B.image p.w).length ≤ p.scap ∧
      imageBitCount p.w (B.image p.w) = B.bitCount ∧ imageUnits p.w (B.image p.w) = B.units

/-- 41 R164, R162: conversely, what Validate accepts is the image of exactly one pair (bitCount, units) with I1 and I2,
within the capacity. -/
def Obligations.AcceptedImagesAreImages : Prop :=
  ∀ (p : Params) (bytes : List Byte) (ovf : Bool), p.Legal → bytes.length ≤ p.scap →
    validate p.bitOrder p.w bytes ovf = none →
    ovf = false ∧
    (∃ B : Buffer, B.I1 ∧ B.I2 p.bitOrder ∧ B.bitCount ≤ p.maxBits ∧ B.image p.w = bytes) ∧
    (∀ B C : Buffer, B.Valid p → C.Valid p → B.image p.w = bytes → C.image p.w = bytes → SameContents B C)

/-- 41 R164, 30 R97: `bb.from_bytes c` with the bytes of buffer b's image succeeds and leaves B[c] equal to B[b]. -/
def Obligations.BinaryRoundTrip : Prop :=
  ∀ (s : State) (b c : BitVec 2), Ready b s → Ready c s →
    ∃ t, runAll (.bbDeserBegin c :: ((s.buf b).image s.cfg.w).map (.bbDeserByte c) ++ [.bbDeserEnd c]) s = .next t ∧
      t.err = .ok ∧ SameContents (s.buf b) (t.buf c) ∧ (t.buf c).stg.active = false

/-! ### The Huffman unit (42_huffman.md) -/

/-- 42 R181, R210: HT_CLEAR leaves LOADING with nothing in it; HT_INFO returns the number of raw entries in bits [30:0],
the phase in bit 31, and n. -/
def Obligations.ClearAndInfoOfTheHuffmanUnit : Prop :=
  (∀ s : State, ∃ t, exec .htClear s = .next t ∧ Done s t ∧ t.bufs = s.bufs ∧ t.ht = ⟨.loading, [], 0, []⟩ ∧
    t.res0 = 0 ∧ t.res1 = 0) ∧
  (∀ s : State, s.cfg.Legal → s.ht.Valid s.cfg → ∃ t, exec .htInfo s = .next t ∧ Done s t ∧ UnitsKept s t ∧
    t.res0.toNat = s.ht.raw.length + (if s.ht.phase = .built then 2 ^ 31 else 0) ∧ t.res1.toNat = s.ht.n)

/-- 42 R182, 60 R265: HT_PUSH in LOADING, with the operands in range and room left, adds the entry (A0, A1) at the end and
returns the number of entries; in BUILT it raises BUILT whatever the operands. -/
def Obligations.PushAddsTheEntry : Prop :=
  ∀ s : State,
    (s.ht.phase = .built → exec .htPush s = .next (s.raised .built 0)) ∧
    (s.cfg.Legal → s.ht.Valid s.cfg → s.ht.phase = .loading → s.latA0.toNat < 2 ^ s.cfg.symBits →
      s.latA1.toNat < 2 ^ s.cfg.weightBits → s.ht.raw.length < s.cfg.maxEntries →
      ∃ t, exec .htPush s = .next t ∧ Done s t ∧ t.bufs = s.bufs ∧ t.ht.Valid s.cfg ∧ t.ht.phase = .loading ∧
        t.ht.raw = s.ht.raw ++ [⟨s.latA0.toNat, s.latA1.toNat⟩] ∧
        t.res0.toNat = s.ht.raw.length + 1 ∧ t.res1 = 0)

/-- 42 R192, R184: HT_BUILD in LOADING normalises and builds, keeps H.raw, and returns n and max(0, 2n - 1), the number of
nodes. -/
def Obligations.BuildMakesTheTree : Prop :=
  ∀ s : State, s.cfg.Legal → s.ht.Valid s.cfg → s.ht.phase = .loading →
    ∃ t, exec .htBuild s = .next t ∧ Done s t ∧ t.bufs = s.bufs ∧ t.ht.phase = .built ∧ t.ht.raw = s.ht.raw ∧
      t.ht.n = (normalize s.ht.raw).length ∧ t.ht.nodes = buildTree s.cfg.merge (normalize s.ht.raw) ∧
      t.ht.nodes.length = 2 * t.ht.n - 1 ∧ t.res0.toNat = t.ht.n ∧ t.res1.toNat = t.ht.nodes.length

/-- 42 R183: normalisation gives the distinct entries, each once, in strictly ascending order of (symbol, weight). -/
def Obligations.NormalizeSortsTheDistinctEntries : Prop :=
  ∀ raw : List Entry, (normalize raw).Pairwise Entry.Before ∧ ∀ e, e ∈ normalize raw ↔ e ∈ raw

/-- 42 R198: HT_BUILD is a function of the set of distinct entries of H.raw and the parameters: two states in LOADING that
agree on these get the same n, the same nodes and the same results. -/
def Obligations.BuildIgnoresPushOrder : Prop :=
  ∀ s u : State, s.cfg = u.cfg → s.ht.phase = .loading → u.ht.phase = .loading →
    (∀ e, e ∈ s.ht.raw ↔ e ∈ u.ht.raw) →
    ∃ t v, exec .htBuild s = .next t ∧ exec .htBuild u = .next v ∧
      t.ht.n = v.ht.n ∧ t.ht.nodes = v.ht.nodes ∧ t.res0 = v.res0 ∧ t.res1 = v.res1

/-- 42 R187: with two candidates or more, the scan selects the candidate least in (weight, index) and the least of the
others. -/
def Obligations.ScanSelectsTheTwoLeast : Prop :=
  ∀ (pol : MergePolicy) (nodes : List Node) (i a b : Nat), a < b → b < i →
    candidate pol nodes a = true → candidate pol nodes b = true →
    ∃ s1 s2, select2 pol nodes i = (some s1, some s2) ∧ s1 < i ∧ s2 < i ∧ s1 ≠ s2 ∧
      candidate pol nodes s1 = true ∧ candidate pol nodes s2 = true ∧
      (∀ j < i, candidate pol nodes j = true → j ≠ s1 → NodeBefore nodes s1 j) ∧
      (∀ j < i, candidate pol nodes j = true → j ≠ s1 → j ≠ s2 → NodeBefore nodes s2 j)

/-- 42 R185 to R188, R190, R194: under EXCLUDE_PARENTED the nodes form one full binary tree, built greedily. Leaf j carries
entry j and has no children; internal node i has two children below i, whose parent it is, their weights' sum, and codes that
extend its own by 0 on the left and 1 on the right; in the order (weight, index) its left child comes before its right one,
and both come before every other node below i that has no parent before step i (none, or one not below i); every node but
the root has a parent it is a child of; the root has none and the empty code. -/
def Obligations.ExcludeParentedBuildsOneTree : Prop :=
  ∀ (out : List Entry) (n : Nat) (T : List Node), out.length = n → 1 ≤ n → buildTree .excludeParented out = T →
    T.length = 2 * n - 1 ∧
    (∀ j < n, (nodeAt T j).symbol = (out[j]?.map (·.symbol)) ∧ some (nodeAt T j).weight = (out[j]?.map (·.weight)) ∧
      (nodeAt T j).left = none ∧ (nodeAt T j).right = none) ∧
    (∀ i, n ≤ i → i < 2 * n - 1 → (nodeAt T i).symbol = none ∧
      ∃ l r, (nodeAt T i).left = some l ∧ (nodeAt T i).right = some r ∧ l < i ∧ r < i ∧ l ≠ r ∧
        (nodeAt T l).parent = some i ∧ (nodeAt T r).parent = some i ∧
        (nodeAt T i).weight = (nodeAt T l).weight + (nodeAt T r).weight ∧
        (nodeAt T l).code = (nodeAt T i).code ++ [false] ∧ (nodeAt T r).code = (nodeAt T i).code ++ [true] ∧
        NodeBefore T l r ∧
        (∀ j < i, j ≠ l → j ≠ r → (∀ p, (nodeAt T j).parent = some p → i ≤ p) → NodeBefore T l j ∧ NodeBefore T r j)) ∧
    (∀ j < 2 * n - 2, ∃ i, (nodeAt T j).parent = some i ∧ n ≤ i ∧ i < 2 * n - 1 ∧ j < i ∧
      ((nodeAt T i).left = some j ∨ (nodeAt T i).right = some j)) ∧
    (nodeAt T (2 * n - 2)).parent = none ∧ (nodeAt T (2 * n - 2)).code = []

/-- 42 R197, R196: under EXCLUDE_PARENTED with n ≥ 2, the leaves' codes are nonempty, at most n - 1 long, and no leaf's code
is a prefix of another's. -/
def Obligations.LeafCodesAreAPrefixCode : Prop :=
  ∀ (out : List Entry) (n : Nat) (T : List Node), out.length = n → 2 ≤ n → buildTree .excludeParented out = T →
    (∀ j < n, (nodeAt T j).code ≠ [] ∧ (nodeAt T j).code.length ≤ n - 1) ∧
    (∀ j < n, ∀ k < n, (nodeAt T j).code <+: (nodeAt T k).code → j = k)

/-- 42 R197: under EXCLUDE_PARENTED with n ≥ 1 the code is complete: the sum over the leaves of 2^(-length) is exactly 1. -/
def Obligations.LeafCodesAreComplete : Prop :=
  ∀ (out : List Entry) (n : Nat) (T : List Node), out.length = n → 1 ≤ n → buildTree .excludeParented out = T →
    ((List.range n).map fun j => (1 / 2 : ℚ) ^ (nodeAt T j).code.length).sum = 1

/-- 42 R195, R185, R191: under SOURCE_LITERAL leaf j carries entry j and has no children, and an internal node has no symbol.
For n = 1 the one leaf is the root, with no parent and the empty code. For n ≥ 2 every internal node is built over the same
two leaves, those least in (weight, index); only they have a parent, the root, and a code, "0" and "1". For n = 1 and n = 2
the other policy gives the same tree. -/
def Obligations.SourceLiteralRepeatsOnePair : Prop :=
  ∀ (out : List Entry) (n : Nat) (T : List Node), out.length = n → 1 ≤ n → buildTree .sourceLiteral out = T →
    T.length = 2 * n - 1 ∧
    (∀ j < n, (nodeAt T j).symbol = (out[j]?.map (·.symbol)) ∧ some (nodeAt T j).weight = (out[j]?.map (·.weight)) ∧
      (nodeAt T j).left = none ∧ (nodeAt T j).right = none) ∧
    (∀ i, n ≤ i → i < 2 * n - 1 → (nodeAt T i).symbol = none) ∧
    (n = 1 → (nodeAt T 0).parent = none ∧ (nodeAt T 0).code = []) ∧
    (n ≤ 2 → buildTree .excludeParented out = T) ∧
    (2 ≤ n → ∃ s1 s2, s1 < n ∧ s2 < n ∧ s1 ≠ s2 ∧
      (∀ j < n, j ≠ s1 → NodeBefore T s1 j) ∧ (∀ j < n, j ≠ s1 → j ≠ s2 → NodeBefore T s2 j) ∧
      (∀ i, n ≤ i → i < 2 * n - 1 → (nodeAt T i).left = some s1 ∧ (nodeAt T i).right = some s2 ∧
        (nodeAt T i).weight = (nodeAt T s1).weight + (nodeAt T s2).weight) ∧
      (nodeAt T s1).parent = some (2 * n - 2) ∧ (nodeAt T s2).parent = some (2 * n - 2) ∧
      (nodeAt T s1).code = [false] ∧ (nodeAt T s2).code = [true] ∧
      (∀ j < 2 * n - 1, j ≠ s1 → j ≠ s2 → (nodeAt T j).parent = none ∧ (nodeAt T j).code = []))

/-- 42 R193, 00 R9: in every valid state every node weight is below 2^NODE_BITS, and NODE_BITS is at most 32. -/
def Obligations.NodeWeightsFit : Prop :=
  ∀ (p : Params) (H : Huffman), p.Legal → H.Valid p →
    p.nodeBits ≤ 32 ∧ ∀ x ∈ H.nodes, x.weight < 2 ^ p.nodeBits

/-- 42 R211 to R214: HT_NODE_WEIGHT, HT_NODE_PARENT, HT_NODE_CHILDREN and HT_NODE_SYMBOL return the fields of node k = A0,
uncut, an absent one as 0xFFFFFFFF. -/
def Obligations.NodeReadsReturnTheFields : Prop :=
  ∀ (s : State) (x : Node), s.cfg.Legal → s.ht.Valid s.cfg → s.ht.phase = .built →
    s.ht.nodes[s.latA0.toNat]? = some x →
    (∃ t, exec .htNodeWeight s = .next t ∧ Done s t ∧ UnitsKept s t ∧ t.res0.toNat = x.weight ∧ t.res1 = 0) ∧
    (∃ t, exec .htNodeParent s = .next t ∧ Done s t ∧ UnitsKept s t ∧
      t.res0.toNat = x.parent.getD 0xFFFFFFFF ∧ t.res1 = 0) ∧
    (∃ t, exec .htNodeChildren s = .next t ∧ Done s t ∧ UnitsKept s t ∧
      t.res0.toNat = x.left.getD 0xFFFFFFFF ∧ t.res1.toNat = x.right.getD 0xFFFFFFFF) ∧
    (∃ t, exec .htNodeSymbol s = .next t ∧ Done s t ∧ UnitsKept s t ∧
      t.res0.toNat = x.symbol.getD 0xFFFFFFFF ∧ t.res1 = 0)

/-- 42 R215: HT_NODE_CODE returns the length of node k's code and, bit by bit, its chunk j; positions past the end are 0. -/
def Obligations.NodeCodeReturnsTheChunk : Prop :=
  ∀ (s : State) (x : Node) (j : BitVec 16), s.cfg.Legal → s.ht.Valid s.cfg → s.ht.phase = .built →
    s.ht.nodes[s.latA0.toNat]? = some x → j.toNat < s.cfg.codeChunks →
    ∃ t, exec (.htNodeCode j) s = .next t ∧ Done s t ∧ UnitsKept s t ∧
      t.res0.toNat = x.code.length ∧
      ∀ q < 32, t.res1.getLsbD q = x.code[32 * j.toNat + q]?.getD false

/-- 42 R216, R199: HT_LOOKUP in BUILT returns a leaf that carries the symbol, the last such or the first as DUP_LOOKUP says,
with the length of its code; with none it raises NOT_FOUND. -/
def Obligations.LookupFindsTheLeaf : Prop :=
  ∀ s : State, s.cfg.Legal → s.ht.Valid s.cfg → s.ht.phase = .built →
    ((∀ j < s.ht.n, (nodeAt s.ht.nodes j).symbol ≠ some s.latA0.toNat) →
      exec .htLookup s = .next (s.raised .notFound 0)) ∧
    (∀ k < s.ht.n, (nodeAt s.ht.nodes k).symbol = some s.latA0.toNat →
      ∃ t x, exec .htLookup s = .next t ∧ Done s t ∧ UnitsKept s t ∧
        x < s.ht.n ∧ (nodeAt s.ht.nodes x).symbol = some s.latA0.toNat ∧ t.res0.toNat = x ∧
        t.res1.toNat = (nodeAt s.ht.nodes x).code.length ∧
        (s.cfg.dup = .last → k ≤ x) ∧ (s.cfg.dup = .first → x ≤ k))

/-- 60 R256, R257, 70 R297: in LOADING a command that reads nodes raises NOT_BUILT (6); in BUILT HT_PUSH and HT_BUILD raise
BUILT (7), and only HT_CLEAR changes the Huffman unit. -/
def Obligations.PhasesGuardTheHuffmanUnit : Prop :=
  ErrCode.notBuilt.code = 6 ∧ ErrCode.built.code = 7 ∧ ∀ s : State,
    (s.ht.phase = .loading → ∀ j, ∀ i ∈ [Instr.htNodeWeight, .htNodeParent, .htNodeChildren, .htNodeSymbol,
      .htNodeCode j, .htLookup], exec i s = .next (s.raised .notBuilt 0)) ∧
    (s.ht.phase = .built → ∀ i ∈ [Instr.htPush, .htBuild], exec i s = .next (s.raised .built 0)) ∧
    (s.ht.phase = .built → ∀ i t, exec i s = .next t → i ≠ .htClear → t.ht = s.ht)

/-! ### The register port (20_memory.md, 10_state.md, 70_reset_and_hazards.md) -/

/-- 70 R290 to R292, 10 R30: a CMD write with BUSY = 0 makes BUSY 1, is read back, and latches the word, ARG0 and ARG1; with
BUSY = 1 it is dropped, sets OVERRUN, and changes nothing else. -/
def Obligations.CommandWritesIssueOrDrop : Prop :=
  ∀ (s : State) (v : Word), s.inReset = false →
    (s.busy = false → hostWrite (s.cfg.hbbBase + 0x10) 4 v s = .next
      { s with cmd := v, latCmd := v, latA0 := s.arg0, latA1 := s.arg1, busy := true, hostPos := s.hostPos + 1 }) ∧
    (s.busy = true → hostWrite (s.cfg.hbbBase + 0x10) 4 v s = .next
      { s with overrun := true, hostPos := s.hostPos + 1 })

/-- 10 R21, R26 to R28, 20 R65, R66: a write of ARG0 or ARG1 stores the value; a write of STATUS clears the sticky bits whose
data bit is 1 and does nothing else; a write of any other register than these and CMD is ignored. -/
def Obligations.OtherWritesStoreClearOrAreIgnored : Prop :=
  ∀ (s : State) (v : Word), s.inReset = false →
    hostWrite (s.cfg.hbbBase + 0x14) 4 v s = .next { s with arg0 := v, hostPos := s.hostPos + 1 } ∧
    hostWrite (s.cfg.hbbBase + 0x18) 4 v s = .next { s with arg1 := v, hostPos := s.hostPos + 1 } ∧
    hostWrite (s.cfg.hbbBase + 0x24) 4 v s = .next
      { s with errSticky := if v.getLsbD 9 then false else s.errSticky,
               overrun := if v.getLsbD 10 then false else s.overrun, hostPos := s.hostPos + 1 } ∧
    ∀ off ∈ [0x00, 0x04, 0x08, 0x0C, 0x1C, 0x20, 0x28, 0x2C, 0x30, 0x34, 0x38, 0x3C],
      hostWrite (s.cfg.hbbBase + off) 4 v s = .next { s with hostPos := s.hostPos + 1 }

/-- 20 R64 to R66, R71, 10 R30 to R35: what a read of each register returns; a read changes nothing but the value returned to
the host, the host's position, and the count of drawn values (only for RES0, RES1 and STATUS while BUSY = 1, whose drawn part
is not stated). -/
def Obligations.ReadsReturnTheRegisters : Prop :=
  ∀ s : State, s.inReset = false →
    (∀ x ∈ [(0x00, 0x48420001#32), (0x04, s.cfg.config0), (0x08, BitVec.ofNat 32 s.cfg.maxUnits),
        (0x0C, BitVec.ofNat 32 s.cfg.maxEntries), (0x10, s.cmd), (0x14, s.arg0), (0x18, s.arg1), (0x28, 0#32),
        (0x2C, 0#32), (0x30, 0#32), (0x34, 0#32), (0x38, 0#32), (0x3C, 0#32)],
      hostRead (s.cfg.hbbBase + x.1) 4 s = .next { s with rdata := x.2, hostPos := s.hostPos + 1 }) ∧
    (s.busy = false → ∀ x ∈ [(0x1C, s.res0), (0x20, s.res1), (0x24, s.statusWord)],
      hostRead (s.cfg.hbbBase + x.1) 4 s = .next { s with rdata := x.2, hostPos := s.hostPos + 1 }) ∧
    (s.busy = true → ∀ off ∈ [0x1C, 0x20, 0x24], ∃ v,
      hostRead (s.cfg.hbbBase + off) 4 s =
        .next { s with rdata := v, hostPos := s.hostPos + 1, draws := s.draws + 1 } ∧
      (off = 0x24 → v.extractLsb' 4 28 = s.statusWord.extractLsb' 4 28))

/-- 10 R23, 60 R250: the error codes 0 to 11, and STATUS bit by bit: ERR in [3:0] as its code, BUSY, ERR_STICKY and OVERRUN
in bits 8, 9 and 10, and 0 in the reserved bits. -/
def Obligations.StatusLayout : Prop :=
  [ErrCode.ok, .underflow, .empty, .range, .capacity, .malformed, .notBuilt, .built, .iterStale, .illegal, .notFound,
    .sequence].map (fun e => e.code.toNat) = List.range 12 ∧
  ∀ s : State, s.statusWord.extractLsb' 0 4 = s.err.code ∧ s.err.code.toNat ≤ 11 ∧
    s.statusWord.getLsbD 8 = s.busy ∧ s.statusWord.getLsbD 9 = s.errSticky ∧ s.statusWord.getLsbD 10 = s.overrun ∧
    s.statusWord.extractLsb' 4 4 = 0 ∧ s.statusWord.extractLsb' 11 21 = 0

/-- 10 R33: CONFIG0 field by field, for legal parameters. -/
def Obligations.ConfigZeroReportsTheParameters : Prop :=
  ∀ p : Params, p.Legal →
    (p.config0.extractLsb' 0 2).toNat = p.nbuf - 1 ∧
    p.config0.getLsbD 2 = decide (p.wordBytes = .eight) ∧ p.config0.getLsbD 3 = decide (p.bitOrder = .msbFirst) ∧
    p.config0.getLsbD 4 = decide (p.merge = .sourceLiteral) ∧ p.config0.getLsbD 5 = decide (p.dup = .first) ∧
    p.config0.extractLsb' 6 2 = 0 ∧ (p.config0.extractLsb' 8 4).toNat = p.symBits - 1 ∧
    (p.config0.extractLsb' 12 5).toNat = p.weightBits - 1 ∧ p.config0.extractLsb' 17 15 = 0

/-- 20 R65, 70 R280: an access that is not 32 bits wide, not at a multiple of 4, or outside the 64 bytes of the port has no
step, and no access has one while reset is asserted. The names of the two stops are the model's (log 7, 8). -/
def Obligations.UnadmittedAccessesStop : Prop :=
  ∀ (s : State) (addr width : Nat) (v : Word),
    (s.inReset = false →
      width ≠ 4 ∨ addr < s.cfg.hbbBase ∨ s.cfg.hbbBase + 0x40 ≤ addr ∨ (addr - s.cfg.hbbBase) % 4 ≠ 0 →
      hostRead addr width s = .refused .accessNotAdmitted ∧ hostWrite addr width v s = .refused .accessNotAdmitted) ∧
    (s.inReset = true →
      hostRead addr width s = .fault .resetAsserted ∧ hostWrite addr width v s = .fault .resetAsserted)

/-- 10 R26, R27: in one step, ERR_STICKY is cleared only by a STATUS write with bit 9 = 1 or by the reset input, and OVERRUN
is set only by a CMD write while BUSY = 1 and cleared only by a STATUS write with bit 10 = 1 or by the reset input. -/
def Obligations.StickyBitsChangeOnlyAsStated : Prop :=
  ∀ (s t : State), step s = .next t →
    (s.errSticky = true → t.errSticky = false →
      s.inputs.head? = some .resetAssert ∨ s.inputs.head? = some .resetRelease ∨
        ∃ v, s.inputs.head? = some (.write (s.cfg.hbbBase + 0x24) 4 v) ∧ v.getLsbD 9 = true) ∧
    (s.overrun = false → t.overrun = true →
      s.busy = true ∧ ∃ v, s.inputs.head? = some (.write (s.cfg.hbbBase + 0x10) 4 v)) ∧
    (s.overrun = true → t.overrun = false →
      s.inputs.head? = some .resetAssert ∨ s.inputs.head? = some .resetRelease ∨
        ∃ v, s.inputs.head? = some (.write (s.cfg.hbbBase + 0x24) 4 v) ∧ v.getLsbD 10 = true)

/-! ### Reset and invariants (10_state.md R55, 70_reset_and_hazards.md R280 to R283) -/

/-- 10 R55: what reset leaves, for every setting of the parameters; the engine's latches are not observable there and not
stated. -/
def Obligations.ResetLeavesTheStatedValues : Prop :=
  ∀ p : Params, ∀ s, State.resetWith p = s →
    (s.arg0 = 0 ∧ s.arg1 = 0 ∧ s.res0 = 0 ∧ s.res1 = 0 ∧ s.cmd = 0 ∧ s.statusWord = 0) ∧
    (s.readReg .id = 0x48420001 ∧ s.readReg .config0 = p.config0 ∧ s.readReg .config1 = BitVec.ofNat 32 p.maxUnits ∧
      s.readReg .config2 = BitVec.ofNat 32 p.maxEntries) ∧
    (∀ b, s.buf b = ⟨0, [0x00], ⟨.idle, 0⟩, ⟨.idle, 0⟩, ⟨false, [], false⟩⟩) ∧
    s.ht = ⟨.loading, [], 0, []⟩

/-- 70 R280 to R282: whatever the block was doing, asserting and releasing reset takes two steps and leaves the reset values
with the parameters unchanged; the engine's latches are not observable there (10 R51, R55) and not stated. The host's list,
position and last read value are not the block's, nor is the count of draws (the model's own fields, log 4, 6, 8 and 17). -/
def Obligations.ResetInputRestoresTheResetState : Prop :=
  ∀ (s : State) (rest : List Input), s.inputs = .resetAssert :: .resetRelease :: rest →
    ∃ t, Sys2Proof.core.run 2 s = .next t ∧
      t = { State.resetWith s.cfg with
        latCmd := t.latCmd, latA0 := t.latA0, latA1 := t.latA1,
        inputs := rest, hostPos := s.hostPos, rdata := s.rdata, draws := s.draws }

/-- 10 R42, R43, 40 R114, 70 R283: the reset state of every legal instance is valid: I1 and I2 hold of every buffer. -/
def Obligations.ResetIsValid : Prop :=
  ∀ p : Params, p.Legal → (State.resetWith p).Valid

/-- 40 R114, 10 R40 to R48, 42 R192: whatever input acts, a step keeps the invariant (I1 and I2 of every buffer, all ranges,
the tree as built, CMD readback of the running command) and the parameters. -/
def Obligations.StepKeepsTheStateValid : Prop :=
  ∀ s t : State, s.Valid → step s = .next t → t.Valid ∧ t.cfg = s.cfg
end

