-- ==== Sys2Proof/Laws/Build.lean ====
section
/-! SUPPORT. The parts of the build algorithm: sorting, the scan, one merge, and what each leaves of the nodes. -/

namespace Sys2Proof.Machine

/-! ### The sort order (42_huffman.md R183) -/

theorem le_iff (e f : Entry) : e.le f = true ↔ e.Before f ∨ e = f := by
  rcases e with ⟨s, w⟩
  rcases f with ⟨s', w'⟩
  simp only [Entry.le, Entry.Before, Bool.or_eq_true, decide_eq_true_eq, Bool.and_eq_true, beq_iff_eq, Entry.mk.injEq]
  omega

theorem before_trans {e f g : Entry} (h : e.Before f) (h' : f.Before g) : e.Before g := by
  unfold Entry.Before at *; omega

theorem before_irrefl (e : Entry) : ¬ e.Before e := by
  unfold Entry.Before; omega

theorem le_trans_before {e f g : Entry} (h : e.le f = true) (h' : f.Before g) : e.Before g := by
  rcases (le_iff e f).mp h with h | rfl
  · exact before_trans h h'
  · exact h'

theorem le_of_not_le {e f : Entry} (h : ¬ e.le f = true) : f.Before e := by
  have := mt (le_iff e f).mpr h
  rcases e with ⟨s, w⟩
  rcases f with ⟨s', w'⟩
  simp only [Entry.Before, Entry.mk.injEq] at *
  omega

theorem insertEntry_mem (e : Entry) (l : List Entry) (x : Entry) : x ∈ insertEntry e l ↔ x = e ∨ x ∈ l := by
  induction l with
  | nil => simp [insertEntry]
  | cons f fs ih =>
    simp only [insertEntry]
    split
    · simp
    · simp only [List.mem_cons, ih]; tauto

theorem insertEntry_sorted (e : Entry) {l : List Entry} (h : l.Pairwise fun x y => x.le y = true) :
    (insertEntry e l).Pairwise fun x y => x.le y = true := by
  induction l with
  | nil => simp [insertEntry]
  | cons f fs ih =>
    obtain ⟨hf, hfs⟩ := List.pairwise_cons.mp h
    simp only [insertEntry]
    split
    · next hle =>
      refine List.pairwise_cons.mpr ⟨fun x hx => ?_, h⟩
      rcases List.mem_cons.mp hx with rfl | hx
      · exact hle
      · rcases (le_iff f x).mp (hf x hx) with hb | rfl
        · exact (le_iff e x).mpr (.inl (le_trans_before hle hb))
        · exact hle
    · next hle =>
      refine List.pairwise_cons.mpr ⟨fun x hx => ?_, ih hfs⟩
      rcases (insertEntry_mem e fs x).mp hx with rfl | hx
      · exact (le_iff f x).mpr (.inl (le_of_not_le hle))
      · exact hf x hx

/-- `sorted` has the entries of raw, ... -/
theorem sortEntries_mem (raw : List Entry) (x : Entry) : x ∈ sortEntries raw ↔ x ∈ raw := by
  induction raw with
  | nil => rfl
  | cons e l ih =>
    rw [show sortEntries (e :: l) = insertEntry e (sortEntries l) from rfl, insertEntry_mem, ih, List.mem_cons]

/-- ... in ascending order of the key. -/
theorem sortEntries_sorted (raw : List Entry) : (sortEntries raw).Pairwise fun x y => x.le y = true := by
  induction raw with
  | nil => exact List.Pairwise.nil
  | cons e l ih => exact insertEntry_sorted e ih

theorem insertEntry_length (e : Entry) (l : List Entry) : (insertEntry e l).length = l.length + 1 := by
  induction l with
  | nil => rfl
  | cons f fs ih => simp only [insertEntry]; split <;> simp [ih]

theorem sortEntries_length (raw : List Entry) : (sortEntries raw).length = raw.length := by
  induction raw with
  | nil => rfl
  | cons e l ih => simpa [sortEntries, insertEntry_length] using ih

theorem keepNew_mem (out : List Entry) (e x : Entry) : x ∈ keepNew out e ↔ x ∈ out ∨ x = e := by
  unfold keepNew
  split
  · next h =>
    have := List.mem_of_getLast? h
    constructor
    · exact .inl
    · rintro (h | rfl)
      · exact h
      · exact this
  · simp

theorem keepNew_length (out : List Entry) (e : Entry) : (keepNew out e).length ≤ out.length + 1 := by
  unfold keepNew
  split <;> simp

theorem foldl_keepNew_length (l out : List Entry) : (l.foldl keepNew out).length ≤ out.length + l.length := by
  induction l generalizing out with
  | nil => simp
  | cons e l ih =>
    have := ih (keepNew out e)
    have := keepNew_length out e
    simp only [List.foldl_cons, List.length_cons]; omega

/-- Normalisation adds no entry, so n is at most the number of raw entries. -/
theorem normalize_length (raw : List Entry) : (normalize raw).length ≤ raw.length := by
  have := foldl_keepNew_length (sortEntries raw) []
  rw [sortEntries_length] at this
  simpa [normalize] using this

theorem foldl_keepNew_mem (l out : List Entry) (x : Entry) : x ∈ l.foldl keepNew out ↔ x ∈ out ∨ x ∈ l := by
  induction l generalizing out with
  | nil => simp
  | cons e l ih => rw [List.foldl_cons, ih, keepNew_mem, List.mem_cons, or_assoc]

theorem normalize_mem (raw : List Entry) (x : Entry) : x ∈ normalize raw ↔ x ∈ raw := by
  rw [normalize, foldl_keepNew_mem, sortEntries_mem]; simp

/-! ### Nodes by index -/

theorem nodeAt_of_getElem? {T : List Node} {j : Nat} {x : Node} (h : T[j]? = some x) : nodeAt T j = x := by
  simp [nodeAt, List.getD, h]

theorem nodeAt_of_ge {T : List Node} {j : Nat} (h : T.length ≤ j) : nodeAt T j = blankNode := by
  simp [nodeAt, List.getD, List.getElem?_eq_none h]

theorem getElem?_eq_nodeAt {T : List Node} {j : Nat} (h : j < T.length) : T[j]? = some (nodeAt T j) := by
  simp [nodeAt, List.getD, List.getElem?_eq_getElem h]

theorem nodeAt_modify (T : List Node) (i j : Nat) (f : Node → Node) :
    nodeAt (T.modify i f) j = if i = j ∧ j < T.length then f (nodeAt T j) else nodeAt T j := by
  unfold nodeAt
  rw [List.getD, List.getD, List.getElem?_modify]
  by_cases hj : j < T.length
  · by_cases hij : i = j <;> simp [hj, hij]
  · rw [List.getElem?_eq_none (by omega)]; simp [hj]

@[simp] theorem seed_length (out : List Entry) : (seed out).length = out.length + (out.length - 1) := by
  simp [seed]

/-- Seeding: the leaves first, in sorted order, ... (42_huffman.md R185) -/
theorem nodeAt_seed_leaf {out : List Entry} {j : Nat} {e : Entry} (h : out[j]? = some e) :
    nodeAt (seed out) j = leafNode e := by
  have hj : j < out.length := (List.getElem?_eq_some_iff.mp h).1
  apply nodeAt_of_getElem?
  rw [seed, List.getElem?_append_left (by simpa using hj), List.getElem?_map, h]; rfl

/-- ... and then blank internal nodes. -/
theorem nodeAt_seed_blank {out : List Entry} {j : Nat} (h : out.length ≤ j) : nodeAt (seed out) j = blankNode := by
  by_cases hj : j < out.length + (out.length - 1)
  · apply nodeAt_of_getElem?
    rw [seed, List.getElem?_append_right (by simpa using h), List.getElem?_replicate, if_pos (by simp; omega)]
  · exact nodeAt_of_ge (by simp; omega)

/-! ### The scan (42_huffman.md R187) -/

/-- The two minima `m` of the candidates below `k`: none while there is none, else the least and the least of the others. -/
structure Scanned (pol : MergePolicy) (T : List Node) (k : Nat) (m : Option Nat × Option Nat) : Prop where
  none1 : m.1 = none → (∀ j < k, candidate pol T j = false) ∧ m.2 = none
  some1 : ∀ a, m.1 = some a → a < k ∧ candidate pol T a = true ∧
    ∀ j < k, candidate pol T j = true → j ≠ a → NodeBefore T a j
  none2 : ∀ a, m.1 = some a → m.2 = none → ∀ j < k, candidate pol T j = true → j = a
  some2 : ∀ a b, m.1 = some a → m.2 = some b → b < k ∧ b ≠ a ∧ candidate pol T b = true ∧
    ∀ j < k, candidate pol T j = true → j ≠ a → j ≠ b → NodeBefore T b j

theorem scanStep_scanned {pol : MergePolicy} {T : List Node} {k : Nat} {m : Option Nat × Option Nat}
    (h : Scanned pol T k m) : Scanned pol T (k + 1) (scanStep pol T m k) := by
  obtain ⟨m1, m2⟩ := m
  unfold scanStep
  split
  · next hc =>
    have hc : candidate pol T k = false := by simpa using hc
    have hk : ∀ j < k + 1, candidate pol T j = true → j < k := fun j hj hcj => by
      rcases Nat.lt_succ_iff_lt_or_eq.mp hj with h | rfl
      · exact h
      · simp [hc] at hcj
    refine ⟨fun h1 => ⟨fun j hj => ?_, (h.none1 h1).2⟩, fun a ha => ?_, fun a ha hn j hj hcj => ?_, fun a b ha hb => ?_⟩
    · by_cases hj' : j < k
      · exact (h.none1 h1).1 j hj'
      · rwa [show j = k by omega]
    · obtain ⟨h1, h2, h3⟩ := h.some1 a ha
      exact ⟨by omega, h2, fun j hj hcj hne => h3 j (hk j hj hcj) hcj hne⟩
    · exact h.none2 a ha hn j (hk j hj hcj) hcj
    · obtain ⟨h1, h2, h3, h4⟩ := h.some2 a b ha hb
      exact ⟨by omega, h2, h3, fun j hj hcj hna hnb => h4 j (hk j hj hcj) hcj hna hnb⟩
  · next hc =>
    have hc : candidate pol T k = true := by simpa using hc
    split
    · next hl =>
      -- k is the new least; the old least becomes the second
      refine ⟨fun h1 => by simp at h1, fun a ha => ?_, fun a ha hn j hj hcj => ?_, fun a b ha hb => ?_⟩
      · obtain rfl : k = a := by simpa using ha
        refine ⟨by omega, hc, fun j hj hcj hne => ?_⟩
        have hj' : j < k := by omega
        cases m1 with
        | none => simp [(h.none1 rfl).1 j hj'] at hcj
        | some c =>
          obtain ⟨h1, h2, h3⟩ := h.some1 c rfl
          have hlt : (nodeAt T k).weight < (nodeAt T c).weight := by simpa [lighter] using hl
          by_cases hjc : j = c
          · subst hjc; exact .inl hlt
          · have := h3 j hj' hcj hjc
            unfold NodeBefore at *; omega
      · obtain rfl : k = a := by simpa using ha
        simp only at hn
        subst hn
        by_cases hj' : j < k
        · simp [(h.none1 rfl).1 j hj'] at hcj
        · omega
      · obtain rfl : k = a := by simpa using ha
        simp only at hb
        subst hb
        obtain ⟨h1, h2, h3⟩ := h.some1 b rfl
        exact ⟨by omega, by omega, h2, fun j hj hcj hne hnb => h3 j (by omega) hcj hnb⟩
    · next hl =>
      have hm1 : ∃ c, m1 = some c := by
        cases m1 with
        | none => simp [lighter] at hl
        | some c => exact ⟨c, rfl⟩
      obtain ⟨c, rfl⟩ := hm1
      obtain ⟨h1, h2, h3⟩ := h.some1 c rfl
      have hge : (nodeAt T c).weight ≤ (nodeAt T k).weight := by simpa [lighter] using hl
      have hleast : ∀ j < k + 1, candidate pol T j = true → j ≠ c → NodeBefore T c j := fun j hj hcj hne => by
        by_cases hj' : j < k
        · exact h3 j hj' hcj hne
        · obtain rfl : j = k := by omega
          unfold NodeBefore; omega
      split
      · next hl2 =>
        -- k is the new second
        refine ⟨fun h1 => by simp at h1, fun a ha => ?_, fun a ha hn => by simp at hn, fun a b ha hb => ?_⟩
        · obtain rfl : c = a := by simpa using ha
          exact ⟨by omega, h2, hleast⟩
        · obtain rfl : c = a := by simpa using ha
          obtain rfl : k = b := by simpa using hb
          refine ⟨by omega, by omega, hc, fun j hj hcj hna hnb => ?_⟩
          have hj' : j < k := by omega
          cases m2 with
          | none => exact absurd (h.none2 c rfl rfl j hj' hcj) hna
          | some d =>
            obtain ⟨g1, g2, g3, g4⟩ := h.some2 c d rfl rfl
            have hlt : (nodeAt T k).weight < (nodeAt T d).weight := by simpa [lighter] using hl2
            by_cases hjd : j = d
            · subst hjd; exact .inl hlt
            · have := g4 j hj' hcj hna hjd
              unfold NodeBefore at *; omega
      · next hl2 =>
        have hm2 : ∃ d, m2 = some d := by
          cases m2 with
          | none => simp [lighter] at hl2
          | some d => exact ⟨d, rfl⟩
        obtain ⟨d, rfl⟩ := hm2
        obtain ⟨g1, g2, g3, g4⟩ := h.some2 c d rfl rfl
        have hge2 : (nodeAt T d).weight ≤ (nodeAt T k).weight := by simpa [lighter] using hl2
        refine ⟨fun h1 => by simp at h1, fun a ha => ?_, fun a ha hn => by simp at hn, fun a b ha hb => ?_⟩
        · obtain rfl : c = a := by simpa using ha
          exact ⟨by omega, h2, hleast⟩
        · obtain rfl : c = a := by simpa using ha
          obtain rfl : d = b := by simpa using hb
          refine ⟨by omega, g2, g3, fun j hj hcj hna hnb => ?_⟩
          by_cases hj' : j < k
          · exact g4 j hj' hcj hna hnb
          · obtain rfl : j = k := by omega
            unfold NodeBefore; omega

/-- Everything Select2 can answer. -/
theorem select2_scanned (pol : MergePolicy) (T : List Node) (i : Nat) : Scanned pol T i (select2 pol T i) := by
  unfold select2
  induction i with
  | zero => exact ⟨fun _ => ⟨fun j hj => by omega, rfl⟩, fun a ha => by simp at ha, fun a ha => by simp at ha,
      fun a b ha => by simp at ha⟩
  | succ i ih => rw [List.range_succ, List.foldl_append]; exact scanStep_scanned ih

/-! ### One merge (42_huffman.md R188) -/

/-- Linking changes the new node's weight and children, and the two selected nodes' parent. -/
theorem nodeAt_link {T : List Node} {i s1 s2 : Nat} (hi : i < T.length) (h1 : s1 < i) (h2 : s2 < i) (hne : s1 ≠ s2) (j : Nat) :
    nodeAt (link T i s1 s2) j =
      if j = i then { nodeAt T i with
        weight := (nodeAt T s1).weight + (nodeAt T s2).weight, left := some s1, right := some s2 }
      else if j = s1 ∨ j = s2 then { nodeAt T j with parent := some i }
      else nodeAt T j := by
  simp only [link, nodeAt_modify, List.length_modify]
  by_cases ha : j = i
  · subst ha; simp [hi, show s1 ≠ j by omega, show s2 ≠ j by omega]
  · by_cases hb : j = s1
    · subst hb; simp [ha, Ne.symm ha, Ne.symm hne, show j < T.length by omega]
    · by_cases hc : j = s2
      · subst hc; simp [ha, Ne.symm ha, hne, show j < T.length by omega]
      · simp [ha, hb, hc, Ne.symm ha, Ne.symm hb, Ne.symm hc]

@[simp] theorem link_length (T : List Node) (i s1 s2 : Nat) : (link T i s1 s2).length = T.length := by simp [link]

@[simp] theorem mergeStep_length (pol : MergePolicy) (T : List Node) (i : Nat) : (mergeStep pol T i).length = T.length := by
  unfold mergeStep
  split
  · simp
  · rfl

theorem foldl_mergeStep_length (pol : MergePolicy) (l : List Nat) (T : List Node) :
    (l.foldl (mergeStep pol) T).length = T.length := by
  induction l generalizing T with
  | nil => rfl
  | cons i l ih => rw [List.foldl_cons, ih, mergeStep_length]

@[simp] theorem mergeLoop_length (pol : MergePolicy) (n : Nat) (T : List Node) : (mergeLoop pol n T).length = T.length :=
  foldl_mergeStep_length pol _ T

/-! ### Code generation (42_huffman.md R190) -/

@[simp] theorem visitChild_length (code : List Bool) (v : Bool) (c : Option Nat) (t : List Node × List Nat) :
    (visitChild code v c t).1.length = t.1.length := by
  unfold visitChild
  split <;> simp

@[simp] theorem bfs_length (fuel : Nat) (q : List Nat) (T : List Node) : (bfs fuel q T).length = T.length := by
  induction fuel generalizing q T with
  | zero => rfl
  | succ f ih =>
    cases q with
    | nil => rfl
    | cons x q => simp only [bfs]; rw [ih]; simp

@[simp] theorem codeGen_length (n : Nat) (T : List Node) : (codeGen n T).length = T.length := by
  unfold codeGen
  split
  · rfl
  · simp

/-- The number of nodes is max(0, 2n - 1) (42_huffman.md R184). -/
theorem buildTree_length (pol : MergePolicy) (out : List Entry) : (buildTree pol out).length = 2 * out.length - 1 := by
  simp [buildTree]; omega

/-- Two nodes that agree in all but their code. -/
structure SameButCode (x y : Node) : Prop where
  symbol : y.symbol = x.symbol
  weight : y.weight = x.weight
  parent : y.parent = x.parent
  left   : y.left = x.left
  right  : y.right = x.right

theorem sameButCode_refl (x : Node) : SameButCode x x := ⟨rfl, rfl, rfl, rfl, rfl⟩

theorem sameButCode_trans {x y z : Node} (h : SameButCode x y) (h' : SameButCode y z) : SameButCode x z :=
  ⟨h'.symbol.trans h.symbol, h'.weight.trans h.weight, h'.parent.trans h.parent, h'.left.trans h.left,
    h'.right.trans h.right⟩

theorem modify_code_same (T : List Node) (i : Nat) (c : List Bool) (j : Nat) :
    SameButCode (nodeAt T j) (nodeAt (T.modify i fun x => { x with code := c }) j) := by
  rw [nodeAt_modify]
  split <;> exact ⟨rfl, rfl, rfl, rfl, rfl⟩

theorem visitChild_same (code : List Bool) (v : Bool) (c : Option Nat) (t : List Node × List Nat) (j : Nat) :
    SameButCode (nodeAt t.1 j) (nodeAt (visitChild code v c t).1 j) := by
  unfold visitChild
  split
  · exact sameButCode_refl _
  · exact modify_code_same _ _ _ _

theorem bfs_same (fuel : Nat) (q : List Nat) (T : List Node) (j : Nat) :
    SameButCode (nodeAt T j) (nodeAt (bfs fuel q T) j) := by
  induction fuel generalizing q T with
  | zero => exact sameButCode_refl _
  | succ f ih =>
    cases q with
    | nil => exact sameButCode_refl _
    | cons x q =>
      simp only [bfs]
      refine sameButCode_trans ?_ (ih _ _)
      exact sameButCode_trans (visitChild_same (nodeAt T x).code false _ (T, q) j) (visitChild_same _ _ _ _ j)

/-- Code generation writes codes only. -/
theorem codeGen_same (n : Nat) (T : List Node) (j : Nat) : SameButCode (nodeAt T j) (nodeAt (codeGen n T) j) := by
  unfold codeGen
  split
  · exact sameButCode_refl _
  · exact sameButCode_trans (modify_code_same _ _ _ _) (bfs_same _ _ _ _)

end Sys2Proof.Machine
end

