-- ==== Sys2Proof/Laws/Merge.lean ====
section
/-! SUPPORT. What the merge loop leaves after each step, under each MERGE_POLICY (42_huffman.md R186 to R189, R194, R195). -/

namespace Sys2Proof.Machine

/-- The sum of the leaf weights. -/
def leafTotal (out : List Entry) : Nat := (out.map (·.weight)).sum

/-- Node `j` is one of the two children of internal node `i`. -/
def IsChild (T : List Node) (i j : Nat) : Prop := (nodeAt T i).left = some j ∨ (nodeAt T i).right = some j

/-- The nodes built so far, `m` of them, are a forest over the leaves: what each merge of EXCLUDE_PARENTED keeps. -/
structure Forest (out : List Entry) (m : Nat) (T : List Node) : Prop where
  length : T.length = 2 * out.length - 1
  leaf : ∀ j e, out[j]? = some e → (nodeAt T j).symbol = some e.symbol ∧ (nodeAt T j).weight = e.weight ∧
    (nodeAt T j).left = none ∧ (nodeAt T j).right = none
  inner : ∀ i, out.length ≤ i → i < m → (nodeAt T i).symbol = none ∧
    ∃ l r, (nodeAt T i).left = some l ∧ (nodeAt T i).right = some r ∧ l < i ∧ r < i ∧ l ≠ r ∧
      (nodeAt T l).parent = some i ∧ (nodeAt T r).parent = some i ∧
      (nodeAt T i).weight = (nodeAt T l).weight + (nodeAt T r).weight
  blank : ∀ i, m ≤ i → nodeAt T i = blankNode
  parent : ∀ j p, (nodeAt T j).parent = some p → out.length ≤ p ∧ p < m ∧ j < p ∧ IsChild T p j
  code : ∀ j, (nodeAt T j).code = []

/-- The nodes below `m` that have no parent yet. -/
def roots (T : List Node) (m : Nat) : List Nat := (List.range m).filter fun j => (nodeAt T j).parent.isNone

/-- How many roots there are, and the sum of their weights. -/
structure Balance (out : List Entry) (m : Nat) (T : List Node) : Prop where
  count : (roots T m).length + m = 2 * out.length
  total : ((roots T m).map fun j => (nodeAt T j).weight).sum = leafTotal out
  le : ∀ j, (nodeAt T j).weight ≤ leafTotal out

/-- Each merge took the two least: node `i`'s left child comes before its right one, and both before every other node that
had no parent when `i` was built (42_huffman.md R187, R194). -/
def Greedy (out : List Entry) (m : Nat) (T : List Node) : Prop :=
  ∀ i, out.length ≤ i → i < m → ∀ l r, (nodeAt T i).left = some l → (nodeAt T i).right = some r →
    NodeBefore T l r ∧
      ∀ j < i, j ≠ l → j ≠ r → (∀ p, (nodeAt T j).parent = some p → i ≤ p) → NodeBefore T l j ∧ NodeBefore T r j

theorem seed_forest (out : List Entry) : Forest out out.length (seed out) where
  length := by simp; omega
  leaf j e h := by simp [nodeAt_seed_leaf h, leafNode]
  inner i h h' := by omega
  blank i h := nodeAt_seed_blank h
  parent j p h := by
    by_cases hj : j < out.length
    · simp [nodeAt_seed_leaf (List.getElem?_eq_getElem hj), leafNode] at h
    · simp [nodeAt_seed_blank (show out.length ≤ j by omega), blankNode] at h
  code j := by
    by_cases hj : j < out.length
    · simp [nodeAt_seed_leaf (List.getElem?_eq_getElem hj), leafNode]
    · simp [nodeAt_seed_blank (show out.length ≤ j by omega), blankNode]

theorem le_leafTotal {out : List Entry} {j : Nat} {e : Entry} (h : out[j]? = some e) : e.weight ≤ leafTotal out :=
  List.le_sum_of_mem (List.mem_map.mpr ⟨e, List.mem_of_getElem? h, rfl⟩)

theorem seed_weights (out : List Entry) :
    (List.range out.length).map (fun j => (nodeAt (seed out) j).weight) = out.map (·.weight) := by
  apply List.ext_getElem?
  intro j
  by_cases hj : j < out.length
  · simp [hj, nodeAt_seed_leaf (List.getElem?_eq_getElem hj), leafNode]
  · simp [hj]

theorem seed_balance (out : List Entry) : Balance out out.length (seed out) := by
  have hr : roots (seed out) out.length = List.range out.length := by
    refine List.filter_eq_self.mpr fun j hj => ?_
    simp [nodeAt_seed_leaf (List.getElem?_eq_getElem (List.mem_range.mp hj)), leafNode]
  refine ⟨by rw [hr, List.length_range]; omega, by rw [hr, seed_weights, leafTotal], fun j => ?_⟩
  by_cases hj : j < out.length
  · rw [nodeAt_seed_leaf (List.getElem?_eq_getElem hj)]; exact le_leafTotal (List.getElem?_eq_getElem hj)
  · rw [nodeAt_seed_blank (by omega)]; exact Nat.zero_le _

theorem mem_roots {T : List Node} {m j : Nat} : j ∈ roots T m ↔ j < m ∧ (nodeAt T j).parent = none := by
  simp [roots]

/-- With two roots or more, the scan of the EXCLUDE_PARENTED policy selects the least root and the least of the others. -/
theorem select2_roots {T : List Node} {m : Nat} (h : 2 ≤ (roots T m).length) :
    ∃ a b, select2 .excludeParented T m = (some a, some b) ∧ a ∈ roots T m ∧ b ∈ roots T m ∧ a ≠ b ∧
      (∀ j ∈ roots T m, j ≠ a → NodeBefore T a j) ∧ ∀ j ∈ roots T m, j ≠ a → j ≠ b → NodeBefore T b j := by
  have hs := select2_scanned .excludeParented T m
  have hnd : (roots T m).Nodup := List.nodup_range.filter _
  have hc : ∀ j, j < m → (candidate .excludeParented T j = true ↔ j ∈ roots T m) := fun j hj => by
    simp [candidate, mem_roots, hj]
  obtain ⟨x, y, hx, hy, hxy⟩ : ∃ x y, x ∈ roots T m ∧ y ∈ roots T m ∧ x ≠ y := by
    generalize hl : roots T m = l at *
    match l, h, hnd with
    | x :: y :: l, _, hnd => exact ⟨x, y, by simp, by simp, fun he => by simp [he] at hnd⟩
  have hxm := (mem_roots.mp hx).1
  have hym := (mem_roots.mp hy).1
  generalize select2 .excludeParented T m = r at *
  obtain ⟨m1, m2⟩ := r
  cases m1 with
  | none => simpa [(hs.none1 rfl).1 x hxm] using (hc x hxm).mpr hx
  | some a =>
    obtain ⟨a1, a2, a3⟩ := hs.some1 a rfl
    cases m2 with
    | none =>
      have e1 := hs.none2 a rfl rfl x hxm ((hc x hxm).mpr hx)
      have e2 := hs.none2 a rfl rfl y hym ((hc y hym).mpr hy)
      exact absurd (e1.trans e2.symm) hxy
    | some b =>
      obtain ⟨b1, b2, b3, b4⟩ := hs.some2 a b rfl rfl
      have hlt := fun j (hj : j ∈ roots T m) => (mem_roots.mp hj).1
      exact ⟨a, b, rfl, (hc a a1).mp a2, (hc b b1).mp b3, Ne.symm b2, fun j hj => a3 j (hlt j hj) ((hc j (hlt j hj)).mpr hj),
        fun j hj => b4 j (hlt j hj) ((hc j (hlt j hj)).mpr hj)⟩

/-- Linking two roots under the next node keeps the forest. -/
theorem link_forest {out : List Entry} {m : Nat} {T : List Node} (h : Forest out m T) (hm : out.length ≤ m)
    (hlt : m < 2 * out.length - 1) {a b : Nat} (ha : a ∈ roots T m) (hb : b ∈ roots T m) (hne : a ≠ b) :
    Forest out (m + 1) (link T m a b) := by
  obtain ⟨ha1, ha2⟩ := mem_roots.mp ha
  obtain ⟨hb1, hb2⟩ := mem_roots.mp hb
  have hat := nodeAt_link (T := T) (i := m) (by rw [h.length]; exact hlt) ha1 hb1 hne
  have hblank := h.blank m (Nat.le_refl m)
  have hchild : ∀ j, j ≠ m → (nodeAt (link T m a b) j).left = (nodeAt T j).left ∧
      (nodeAt (link T m a b) j).right = (nodeAt T j).right ∧ (nodeAt (link T m a b) j).weight = (nodeAt T j).weight ∧
      (nodeAt (link T m a b) j).symbol = (nodeAt T j).symbol := by
    intro j hj
    rw [hat, if_neg hj]
    split <;> simp
  refine ⟨by rw [link_length, h.length], fun j e he => ?_, fun i hi hi' => ?_, fun i hi => ?_, fun j p hp => ?_, fun j => ?_⟩
  · have hj : j < out.length := (List.getElem?_eq_some_iff.mp he).1
    obtain ⟨c1, c2, c3, c4⟩ := hchild j (by omega)
    rw [c1, c2, c3, c4]
    exact h.leaf j e he
  · by_cases him : i = m
    · subst him
      have e1 := hat i
      rw [if_pos rfl, hblank] at e1
      have hpa : (nodeAt (link T i a b) a).parent = some i := by rw [hat, if_neg (by omega), if_pos (.inl rfl)]
      have hpb : (nodeAt (link T i a b) b).parent = some i := by rw [hat, if_neg (by omega), if_pos (.inr rfl)]
      refine ⟨by rw [e1]; rfl, a, b, by rw [e1], by rw [e1], ha1, hb1, hne, hpa, hpb, ?_⟩
      rw [(hchild a (by omega)).2.2.1, (hchild b (by omega)).2.2.1, e1]
    · obtain ⟨hs, l, r, hl, hr, hli, hri, hlr, hpl, hpr, hw⟩ := h.inner i hi (by omega)
      obtain ⟨c1, c2, c3, c4⟩ := hchild i him
      have hkeep : ∀ x, (nodeAt T x).parent = some i → x < i → (nodeAt (link T m a b) x).parent = some i := fun x hx hxi => by
        rw [hat, if_neg (by omega), if_neg, hx]
        rintro (rfl | rfl)
        · simp [ha2] at hx
        · simp [hb2] at hx
      refine ⟨by rw [c4, hs], l, r, by rw [c1, hl], by rw [c2, hr], hli, hri, hlr, hkeep l hpl hli, hkeep r hpr hri, ?_⟩
      rw [c3, (hchild l (by omega)).2.2.1, (hchild r (by omega)).2.2.1, hw]
  · rw [hat, if_neg (by omega), if_neg (by omega), h.blank i (by omega)]
  · rw [hat] at hp
    by_cases hjm : j = m
    · subst hjm; rw [if_pos rfl, hblank] at hp; simp [blankNode] at hp
    · rw [if_neg hjm] at hp
      split at hp
      · next hab =>
        obtain rfl : m = p := by simpa using hp
        refine ⟨hm, by omega, by omega, ?_⟩
        unfold IsChild
        rw [hat m, if_pos rfl]
        rcases hab with rfl | rfl
        · exact .inl rfl
        · exact .inr rfl
      · obtain ⟨p1, p2, p3, p4⟩ := h.parent j p hp
        obtain ⟨c1, c2, -, -⟩ := hchild p (by omega)
        exact ⟨p1, by omega, p3, by unfold IsChild; rw [c1, c2]; exact p4⟩
  · rw [hat]
    split
    · exact h.code m
    · split <;> exact h.code j

theorem sum_filter_two {l : List Nat} {f : Nat → Nat} {a b : Nat} (hnd : l.Nodup) (ha : a ∈ l) (hb : b ∈ l) (hne : a ≠ b) :
    ((l.filter fun j => decide (j ≠ a ∧ j ≠ b)).map f).sum + f a + f b = (l.map f).sum ∧
      (l.filter fun j => decide (j ≠ a ∧ j ≠ b)).length + 2 = l.length := by
  have hp : l.Perm (a :: b :: (l.filter fun j => decide (j ≠ a ∧ j ≠ b))) := by
    rw [List.perm_ext_iff_of_nodup hnd]
    · intro x
      simp only [List.mem_cons, List.mem_filter, decide_eq_true_eq]
      constructor
      · intro hx; by_cases h1 : x = a
        · exact .inl h1
        · by_cases h2 : x = b
          · exact .inr (.inl h2)
          · exact .inr (.inr ⟨hx, h1, h2⟩)
      · rintro (rfl | rfl | h)
        · exact ha
        · exact hb
        · exact h.1
    · simp [hne, hnd.filter]
  refine ⟨?_, ?_⟩
  · have := (hp.map f).sum_eq
    simp only [List.map_cons, List.sum_cons] at this
    omega
  · have := hp.length_eq
    simp only [List.length_cons] at this
    omega

/-- Linking two roots trades them for one, of their weight. -/
theorem link_balance {out : List Entry} {m : Nat} {T : List Node} (h : Forest out m T) (hbal : Balance out m T)
    (hlt : m < 2 * out.length - 1) {a b : Nat} (ha : a ∈ roots T m) (hb : b ∈ roots T m) (hne : a ≠ b) :
    Balance out (m + 1) (link T m a b) := by
  obtain ⟨ha1, ha2⟩ := mem_roots.mp ha
  obtain ⟨hb1, hb2⟩ := mem_roots.mp hb
  have hat := nodeAt_link (T := T) (i := m) (by rw [h.length]; exact hlt) ha1 hb1 hne
  have hblank := h.blank m (Nat.le_refl m)
  have hr : roots (link T m a b) (m + 1) = (roots T m).filter (fun j => decide (j ≠ a ∧ j ≠ b)) ++ [m] := by
    unfold roots
    rw [List.range_succ, List.filter_append, List.filter_filter]
    congr 1
    · refine List.filter_congr fun j hj => ?_
      have hj := List.mem_range.mp hj
      rw [hat, if_neg (by omega)]
      by_cases hja : j = a
      · simp [hja]
      · by_cases hjb : j = b
        · simp [hjb]
        · simp [hja, hjb]
    · rw [List.filter_cons, hat, if_pos rfl, hblank]; rfl
  obtain ⟨hs, hl⟩ := sum_filter_two (l := roots T m) (f := fun j => (nodeAt T j).weight) (List.nodup_range.filter _) ha hb hne
  have hw : ((roots T m).filter (fun j => decide (j ≠ a ∧ j ≠ b))).map (fun j => (nodeAt (link T m a b) j).weight) =
      ((roots T m).filter (fun j => decide (j ≠ a ∧ j ≠ b))).map (fun j => (nodeAt T j).weight) := by
    refine List.map_congr_left fun j hj => ?_
    have := (mem_roots.mp (List.mem_filter.mp hj).1).1
    rw [hat, if_neg (by omega)]
    split <;> rfl
  have hwm : (nodeAt (link T m a b) m).weight = (nodeAt T a).weight + (nodeAt T b).weight := by rw [hat, if_pos rfl]
  have htot := hbal.total
  refine ⟨?_, ?_, fun j => ?_⟩
  · have := hbal.count
    rw [hr, List.length_append, List.length_singleton]; omega
  · rw [hr, List.map_append, List.sum_append, hw]
    simp only [List.map_cons, List.map_nil, List.sum_cons, List.sum_nil, hwm]
    omega
  · rw [hat]
    split
    · simp only; omega
    · split <;> exact hbal.le j

/-- Linking the least root and the least of the others keeps the merges greedy. -/
theorem link_greedy {out : List Entry} {m : Nat} {T : List Node} (h : Forest out m T) (hg : Greedy out m T)
    (hlt : m < 2 * out.length - 1) {a b : Nat} (ha : a ∈ roots T m) (hb : b ∈ roots T m) (hne : a ≠ b)
    (hleast : ∀ j ∈ roots T m, j ≠ a → NodeBefore T a j) (hnext : ∀ j ∈ roots T m, j ≠ a → j ≠ b → NodeBefore T b j) :
    Greedy out (m + 1) (link T m a b) := by
  obtain ⟨ha1, ha2⟩ := mem_roots.mp ha
  obtain ⟨hb1, hb2⟩ := mem_roots.mp hb
  have hat := nodeAt_link (T := T) (i := m) (by rw [h.length]; exact hlt) ha1 hb1 hne
  have hw : ∀ j, j ≠ m → (nodeAt (link T m a b) j).weight = (nodeAt T j).weight := fun j hj => by
    rw [hat, if_neg hj]; split <;> rfl
  have hb4 : ∀ x y, x < m → y < m → NodeBefore T x y → NodeBefore (link T m a b) x y := fun x y hx hy hxy => by
    unfold NodeBefore at *
    rwa [hw x (by omega), hw y (by omega)]
  intro i hi hi' l r hl hr
  by_cases him : i = m
  · subst him
    rw [hat, if_pos rfl] at hl hr
    obtain rfl : a = l := by simpa using hl
    obtain rfl : b = r := by simpa using hr
    refine ⟨hb4 a b ha1 hb1 (hleast b hb (Ne.symm hne)), fun j hj hja hjb hp => ?_⟩
    have hjr : j ∈ roots T i := mem_roots.mpr ⟨hj, by
      rw [hat, if_neg (by omega), if_neg (by tauto)] at hp
      rw [Option.eq_none_iff_forall_ne_some]
      intro p hjp
      have := hp p hjp
      have := (h.parent j p hjp).2.1
      omega⟩
    exact ⟨hb4 a j ha1 hj (hleast j hjr hja), hb4 b j hb1 hj (hnext j hjr hja hjb)⟩
  · rw [hat, if_neg him] at hl hr
    have hl' : (nodeAt T i).left = some l := by split at hl <;> exact hl
    have hr' : (nodeAt T i).right = some r := by split at hr <;> exact hr
    obtain ⟨-, l', r', el, er, hli, hri, -⟩ := h.inner i hi (by omega)
    obtain rfl : l' = l := Option.some.inj (el.symm.trans hl')
    obtain rfl : r' = r := Option.some.inj (er.symm.trans hr')
    obtain ⟨hlr, hrest⟩ := hg i hi (by omega) l' r' hl' hr'
    refine ⟨hb4 _ _ (by omega) (by omega) hlr, fun j hj hjl hjr hp => ?_⟩
    have hp' : ∀ p, (nodeAt T j).parent = some p → i ≤ p := fun p hjp => by
      refine hp p ?_
      rw [hat, if_neg (by omega), if_neg, hjp]
      rintro (rfl | rfl)
      · simp [ha2] at hjp
      · simp [hb2] at hjp
    obtain ⟨h1, h2⟩ := hrest j hj hjl hjr hp'
    exact ⟨hb4 _ _ (by omega) (by omega) h1, hb4 _ _ (by omega) (by omega) h2⟩

/-- One merge of EXCLUDE_PARENTED. -/
theorem mergeStep_forest {out : List Entry} {m : Nat} {T : List Node} (h : Forest out m T) (hbal : Balance out m T)
    (hg : Greedy out m T) (hm : out.length ≤ m) (hlt : m < 2 * out.length - 1) :
    Forest out (m + 1) (mergeStep .excludeParented T m) ∧ Balance out (m + 1) (mergeStep .excludeParented T m) ∧
      Greedy out (m + 1) (mergeStep .excludeParented T m) := by
  have := hbal.count
  obtain ⟨a, b, hs, ha, hb, hne, hleast, hnext⟩ := select2_roots (T := T) (m := m) (by omega)
  have he : mergeStep .excludeParented T m = link T m a b := by unfold mergeStep; rw [hs]
  rw [he]
  exact ⟨link_forest h hm hlt ha hb hne, link_balance h hbal hlt ha hb hne, link_greedy h hg hlt ha hb hne hleast hnext⟩

/-- The merge loop, any number of steps of it. -/
theorem foldl_mergeStep_forest {out : List Entry} (k : Nat) (hk : k ≤ out.length - 1) :
    let T := (List.range' out.length k).foldl (mergeStep .excludeParented) (seed out)
    Forest out (out.length + k) T ∧ Balance out (out.length + k) T ∧ Greedy out (out.length + k) T := by
  induction k with
  | zero => exact ⟨seed_forest out, seed_balance out, fun i hi hi' => by omega⟩
  | succ k ih =>
    obtain ⟨h, hbal, hg⟩ := ih (by omega)
    simp only [List.range'_concat, List.foldl_append, List.foldl_cons, List.foldl_nil, Nat.one_mul]
    exact mergeStep_forest (m := out.length + k) h hbal hg (by omega) (by omega)

/-- The nodes after the merge loop of EXCLUDE_PARENTED. -/
theorem mergeLoop_forest {out : List Entry} (h : out ≠ []) :
    Forest out (2 * out.length - 1) (mergeLoop .excludeParented out.length (seed out)) ∧
      Balance out (2 * out.length - 1) (mergeLoop .excludeParented out.length (seed out)) ∧
      Greedy out (2 * out.length - 1) (mergeLoop .excludeParented out.length (seed out)) := by
  have hpos : 0 < out.length := List.length_pos_iff.mpr h
  have := foldl_mergeStep_forest (out := out) (out.length - 1) (Nat.le_refl _)
  rwa [show out.length + (out.length - 1) = 2 * out.length - 1 by omega] at this

/-- After the loop the last node is the only one without a parent. -/
theorem forest_root {out : List Entry} {T : List Node} (h : Forest out (2 * out.length - 1) T)
    (hbal : Balance out (2 * out.length - 1) T) (hout : out ≠ []) :
    (nodeAt T (2 * out.length - 2)).parent = none ∧
      ∀ j < 2 * out.length - 2, ∃ p, (nodeAt T j).parent = some p := by
  have hpos : 0 < out.length := List.length_pos_iff.mpr hout
  have hroot : (nodeAt T (2 * out.length - 2)).parent = none := by
    rw [Option.eq_none_iff_forall_ne_some]
    intro p hp
    obtain ⟨-, h2, h3, -⟩ := h.parent _ p hp
    omega
  have hmem : 2 * out.length - 2 ∈ roots T (2 * out.length - 1) := mem_roots.mpr ⟨by omega, hroot⟩
  have hone : (roots T (2 * out.length - 1)).length = 1 := by have := hbal.count; omega
  obtain ⟨x, hx⟩ := List.length_eq_one_iff.mp hone
  refine ⟨hroot, fun j hj => ?_⟩
  by_contra hno
  have hjn : (nodeAt T j).parent = none := by
    cases hp : (nodeAt T j).parent with
    | none => rfl
    | some p => exact absurd ⟨p, hp⟩ hno
  have hj' : j ∈ roots T (2 * out.length - 1) := mem_roots.mpr ⟨by omega, hjn⟩
  rw [hx] at hmem hj'
  have e1 := List.mem_singleton.mp hmem
  have e2 := List.mem_singleton.mp hj'
  omega

/-! ### SOURCE_LITERAL -/

/-- `a` and `b` are the two least of the nodes below `k`, in the order (weight, index). -/
structure TwoLeast (T : List Node) (k a b : Nat) : Prop where
  fst_lt : a < k
  snd_lt : b < k
  ne : a ≠ b
  fst : ∀ j < k, j ≠ a → NodeBefore T a j
  snd : ∀ j < k, j ≠ a → j ≠ b → NodeBefore T b j

theorem nodeBefore_asymm {T : List Node} {j k : Nat} (h : NodeBefore T j k) : ¬ NodeBefore T k j := by
  unfold NodeBefore at *; omega

/-- Every node is a candidate of the SOURCE_LITERAL policy, so the scan selects the two least. -/
theorem select2_of_twoLeast {T : List Node} {k a b : Nat} (h : TwoLeast T k a b) :
    select2 .sourceLiteral T k = (some a, some b) := by
  have hs := select2_scanned .sourceLiteral T k
  generalize select2 .sourceLiteral T k = r at *
  obtain ⟨m1, m2⟩ := r
  cases m1 with
  | none => simpa [candidate] using (hs.none1 rfl).1 a h.fst_lt
  | some x =>
    obtain ⟨x1, -, x3⟩ := hs.some1 x rfl
    obtain rfl : x = a := by
      by_contra hne
      exact nodeBefore_asymm (x3 a h.fst_lt rfl (Ne.symm hne)) (h.fst x x1 hne)
    cases m2 with
    | none => exact absurd (hs.none2 x rfl rfl b h.snd_lt rfl) (Ne.symm h.ne)
    | some y =>
      obtain ⟨y1, y2, -, y4⟩ := hs.some2 x y rfl rfl
      obtain rfl : y = b := by
        by_contra hne
        exact nodeBefore_asymm (y4 b h.snd_lt rfl (Ne.symm h.ne) (Ne.symm hne)) (h.snd y y1 y2 hne)
      rfl

/-- Two nodes or more have two least ones. -/
theorem exists_twoLeast {T : List Node} {k : Nat} (hk : 2 ≤ k) : ∃ a b, TwoLeast T k a b := by
  have hs := select2_scanned .sourceLiteral T k
  generalize select2 .sourceLiteral T k = r at *
  obtain ⟨m1, m2⟩ := r
  cases m1 with
  | none => simpa [candidate] using (hs.none1 rfl).1 0 (by omega)
  | some x =>
    obtain ⟨x1, -, x3⟩ := hs.some1 x rfl
    cases m2 with
    | none =>
      have e0 := hs.none2 x rfl rfl 0 (by omega) rfl
      have e1 := hs.none2 x rfl rfl 1 (by omega) rfl
      omega
    | some y =>
      obtain ⟨y1, y2, -, y4⟩ := hs.some2 x y rfl rfl
      exact ⟨x, y, x1, y1, Ne.symm y2, fun j hj hne => x3 j hj rfl hne, fun j hj h1 h2 => y4 j hj rfl h1 h2⟩

/-- The nodes after merges up to `m` of SOURCE_LITERAL: every internal node is built over the same two leaves. -/
structure Literal (out : List Entry) (a b m : Nat) (T : List Node) : Prop where
  length : T.length = 2 * out.length - 1
  least : TwoLeast T m a b
  fst_lt : a < out.length
  snd_lt : b < out.length
  leaf : ∀ j e, out[j]? = some e → (nodeAt T j).symbol = some e.symbol ∧ (nodeAt T j).weight = e.weight ∧
    (nodeAt T j).left = none ∧ (nodeAt T j).right = none
  inner : ∀ i, out.length ≤ i → i < m → nodeAt T i =
    { blankNode with weight := (nodeAt T a).weight + (nodeAt T b).weight, left := some a, right := some b }
  blank : ∀ i, m ≤ i → nodeAt T i = blankNode
  parent : ∀ j, (nodeAt T j).parent = if (j = a ∨ j = b) ∧ out.length < m then some (m - 1) else none
  code : ∀ j, (nodeAt T j).code = []

theorem seed_literal {out : List Entry} (h : 2 ≤ out.length) :
    ∃ a b, Literal out a b out.length (seed out) := by
  obtain ⟨a, b, hab⟩ := exists_twoLeast (T := seed out) h
  have hf := seed_forest out
  refine ⟨a, b, hf.length, hab, hab.fst_lt, hab.snd_lt, hf.leaf, fun i h h' => by omega, hf.blank, fun j => ?_, hf.code⟩
  simp only [lt_self_iff_false, and_false, if_false]
  rw [Option.eq_none_iff_forall_ne_some]
  intro p hp
  obtain ⟨h1, h2, -, -⟩ := hf.parent j p hp
  omega

theorem mergeStep_literal {out : List Entry} {a b m : Nat} {T : List Node} (h : Literal out a b m T)
    (hm : out.length ≤ m) (hlt : m < 2 * out.length - 1) :
    Literal out a b (m + 1) (mergeStep .sourceLiteral T m) := by
  have he : mergeStep .sourceLiteral T m = link T m a b := by unfold mergeStep; rw [select2_of_twoLeast h.least]
  rw [he]
  have hat := nodeAt_link (T := T) (i := m) (by rw [h.length]; exact hlt) h.least.fst_lt h.least.snd_lt h.least.ne
  have hblank := h.blank m (Nat.le_refl m)
  have h1 := h.fst_lt
  have h2 := h.snd_lt
  have hw : ∀ j, (nodeAt (link T m a b) j).weight =
      if j = m then (nodeAt T a).weight + (nodeAt T b).weight else (nodeAt T j).weight := fun j => by
    rw [hat]; split
    · rfl
    · split <;> rfl
  refine ⟨by rw [link_length, h.length], ⟨by omega, by omega, h.least.ne, fun j hj hne => ?_, fun j hj hna hnb => ?_⟩, h1, h2,
    fun j e hje => ?_, fun i hi hi' => ?_, fun i hi => ?_, fun j => ?_, fun j => ?_⟩
  · have hl := h.least.fst j
    unfold NodeBefore at *
    rw [hw a, hw j, if_neg (by omega)]
    split
    · omega
    · exact hl (by omega) hne
  · have hl := h.least.snd j
    unfold NodeBefore at *
    rw [hw b, hw j, if_neg (by omega)]
    split
    · omega
    · exact hl (by omega) hna hnb
  · have hj : j < out.length := (List.getElem?_eq_some_iff.mp hje).1
    rw [hat, if_neg (by omega)]
    split <;> exact h.leaf j e hje
  · rw [hw a, hw b, if_neg (by omega), if_neg (by omega), hat]
    by_cases him : i = m
    · rw [if_pos him, hblank]
    · rw [if_neg him, if_neg (by omega)]
      exact h.inner i hi (by omega)
  · rw [hat, if_neg (by omega), if_neg (by omega), h.blank i (by omega)]
  · rw [hat]
    by_cases hjm : j = m
    · rw [if_pos hjm, if_neg (by omega), hblank]; rfl
    · rw [if_neg hjm]
      by_cases hab : j = a ∨ j = b
      · rw [if_pos hab, if_pos ⟨hab, by omega⟩]; rfl
      · rw [if_neg hab, if_neg (by tauto), h.parent j, if_neg (by tauto)]
  · rw [hat]
    split
    · exact h.code m
    · split <;> exact h.code j

/-- The nodes after the merge loop of SOURCE_LITERAL. -/
theorem mergeLoop_literal {out : List Entry} (h : 2 ≤ out.length) :
    ∃ a b, Literal out a b (2 * out.length - 1) (mergeLoop .sourceLiteral out.length (seed out)) := by
  obtain ⟨a, b, hab⟩ := seed_literal h
  have : ∀ k ≤ out.length - 1,
      Literal out a b (out.length + k) ((List.range' out.length k).foldl (mergeStep .sourceLiteral) (seed out)) := by
    intro k hk
    induction k with
    | zero => exact hab
    | succ k ih =>
      simp only [List.range'_concat, List.foldl_append, List.foldl_cons, List.foldl_nil, Nat.one_mul]
      exact mergeStep_literal (m := out.length + k) (ih (by omega)) (by omega) (by omega)
  have := this (out.length - 1) (Nat.le_refl _)
  rw [show out.length + (out.length - 1) = 2 * out.length - 1 by omega] at this
  exact ⟨a, b, this⟩

end Sys2Proof.Machine
end

