-- ==== Sys2Proof/Laws/Codes.lean ====
section
/-! SUPPORT. What the breadth-first code generation leaves on a tree (42_huffman.md R190). -/

namespace Sys2Proof.Machine

/-- How far the traversal has come: `V` the nodes dequeued, `Q` the queue, `T` the nodes, over the merged nodes `T₀`. -/
structure Walk (T₀ : List Node) (root : Nat) (V Q : List Nat) (T : List Node) : Prop where
  same : ∀ j, SameButCode (nodeAt T₀ j) (nodeAt T j)
  length : T.length = T₀.length
  nodup : (V ++ Q).Nodup
  bound : ∀ x ∈ V ++ Q, x < T₀.length
  left : ∀ v ∈ V, ∀ c, (nodeAt T₀ v).left = some c → c ∈ V ++ Q ∧ (nodeAt T c).code = (nodeAt T v).code ++ [false]
  right : ∀ v ∈ V, ∀ c, (nodeAt T₀ v).right = some c → c ∈ V ++ Q ∧ (nodeAt T c).code = (nodeAt T v).code ++ [true]
  root_mem : root ∈ V ++ Q
  root_code : (nodeAt T root).code = []
  parent : ∀ x ∈ V ++ Q, x ≠ root → ∃ p ∈ V, (nodeAt T₀ x).parent = some p

/-- What the traversal needs of the merged nodes: each node has both children or none, which are two nodes below it whose
parent it is, and the root has no parent. -/
structure Links (T₀ : List Node) (root : Nat) : Prop where
  root_lt : root < T₀.length
  root_parent : (nodeAt T₀ root).parent = none
  children : ∀ x, ((nodeAt T₀ x).left = none ∧ (nodeAt T₀ x).right = none) ∨
    ∃ l r, (nodeAt T₀ x).left = some l ∧ (nodeAt T₀ x).right = some r ∧ l < T₀.length ∧ r < T₀.length ∧ l ≠ r ∧
      (nodeAt T₀ l).parent = some x ∧ (nodeAt T₀ r).parent = some x

theorem walk_start {T₀ : List Node} {root : Nat} (h : Links T₀ root) :
    Walk T₀ root [] [root] (T₀.modify root fun x => { x with code := [] }) where
  same j := modify_code_same _ _ _ _
  length := by simp
  nodup := by simp
  bound x hx := by simp at hx; subst hx; exact h.root_lt
  left v hv := by simp at hv
  right v hv := by simp at hv
  root_mem := by simp
  root_code := by rw [nodeAt_modify, if_pos ⟨rfl, h.root_lt⟩]
  parent x hx hne := by simp at hx; exact absurd hx hne

/-- One node dequeued. -/
theorem walk_step {T₀ : List Node} {root : Nat} (h : Links T₀ root) {V Q : List Nat} {x : Nat} {T : List Node}
    (hw : Walk T₀ root V (x :: Q) T) :
    let nd := nodeAt T x
    let t := visitChild nd.code true nd.right (visitChild nd.code false nd.left (T, Q))
    Walk T₀ root (V ++ [x]) t.2 t.1 := by
  have hsame := hw.same x
  have happ : ∀ Q', (V ++ [x]) ++ (Q ++ Q') = (V ++ x :: Q) ++ Q' := fun Q' => by simp
  have hx : x ∈ V ++ x :: Q := by simp
  have hxV : x ∉ V := fun hv => by
    have := (List.nodup_append.mp hw.nodup).2.2 x hv x (by simp)
    exact this rfl
  have hVsub : ∀ v, v ∈ V ++ [x] → v ∈ V ++ x :: Q := fun v hv => by
    simp only [List.mem_append, List.mem_cons, List.not_mem_nil, or_false] at *; tauto
  rcases h.children x with ⟨hl, hr⟩ | ⟨l, r, hl, hr, hlT, hrT, hne, hpl, hpr⟩
  · have e1 : (nodeAt T x).left = none := hsame.left.trans hl
    have e2 : (nodeAt T x).right = none := hsame.right.trans hr
    simp only [e1, e2, visitChild]
    have happ' := happ []
    simp only [List.append_nil] at happ'
    refine ⟨hw.same, hw.length, happ' ▸ hw.nodup, happ' ▸ hw.bound, fun v hv c hc => ?_, fun v hv c hc => ?_,
      happ' ▸ hw.root_mem, hw.root_code, fun y hy hyr => ?_⟩
    · rw [happ']
      rcases List.mem_append.mp hv with hv | hv
      · exact hw.left v hv c hc
      · obtain rfl := List.mem_singleton.mp hv
        rw [hl] at hc; cases hc
    · rw [happ']
      rcases List.mem_append.mp hv with hv | hv
      · exact hw.right v hv c hc
      · obtain rfl := List.mem_singleton.mp hv
        rw [hr] at hc; cases hc
    · rw [happ'] at hy
      obtain ⟨p, hp, hpp⟩ := hw.parent y hy hyr
      exact ⟨p, List.mem_append_left _ hp, hpp⟩
  · have e1 : (nodeAt T x).left = some l := hsame.left.trans hl
    have e2 : (nodeAt T x).right = some r := hsame.right.trans hr
    have hnot : ∀ c, (nodeAt T₀ c).parent = some x → c ∉ V ++ x :: Q := fun c hc hmem => by
      by_cases hcr : c = root
      · rw [hcr, h.root_parent] at hc; cases hc
      · obtain ⟨p, hp, hpp⟩ := hw.parent c hmem hcr
        rw [hc] at hpp
        obtain rfl : x = p := by simpa using hpp
        exact hxV hp
    have hlm := hnot l hpl
    have hrm := hnot r hpr
    simp only [e1, e2, visitChild, List.append_assoc]
    set T' := (T.modify l fun y => { y with code := (nodeAt T x).code ++ [false] }).modify r
      fun y => { y with code := (nodeAt T x).code ++ [true] } with hT'
    have hcodel : (nodeAt T' l).code = (nodeAt T x).code ++ [false] := by
      rw [hT', nodeAt_modify, if_neg (fun hh => hne hh.1.symm), nodeAt_modify, if_pos ⟨rfl, by rw [hw.length]; exact hlT⟩]
    have hcoder : (nodeAt T' r).code = (nodeAt T x).code ++ [true] := by
      rw [hT', nodeAt_modify, if_pos ⟨rfl, by rw [List.length_modify, hw.length]; exact hrT⟩]
    have hkeep : ∀ y ∈ V ++ x :: Q, nodeAt T' y = nodeAt T y := fun y hy => by
      have n1 : r ≠ y := fun hh => hrm (hh ▸ hy)
      have n2 : l ≠ y := fun hh => hlm (hh ▸ hy)
      rw [hT', nodeAt_modify, if_neg (by simp [n1]), nodeAt_modify, if_neg (by simp [n2])]
    have hall : (V ++ [x]) ++ (Q ++ ([l] ++ [r])) = (V ++ x :: Q) ++ [l, r] := by simp
    refine ⟨fun j => ?_, by simp [hT', hw.length], ?_, fun y hy => ?_, fun v hv c hc => ?_, fun v hv c hc => ?_, ?_, ?_,
      fun y hy hyr => ?_⟩
    · exact sameButCode_trans (hw.same j) (sameButCode_trans (modify_code_same _ _ _ _) (modify_code_same _ _ _ _))
    · rw [hall, List.nodup_append]
      refine ⟨hw.nodup, by simp [hne], fun a ha b hb => ?_⟩
      rintro rfl
      simp only [List.mem_cons, List.not_mem_nil, or_false] at hb
      rcases hb with rfl | rfl
      · exact hlm ha
      · exact hrm ha
    · rw [hall] at hy
      rcases List.mem_append.mp hy with hy | hy
      · exact hw.bound y hy
      · simp only [List.mem_cons, List.not_mem_nil, or_false] at hy
        rcases hy with rfl | rfl
        · exact hlT
        · exact hrT
    · rw [hall, hkeep v (hVsub v hv)]
      rcases List.mem_append.mp hv with hv | hv
      · obtain ⟨c1, c2⟩ := hw.left v hv c hc
        exact ⟨List.mem_append_left _ c1, by rw [hkeep c c1, c2]⟩
      · obtain rfl := List.mem_singleton.mp hv
        obtain rfl : l = c := by simpa using hl.symm.trans hc
        exact ⟨by simp, hcodel⟩
    · rw [hall, hkeep v (hVsub v hv)]
      rcases List.mem_append.mp hv with hv | hv
      · obtain ⟨c1, c2⟩ := hw.right v hv c hc
        exact ⟨List.mem_append_left _ c1, by rw [hkeep c c1, c2]⟩
      · obtain rfl := List.mem_singleton.mp hv
        obtain rfl : r = c := by simpa using hr.symm.trans hc
        exact ⟨by simp, hcoder⟩
    · rw [hall]; exact List.mem_append_left _ hw.root_mem
    · rw [hkeep root hw.root_mem, hw.root_code]
    · rw [hall] at hy
      rcases List.mem_append.mp hy with hy | hy
      · obtain ⟨p, hp, hpp⟩ := hw.parent y hy hyr
        exact ⟨p, List.mem_append_left _ hp, hpp⟩
      · simp only [List.mem_cons, List.not_mem_nil, or_false] at hy
        refine ⟨x, by simp, ?_⟩
        rcases hy with rfl | rfl
        · exact hpl
        · exact hpr

/-- A list of different numbers below `n` is at most `n` long. -/
theorem nodup_length_le {l : List Nat} {n : Nat} (hnd : l.Nodup) (h : ∀ x ∈ l, x < n) : l.length ≤ n := by
  have := (List.subperm_of_subset hnd (fun x hx => List.mem_range.mpr (h x hx) : l ⊆ List.range n)).length_le
  simpa using this

/-- With fuel for every node, the traversal ends with an empty queue. -/
theorem walk_bfs {T₀ : List Node} {root : Nat} (h : Links T₀ root) (fuel : Nat) {V Q : List Nat} {T : List Node}
    (hw : Walk T₀ root V Q T) (hf : T₀.length ≤ fuel + V.length) : ∃ V', Walk T₀ root V' [] (bfs fuel Q T) := by
  induction fuel generalizing V Q T with
  | zero =>
    have hlen := nodup_length_le hw.nodup hw.bound
    rw [List.length_append] at hlen
    have hQ : Q = [] := List.length_eq_zero_iff.mp (by omega)
    subst hQ
    exact ⟨V, hw⟩
  | succ f ih =>
    cases Q with
    | nil => exact ⟨V, hw⟩
    | cons x Q =>
      simp only [bfs]
      exact ih (walk_step h hw) (by simp; omega)

/-- When every node but the root has a parent above it that links to it, the codes extend along every edge. -/
theorem bfs_codes {T₀ : List Node} {root : Nat} (h : Links T₀ root)
    (hup : ∀ j < root, ∃ p, j < p ∧ p ≤ root ∧ IsChild T₀ p j) :
    let T := bfs T₀.length [root] (T₀.modify root fun x => { x with code := [] })
    (nodeAt T root).code = [] ∧
      (∀ v ≤ root, ∀ c, (nodeAt T₀ v).left = some c → (nodeAt T c).code = (nodeAt T v).code ++ [false]) ∧
      (∀ v ≤ root, ∀ c, (nodeAt T₀ v).right = some c → (nodeAt T c).code = (nodeAt T v).code ++ [true]) := by
  obtain ⟨V, hV⟩ := walk_bfs h T₀.length (walk_start h) (by simp)
  have hall : ∀ d j, j + d = root → j ∈ V := by
    intro d
    induction d using Nat.strong_induction_on with
    | _ d ih =>
      intro j hj
      by_cases hjr : j = root
      · have := hV.root_mem
        rw [List.append_nil] at this
        exact hjr ▸ this
      · obtain ⟨p, hp1, hp2, hp3⟩ := hup j (by omega)
        have hp := ih (root - p) (by omega) p (by omega)
        rcases hp3 with hc | hc
        · simpa using (hV.left p hp j hc).1
        · simpa using (hV.right p hp j hc).1
  exact ⟨hV.root_code, fun v hv c hc => (hV.left v (hall (root - v) v (by omega)) c hc).2,
    fun v hv c hc => (hV.right v (hall (root - v) v (by omega)) c hc).2⟩

end Sys2Proof.Machine
end

