-- ==== Sys2Proof/Laws/State.lean ====
section
/-! SUPPORT. What each named update of the state does to each field, and reading a buffer after writing one. -/

namespace Sys2Proof.Machine

variable (s : State)

/-! ### `State.completed` -/

@[simp] theorem completed_cfg (r0 r1 : Word) : (s.completed r0 r1).cfg = s.cfg := rfl
@[simp] theorem completed_cmd (r0 r1 : Word) : (s.completed r0 r1).cmd = s.cmd := rfl
@[simp] theorem completed_arg0 (r0 r1 : Word) : (s.completed r0 r1).arg0 = s.arg0 := rfl
@[simp] theorem completed_arg1 (r0 r1 : Word) : (s.completed r0 r1).arg1 = s.arg1 := rfl
@[simp] theorem completed_res0 (r0 r1 : Word) : (s.completed r0 r1).res0 = r0 := rfl
@[simp] theorem completed_res1 (r0 r1 : Word) : (s.completed r0 r1).res1 = r1 := rfl
@[simp] theorem completed_err (r0 r1 : Word) : (s.completed r0 r1).err = .ok := rfl
@[simp] theorem completed_busy (r0 r1 : Word) : (s.completed r0 r1).busy = false := rfl
@[simp] theorem completed_errSticky (r0 r1 : Word) : (s.completed r0 r1).errSticky = s.errSticky := rfl
@[simp] theorem completed_overrun (r0 r1 : Word) : (s.completed r0 r1).overrun = s.overrun := rfl
@[simp] theorem completed_latCmd (r0 r1 : Word) : (s.completed r0 r1).latCmd = s.latCmd := rfl
@[simp] theorem completed_latA0 (r0 r1 : Word) : (s.completed r0 r1).latA0 = s.latA0 := rfl
@[simp] theorem completed_latA1 (r0 r1 : Word) : (s.completed r0 r1).latA1 = s.latA1 := rfl
@[simp] theorem completed_bufs (r0 r1 : Word) : (s.completed r0 r1).bufs = s.bufs := rfl
@[simp] theorem completed_ht (r0 r1 : Word) : (s.completed r0 r1).ht = s.ht := rfl
@[simp] theorem completed_inReset (r0 r1 : Word) : (s.completed r0 r1).inReset = s.inReset := rfl
@[simp] theorem completed_inputs (r0 r1 : Word) : (s.completed r0 r1).inputs = s.inputs := rfl
@[simp] theorem completed_hostPos (r0 r1 : Word) : (s.completed r0 r1).hostPos = s.hostPos := rfl
@[simp] theorem completed_rdata (r0 r1 : Word) : (s.completed r0 r1).rdata = s.rdata := rfl
@[simp] theorem completed_draws (r0 r1 : Word) : (s.completed r0 r1).draws = s.draws := rfl

/-! ### `State.raised` -/

@[simp] theorem raised_cfg (e : ErrCode) (info : Word) : (s.raised e info).cfg = s.cfg := rfl
@[simp] theorem raised_cmd (e : ErrCode) (info : Word) : (s.raised e info).cmd = s.cmd := rfl
@[simp] theorem raised_arg0 (e : ErrCode) (info : Word) : (s.raised e info).arg0 = s.arg0 := rfl
@[simp] theorem raised_arg1 (e : ErrCode) (info : Word) : (s.raised e info).arg1 = s.arg1 := rfl
@[simp] theorem raised_res0 (e : ErrCode) (info : Word) : (s.raised e info).res0 = info := rfl
@[simp] theorem raised_res1 (e : ErrCode) (info : Word) : (s.raised e info).res1 = 0 := rfl
@[simp] theorem raised_err (e : ErrCode) (info : Word) : (s.raised e info).err = e := rfl
@[simp] theorem raised_busy (e : ErrCode) (info : Word) : (s.raised e info).busy = false := rfl
@[simp] theorem raised_errSticky (e : ErrCode) (info : Word) : (s.raised e info).errSticky = true := rfl
@[simp] theorem raised_overrun (e : ErrCode) (info : Word) : (s.raised e info).overrun = s.overrun := rfl
@[simp] theorem raised_latCmd (e : ErrCode) (info : Word) : (s.raised e info).latCmd = s.latCmd := rfl
@[simp] theorem raised_latA0 (e : ErrCode) (info : Word) : (s.raised e info).latA0 = s.latA0 := rfl
@[simp] theorem raised_latA1 (e : ErrCode) (info : Word) : (s.raised e info).latA1 = s.latA1 := rfl
@[simp] theorem raised_bufs (e : ErrCode) (info : Word) : (s.raised e info).bufs = s.bufs := rfl
@[simp] theorem raised_ht (e : ErrCode) (info : Word) : (s.raised e info).ht = s.ht := rfl
@[simp] theorem raised_inReset (e : ErrCode) (info : Word) : (s.raised e info).inReset = s.inReset := rfl
@[simp] theorem raised_inputs (e : ErrCode) (info : Word) : (s.raised e info).inputs = s.inputs := rfl
@[simp] theorem raised_hostPos (e : ErrCode) (info : Word) : (s.raised e info).hostPos = s.hostPos := rfl
@[simp] theorem raised_rdata (e : ErrCode) (info : Word) : (s.raised e info).rdata = s.rdata := rfl
@[simp] theorem raised_draws (e : ErrCode) (info : Word) : (s.raised e info).draws = s.draws := rfl

/-! ### `State.setBuf` -/

@[simp] theorem setBuf_cfg (b : BitVec 2) (B : Buffer) : (s.setBuf b B).cfg = s.cfg := rfl
@[simp] theorem setBuf_cmd (b : BitVec 2) (B : Buffer) : (s.setBuf b B).cmd = s.cmd := rfl
@[simp] theorem setBuf_arg0 (b : BitVec 2) (B : Buffer) : (s.setBuf b B).arg0 = s.arg0 := rfl
@[simp] theorem setBuf_arg1 (b : BitVec 2) (B : Buffer) : (s.setBuf b B).arg1 = s.arg1 := rfl
@[simp] theorem setBuf_res0 (b : BitVec 2) (B : Buffer) : (s.setBuf b B).res0 = s.res0 := rfl
@[simp] theorem setBuf_res1 (b : BitVec 2) (B : Buffer) : (s.setBuf b B).res1 = s.res1 := rfl
@[simp] theorem setBuf_err (b : BitVec 2) (B : Buffer) : (s.setBuf b B).err = s.err := rfl
@[simp] theorem setBuf_busy (b : BitVec 2) (B : Buffer) : (s.setBuf b B).busy = s.busy := rfl
@[simp] theorem setBuf_errSticky (b : BitVec 2) (B : Buffer) : (s.setBuf b B).errSticky = s.errSticky := rfl
@[simp] theorem setBuf_overrun (b : BitVec 2) (B : Buffer) : (s.setBuf b B).overrun = s.overrun := rfl
@[simp] theorem setBuf_latCmd (b : BitVec 2) (B : Buffer) : (s.setBuf b B).latCmd = s.latCmd := rfl
@[simp] theorem setBuf_latA0 (b : BitVec 2) (B : Buffer) : (s.setBuf b B).latA0 = s.latA0 := rfl
@[simp] theorem setBuf_latA1 (b : BitVec 2) (B : Buffer) : (s.setBuf b B).latA1 = s.latA1 := rfl
@[simp] theorem setBuf_bufs (b : BitVec 2) (B : Buffer) : (s.setBuf b B).bufs = s.bufs.set b B := rfl
@[simp] theorem setBuf_ht (b : BitVec 2) (B : Buffer) : (s.setBuf b B).ht = s.ht := rfl
@[simp] theorem setBuf_inReset (b : BitVec 2) (B : Buffer) : (s.setBuf b B).inReset = s.inReset := rfl
@[simp] theorem setBuf_inputs (b : BitVec 2) (B : Buffer) : (s.setBuf b B).inputs = s.inputs := rfl
@[simp] theorem setBuf_hostPos (b : BitVec 2) (B : Buffer) : (s.setBuf b B).hostPos = s.hostPos := rfl
@[simp] theorem setBuf_rdata (b : BitVec 2) (B : Buffer) : (s.setBuf b B).rdata = s.rdata := rfl
@[simp] theorem setBuf_draws (b : BitVec 2) (B : Buffer) : (s.setBuf b B).draws = s.draws := rfl

/-! ### `State.setHt` -/

@[simp] theorem setHt_cfg (H : Huffman) : (s.setHt H).cfg = s.cfg := rfl
@[simp] theorem setHt_cmd (H : Huffman) : (s.setHt H).cmd = s.cmd := rfl
@[simp] theorem setHt_arg0 (H : Huffman) : (s.setHt H).arg0 = s.arg0 := rfl
@[simp] theorem setHt_arg1 (H : Huffman) : (s.setHt H).arg1 = s.arg1 := rfl
@[simp] theorem setHt_res0 (H : Huffman) : (s.setHt H).res0 = s.res0 := rfl
@[simp] theorem setHt_res1 (H : Huffman) : (s.setHt H).res1 = s.res1 := rfl
@[simp] theorem setHt_err (H : Huffman) : (s.setHt H).err = s.err := rfl
@[simp] theorem setHt_busy (H : Huffman) : (s.setHt H).busy = s.busy := rfl
@[simp] theorem setHt_errSticky (H : Huffman) : (s.setHt H).errSticky = s.errSticky := rfl
@[simp] theorem setHt_overrun (H : Huffman) : (s.setHt H).overrun = s.overrun := rfl
@[simp] theorem setHt_latCmd (H : Huffman) : (s.setHt H).latCmd = s.latCmd := rfl
@[simp] theorem setHt_latA0 (H : Huffman) : (s.setHt H).latA0 = s.latA0 := rfl
@[simp] theorem setHt_latA1 (H : Huffman) : (s.setHt H).latA1 = s.latA1 := rfl
@[simp] theorem setHt_bufs (H : Huffman) : (s.setHt H).bufs = s.bufs := rfl
@[simp] theorem setHt_ht (H : Huffman) : (s.setHt H).ht = H := rfl
@[simp] theorem setHt_inReset (H : Huffman) : (s.setHt H).inReset = s.inReset := rfl
@[simp] theorem setHt_inputs (H : Huffman) : (s.setHt H).inputs = s.inputs := rfl
@[simp] theorem setHt_hostPos (H : Huffman) : (s.setHt H).hostPos = s.hostPos := rfl
@[simp] theorem setHt_rdata (H : Huffman) : (s.setHt H).rdata = s.rdata := rfl
@[simp] theorem setHt_draws (H : Huffman) : (s.setHt H).draws = s.draws := rfl

/-! ### `State.accept` -/

@[simp] theorem accept_cfg (v : Word) : (s.accept v).cfg = s.cfg := rfl
@[simp] theorem accept_cmd (v : Word) : (s.accept v).cmd = v := rfl
@[simp] theorem accept_arg0 (v : Word) : (s.accept v).arg0 = s.arg0 := rfl
@[simp] theorem accept_arg1 (v : Word) : (s.accept v).arg1 = s.arg1 := rfl
@[simp] theorem accept_res0 (v : Word) : (s.accept v).res0 = s.res0 := rfl
@[simp] theorem accept_res1 (v : Word) : (s.accept v).res1 = s.res1 := rfl
@[simp] theorem accept_err (v : Word) : (s.accept v).err = s.err := rfl
@[simp] theorem accept_busy (v : Word) : (s.accept v).busy = true := rfl
@[simp] theorem accept_errSticky (v : Word) : (s.accept v).errSticky = s.errSticky := rfl
@[simp] theorem accept_overrun (v : Word) : (s.accept v).overrun = s.overrun := rfl
@[simp] theorem accept_latCmd (v : Word) : (s.accept v).latCmd = v := rfl
@[simp] theorem accept_latA0 (v : Word) : (s.accept v).latA0 = s.arg0 := rfl
@[simp] theorem accept_latA1 (v : Word) : (s.accept v).latA1 = s.arg1 := rfl
@[simp] theorem accept_bufs (v : Word) : (s.accept v).bufs = s.bufs := rfl
@[simp] theorem accept_ht (v : Word) : (s.accept v).ht = s.ht := rfl
@[simp] theorem accept_inReset (v : Word) : (s.accept v).inReset = s.inReset := rfl
@[simp] theorem accept_inputs (v : Word) : (s.accept v).inputs = s.inputs := rfl
@[simp] theorem accept_hostPos (v : Word) : (s.accept v).hostPos = s.hostPos := rfl
@[simp] theorem accept_rdata (v : Word) : (s.accept v).rdata = s.rdata := rfl
@[simp] theorem accept_draws (v : Word) : (s.accept v).draws = s.draws := rfl

/-! ### `State.clearSticky` -/

@[simp] theorem clearSticky_cfg (v : Word) : (s.clearSticky v).cfg = s.cfg := rfl
@[simp] theorem clearSticky_cmd (v : Word) : (s.clearSticky v).cmd = s.cmd := rfl
@[simp] theorem clearSticky_arg0 (v : Word) : (s.clearSticky v).arg0 = s.arg0 := rfl
@[simp] theorem clearSticky_arg1 (v : Word) : (s.clearSticky v).arg1 = s.arg1 := rfl
@[simp] theorem clearSticky_res0 (v : Word) : (s.clearSticky v).res0 = s.res0 := rfl
@[simp] theorem clearSticky_res1 (v : Word) : (s.clearSticky v).res1 = s.res1 := rfl
@[simp] theorem clearSticky_err (v : Word) : (s.clearSticky v).err = s.err := rfl
@[simp] theorem clearSticky_busy (v : Word) : (s.clearSticky v).busy = s.busy := rfl
@[simp] theorem clearSticky_errSticky (v : Word) : (s.clearSticky v).errSticky = (s.errSticky && !v.getLsbD 9) := rfl
@[simp] theorem clearSticky_overrun (v : Word) : (s.clearSticky v).overrun = (s.overrun && !v.getLsbD 10) := rfl
@[simp] theorem clearSticky_latCmd (v : Word) : (s.clearSticky v).latCmd = s.latCmd := rfl
@[simp] theorem clearSticky_latA0 (v : Word) : (s.clearSticky v).latA0 = s.latA0 := rfl
@[simp] theorem clearSticky_latA1 (v : Word) : (s.clearSticky v).latA1 = s.latA1 := rfl
@[simp] theorem clearSticky_bufs (v : Word) : (s.clearSticky v).bufs = s.bufs := rfl
@[simp] theorem clearSticky_ht (v : Word) : (s.clearSticky v).ht = s.ht := rfl
@[simp] theorem clearSticky_inReset (v : Word) : (s.clearSticky v).inReset = s.inReset := rfl
@[simp] theorem clearSticky_inputs (v : Word) : (s.clearSticky v).inputs = s.inputs := rfl
@[simp] theorem clearSticky_hostPos (v : Word) : (s.clearSticky v).hostPos = s.hostPos := rfl
@[simp] theorem clearSticky_rdata (v : Word) : (s.clearSticky v).rdata = s.rdata := rfl
@[simp] theorem clearSticky_draws (v : Word) : (s.clearSticky v).draws = s.draws := rfl

/-! ### `State.afterRead` -/

@[simp] theorem afterRead_cfg (r : PortReg) : (s.afterRead r).cfg = s.cfg := rfl
@[simp] theorem afterRead_cmd (r : PortReg) : (s.afterRead r).cmd = s.cmd := rfl
@[simp] theorem afterRead_arg0 (r : PortReg) : (s.afterRead r).arg0 = s.arg0 := rfl
@[simp] theorem afterRead_arg1 (r : PortReg) : (s.afterRead r).arg1 = s.arg1 := rfl
@[simp] theorem afterRead_res0 (r : PortReg) : (s.afterRead r).res0 = s.res0 := rfl
@[simp] theorem afterRead_res1 (r : PortReg) : (s.afterRead r).res1 = s.res1 := rfl
@[simp] theorem afterRead_err (r : PortReg) : (s.afterRead r).err = s.err := rfl
@[simp] theorem afterRead_busy (r : PortReg) : (s.afterRead r).busy = s.busy := rfl
@[simp] theorem afterRead_errSticky (r : PortReg) : (s.afterRead r).errSticky = s.errSticky := rfl
@[simp] theorem afterRead_overrun (r : PortReg) : (s.afterRead r).overrun = s.overrun := rfl
@[simp] theorem afterRead_latCmd (r : PortReg) : (s.afterRead r).latCmd = s.latCmd := rfl
@[simp] theorem afterRead_latA0 (r : PortReg) : (s.afterRead r).latA0 = s.latA0 := rfl
@[simp] theorem afterRead_latA1 (r : PortReg) : (s.afterRead r).latA1 = s.latA1 := rfl
@[simp] theorem afterRead_bufs (r : PortReg) : (s.afterRead r).bufs = s.bufs := rfl
@[simp] theorem afterRead_ht (r : PortReg) : (s.afterRead r).ht = s.ht := rfl
@[simp] theorem afterRead_inReset (r : PortReg) : (s.afterRead r).inReset = s.inReset := rfl
@[simp] theorem afterRead_inputs (r : PortReg) : (s.afterRead r).inputs = s.inputs := rfl
@[simp] theorem afterRead_hostPos (r : PortReg) : (s.afterRead r).hostPos = s.hostPos := rfl
@[simp] theorem afterRead_rdata (r : PortReg) : (s.afterRead r).rdata = s.readReg r := rfl
@[simp] theorem afterRead_draws (r : PortReg) : (s.afterRead r).draws = (if r.drawn s.busy then s.draws + 1 else s.draws) := rfl

/-! ### Buffers by number -/

theorem buffers_get_set_same (bs : Buffers) (b : BitVec 2) (B : Buffer) : (bs.set b B).get b = B := by
  have h : b = 0 ∨ b = 1 ∨ b = 2 ∨ b = 3 := by revert b; decide
  rcases h with rfl | rfl | rfl | rfl <;> rfl

theorem buffers_get_set_ne (bs : Buffers) {b c : BitVec 2} (h : c ≠ b) (B : Buffer) : (bs.set b B).get c = bs.get c := by
  have hb : b = 0 ∨ b = 1 ∨ b = 2 ∨ b = 3 := by clear h; revert b; decide
  have hc : c = 0 ∨ c = 1 ∨ c = 2 ∨ c = 3 := by clear h; revert c; decide
  rcases hb with rfl | rfl | rfl | rfl <;> rcases hc with rfl | rfl | rfl | rfl <;> first | rfl | exact absurd rfl h

theorem buffers_set_get (bs : Buffers) (b : BitVec 2) : bs.set b (bs.get b) = bs := by
  have h : b = 0 ∨ b = 1 ∨ b = 2 ∨ b = 3 := by revert b; decide
  rcases h with rfl | rfl | rfl | rfl <;> rfl

@[simp] theorem buf_setBuf_same (b : BitVec 2) (B : Buffer) : (s.setBuf b B).buf b = B :=
  buffers_get_set_same s.bufs b B

theorem buf_setBuf_ne {b c : BitVec 2} (h : c ≠ b) (B : Buffer) : (s.setBuf b B).buf c = s.buf c :=
  buffers_get_set_ne s.bufs h B

@[simp] theorem buf_completed (r0 r1 : Word) (b : BitVec 2) : (s.completed r0 r1).buf b = s.buf b := rfl
@[simp] theorem buf_raised (e : ErrCode) (info : Word) (b : BitVec 2) : (s.raised e info).buf b = s.buf b := rfl
@[simp] theorem buf_setHt (H : Huffman) (b : BitVec 2) : (s.setHt H).buf b = s.buf b := rfl

end Sys2Proof.Machine
end

