-- ==== Sys2Proof/Laws/Commands.lean ====
section
/-! SUPPORT. What each shared operation of the commands can do, once, and the one inversion lemma for all commands: a
command raises and changes nothing else, or completes with one buffer or the Huffman unit replaced. -/

namespace Sys2Proof.Machine

/-! ### Ending a command -/

theorem complete_eq_next {r0 r1 : Word} {s t : State} : complete r0 r1 s = .next t ↔ t = s.completed r0 r1 := by
  simp [complete, eq_comm]

theorem raise_eq_next {e : ErrCode} {info : Word} {s t : State} : raise e info s = .next t ↔ t = s.raised e info := by
  simp [raise, eq_comm]

theorem hostKept_refl (s : State) : HostKept s s := by constructor <;> rfl

theorem completed_done (s : State) (r0 r1 : Word) : Done s (s.completed r0 r1) where
  err := rfl
  sticky := rfl
  idle := rfl
  kept := by constructor <;> rfl

theorem setBuf_completed_done (s : State) (b : BitVec 2) (B : Buffer) (r0 r1 : Word) :
    Done s ((s.setBuf b B).completed r0 r1) where
  err := rfl
  sticky := rfl
  idle := rfl
  kept := by constructor <;> rfl

theorem setHt_completed_done (s : State) (H : Huffman) (r0 r1 : Word) : Done s ((s.setHt H).completed r0 r1) where
  err := rfl
  sticky := rfl
  idle := rfl
  kept := by constructor <;> rfl

theorem raised_kept (s : State) (e : ErrCode) (info : Word) : HostKept s (s.raised e info) := by constructor <;> rfl

theorem raised_units (s : State) (e : ErrCode) (info : Word) : UnitsKept s (s.raised e info) := by constructor <;> rfl

theorem completed_units (s : State) (r0 r1 : Word) : UnitsKept s (s.completed r0 r1) := by constructor <;> rfl

theorem setBuf_completed_only (s : State) (b : BitVec 2) (B : Buffer) (r0 r1 : Word) :
    OnlyBuf b s ((s.setBuf b B).completed r0 r1) where
  ht := rfl
  others c h := by simpa using buf_setBuf_ne s h B

theorem setBuf_self (s : State) (b : BitVec 2) : s.setBuf b (s.buf b) = s := by
  have : s.bufs.set b (s.bufs.get b) = s.bufs := buffers_set_get s.bufs b
  simp [State.setBuf, State.buf, this]

theorem setHt_self (s : State) : s.setHt s.ht = s := rfl

/-! ### The shared operations -/

theorem selectBuf_of_lt {b : BitVec 2} {s : State} (h : b.toNat < s.cfg.nbuf) (run : Buffer → Answer) :
    selectBuf b s run = run (s.buf b) := by
  rw [selectBuf, if_neg (by omega)]

theorem selectBuf_of_ge {b : BitVec 2} {s : State} (h : s.cfg.nbuf ≤ b.toNat) (run : Buffer → Answer) :
    selectBuf b s run = raise .illegal 0 s := by
  rw [selectBuf, if_pos h]

/-- `a` is the answer of a command that raised, or that completed having replaced what `put` puts. -/
def Ends {α : Type} (put : α → State) (s : State) (a : Answer) : Prop :=
  (∃ e info, e ≠ .ok ∧ a = .next (s.raised e info)) ∨ ∃ x r0 r1, a = .next ((put x).completed r0 r1)

theorem ends_raise {α : Type} {put : α → State} {s : State} {e : ErrCode} (h : e ≠ .ok) (info : Word) :
    Ends put s (raise e info s) :=
  .inl ⟨e, info, h, rfl⟩

theorem ends_complete {α : Type} {put : α → State} {s : State} (x : α) (r0 r1 : Word) :
    Ends put s (complete r0 r1 (put x)) :=
  .inr ⟨x, r0, r1, rfl⟩

theorem ends_complete_buf (s : State) (b : BitVec 2) (r0 r1 : Word) : Ends (s.setBuf b) s (complete r0 r1 s) :=
  .inr ⟨s.buf b, r0, r1, by rw [setBuf_self]; rfl⟩

theorem ends_complete_ht (s : State) (r0 r1 : Word) : Ends s.setHt s (complete r0 r1 s) :=
  .inr ⟨s.ht, r0, r1, rfl⟩

theorem selectBuf_ends {b : BitVec 2} {s : State} {run : Buffer → Answer} (h : ∀ B, Ends (s.setBuf b) s (run B)) :
    Ends (s.setBuf b) s (selectBuf b s run) := by
  unfold selectBuf
  split
  · exact ends_raise (by decide) 0
  · exact h _

theorem ends_ite {α : Type} {put : α → State} {s : State} {c : Prop} [Decidable c] {a a' : Answer}
    (h : Ends put s a) (h' : Ends put s a') : Ends put s (if c then a else a') := by
  split
  · exact h
  · exact h'

theorem nextElement_ends (c : Cursor) (len : Nat) (elem : Word) (s : State) (b : BitVec 2) (B : Buffer) :
    Ends (s.setBuf b) s (nextElement c len elem (s.setBuf b B) s) := by
  unfold nextElement
  split
  · exact ends_raise (by decide) 0
  · exact ends_raise (by decide) 0
  · exact ends_ite (ends_complete (put := s.setBuf b) B _ _) (ends_complete_buf s b _ _)

theorem appendTo_ends (b : BitVec 2) (v : Bool) (s : State) : Ends (s.setBuf b) s (appendTo b v s) :=
  selectBuf_ends fun _ => ends_ite (ends_raise (by decide) 0) (ends_complete (put := s.setBuf b) _ _ _)

theorem readNode_ends {s : State} {run : Node → Answer} (h : ∀ x, Ends s.setHt s (run x)) : Ends s.setHt s (readNode s run) :=
  ends_ite (ends_raise (by decide) 0) (ends_ite (ends_raise (by decide) 0) (h _))

/-! ### All commands -/

/-- A bit-buffer command on buffer `b` raises, or completes having replaced `B[b]`. -/
theorem exec_ends_buf {i : Instr} {b : BitVec 2} (hb : i.bufSelect = some b) (s : State) :
    Ends (s.setBuf b) s (exec i s) := by
  cases i <;> simp only [Instr.bufSelect, Option.some.injEq, reduceCtorEq] at hb <;> subst hb <;> unfold exec
  case bbAppend => exact appendTo_ends _ _ _
  case bbAppendChar => exact appendTo_ends _ _ _
  case bbClear => exact selectBuf_ends fun B => ends_complete (put := s.setBuf _) _ _ _
  case bbItbStart => exact selectBuf_ends fun B => ends_complete (put := s.setBuf _) _ _ _
  case bbItuStart => exact selectBuf_ends fun B => ends_complete (put := s.setBuf _) _ _ _
  case bbDeserBegin => exact selectBuf_ends fun B => ends_complete (put := s.setBuf _) _ _ _
  case bbInfo => exact selectBuf_ends fun B => ends_complete_buf _ _ _ _
  case bbSerLen => exact selectBuf_ends fun B => ends_complete_buf _ _ _ _
  case bbRemove =>
    exact selectBuf_ends fun B => ends_ite (ends_raise (by decide) 0) (ends_complete (put := s.setBuf _) _ _ _)
  case bbDeserByte =>
    exact selectBuf_ends fun B => ends_ite (ends_raise (by decide) 0) (ends_complete (put := s.setBuf _) _ _ _)
  case bbLast => exact selectBuf_ends fun B => ends_ite (ends_raise (by decide) 0) (ends_complete_buf _ _ _ _)
  case bbGetbit => exact selectBuf_ends fun B => ends_ite (ends_raise (by decide) 0) (ends_complete_buf _ _ _ _)
  case bbGetchar => exact selectBuf_ends fun B => ends_ite (ends_raise (by decide) 0) (ends_complete_buf _ _ _ _)
  case bbGetunit => exact selectBuf_ends fun B => ends_ite (ends_raise (by decide) 0) (ends_complete_buf _ _ _ _)
  case bbEqual => exact selectBuf_ends fun B => ends_ite (ends_raise (by decide) 0) (ends_complete_buf _ _ _ _)
  case bbSerByte => exact selectBuf_ends fun B => ends_ite (ends_raise (by decide) 0) (ends_complete_buf _ _ _ _)
  case bbItbNext => exact selectBuf_ends fun B => nextElement_ends _ _ _ _ _ _
  case bbItuNext => exact selectBuf_ends fun B => nextElement_ends _ _ _ _ _ _
  case bbDeserEnd =>
    refine selectBuf_ends fun B => ends_ite (ends_raise (by decide) 0) ?_
    split
    · exact ends_raise (by decide) _
    · exact ends_complete (put := s.setBuf _) _ _ _

/-- Any other command raises, or completes having replaced `H`. -/
theorem exec_ends_ht {i : Instr} (hb : i.bufSelect = none) (s : State) : Ends s.setHt s (exec i s) := by
  cases i <;> simp only [Instr.bufSelect, reduceCtorEq] at hb <;> unfold exec
  case nop => exact ends_complete_ht _ _ _
  case htInfo => exact ends_complete_ht _ _ _
  case htClear => exact ends_complete (put := s.setHt) _ _ _
  case htPush =>
    unfold execHtPush
    exact ends_ite (ends_raise (by decide) 0) (ends_ite (ends_raise (by decide) 0) (ends_ite (ends_raise (by decide) 0)
      (ends_complete (put := s.setHt) _ _ _)))
  case htBuild =>
    unfold execHtBuild
    exact ends_ite (ends_raise (by decide) 0) (ends_complete (put := s.setHt) _ _ _)
  case htNodeWeight => exact readNode_ends fun _ => ends_complete_ht _ _ _
  case htNodeParent => exact readNode_ends fun _ => ends_complete_ht _ _ _
  case htNodeChildren => exact readNode_ends fun _ => ends_complete_ht _ _ _
  case htNodeSymbol => exact readNode_ends fun _ => ends_complete_ht _ _ _
  case htNodeCode => exact readNode_ends fun _ => ends_ite (ends_raise (by decide) 0) (ends_complete_ht _ _ _)
  case htLookup =>
    unfold execHtLookup
    refine ends_ite (ends_raise (by decide) 0) ?_
    split
    · exact ends_raise (by decide) 0
    · exact ends_complete_ht _ _ _

/-- What a command that answers `t` has done: it raised, or it completed with one buffer replaced, or with the Huffman unit
replaced. -/
theorem exec_inv {i : Instr} {s t : State} (h : exec i s = .next t) :
    (∃ e info, e ≠ .ok ∧ t = s.raised e info) ∨
      (∃ b B r0 r1, i.bufSelect = some b ∧ t = (s.setBuf b B).completed r0 r1) ∨
      (∃ H r0 r1, i.bufSelect = none ∧ t = (s.setHt H).completed r0 r1) := by
  cases hb : i.bufSelect with
  | some b =>
    rcases exec_ends_buf hb s with ⟨e, info, he, ha⟩ | ⟨B, r0, r1, ha⟩
    · exact .inl ⟨e, info, he, by simpa [ha, eq_comm] using h⟩
    · exact .inr (.inl ⟨b, B, r0, r1, rfl, by simpa [ha, eq_comm] using h⟩)
  | none =>
    rcases exec_ends_ht hb s with ⟨e, info, he, ha⟩ | ⟨H, r0, r1, ha⟩
    · exact .inl ⟨e, info, he, by simpa [ha, eq_comm] using h⟩
    · exact .inr (.inr ⟨H, r0, r1, rfl, by simpa [ha, eq_comm] using h⟩)

/-! ### The host's own registers (70_reset_and_hazards.md R292)

The shared operations answer alike in two states that differ in CMD, ARG0 and ARG1 only. -/

/-- The answers `a` and `a'` are next states that differ in CMD, ARG0 and ARG1 only, which are `c`, `x`, `y` in `a'`. -/
def Alike (c x y : Word) (a a' : Answer) : Prop :=
  ∃ t : State, a = .next t ∧ a' = .next { t with cmd := c, arg0 := x, arg1 := y }

theorem alike_raise (c x y : Word) (e : ErrCode) (info : Word) (s : State) :
    Alike c x y (raise e info s) (raise e info { s with cmd := c, arg0 := x, arg1 := y }) :=
  ⟨_, rfl, rfl⟩

theorem alike_complete (c x y r0 r1 : Word) (s : State) :
    Alike c x y (complete r0 r1 s) (complete r0 r1 { s with cmd := c, arg0 := x, arg1 := y }) :=
  ⟨_, rfl, rfl⟩

theorem alike_ite {c x y : Word} {p : Prop} [Decidable p] {a a' d d' : Answer} (h : Alike c x y a a') (h' : Alike c x y d d') :
    Alike c x y (if p then a else d) (if p then a' else d') := by
  split
  · exact h
  · exact h'

theorem alike_selectBuf {c x y : Word} {b : BitVec 2} {s : State} {run run' : Buffer → Answer}
    (h : ∀ B, Alike c x y (run B) (run' B)) :
    Alike c x y (selectBuf b s run) (selectBuf b { s with cmd := c, arg0 := x, arg1 := y } run') :=
  alike_ite (alike_raise ..) (h _)

theorem alike_nextElement {c x y : Word} (cur : Cursor) (len : Nat) (elem : Word) (moved s : State) :
    Alike c x y (nextElement cur len elem moved s)
      (nextElement cur len elem { moved with cmd := c, arg0 := x, arg1 := y } { s with cmd := c, arg0 := x, arg1 := y }) := by
  unfold nextElement
  split
  · exact alike_raise ..
  · exact alike_raise ..
  · exact alike_ite (alike_complete ..) (alike_complete ..)

theorem alike_readNode {c x y : Word} {s : State} {run run' : Node → Answer} (h : ∀ n, Alike c x y (run n) (run' n)) :
    Alike c x y (readNode s run) (readNode { s with cmd := c, arg0 := x, arg1 := y } run') :=
  alike_ite (alike_raise ..) (alike_ite (alike_raise ..) (h _))

/-! ### Numbers as results -/

theorem word32_toNat {n : Nat} (h : n < 2 ^ 32) : (word32 n).toNat = n := by
  rw [word32, BitVec.toNat_ofNat, Nat.mod_eq_of_lt h]

theorem bitWord_eq (v : Bool) : bitWord v = if v then 1 else 0 := rfl

end Sys2Proof.Machine
end

