-- ==== Sys2Proof/Laws/Decode.lean ====
section
/-! SUPPORT. The fields of a command word, put together and taken apart, and masking field by field. -/

namespace Sys2Proof

open Sys2Proof.Machine

/-- A word from its four fields (30_encoding.md R80). -/
def fourFields (imm : BitVec 16) (rsv : BitVec 6) (buf : BitVec 2) (opc : BitVec 8) : Word :=
  (imm ++ rsv ++ buf ++ opc : BitVec (16 + 6 + 2 + 8))

theorem commandWord_eq (imm : BitVec 16) (buf : BitVec 2) (opc : BitVec 8) :
    commandWord imm buf opc = fourFields imm 0 buf opc := rfl

section Fields

variable (imm : BitVec 16) (rsv : BitVec 6) (buf : BitVec 2) (opc : BitVec 8)

@[simp] theorem fieldOpc_fourFields : fieldOpc (fourFields imm rsv buf opc) = opc := by
  apply BitVec.eq_of_getLsbD_eq
  intro i hi
  simp only [fieldOpc, fourFields, BitVec.getLsbD_append, BitVec.getLsbD_extractLsb']
  simp [hi]

@[simp] theorem fieldBuf_fourFields : fieldBuf (fourFields imm rsv buf opc) = buf := by
  apply BitVec.eq_of_getLsbD_eq
  intro i hi
  simp only [fieldBuf, fourFields, BitVec.getLsbD_append, BitVec.getLsbD_extractLsb']
  simp [hi]

@[simp] theorem fieldRsv_fourFields : fieldRsv (fourFields imm rsv buf opc) = rsv := by
  apply BitVec.eq_of_getLsbD_eq
  intro i hi
  simp only [fieldRsv, fourFields, BitVec.getLsbD_append, BitVec.getLsbD_extractLsb']
  simp [hi, show ¬ (10 + i < 8) by omega, show ¬ (10 + i - 8 < 2) by omega, show 10 + i - 8 - 2 = i by omega]

@[simp] theorem fieldImm_fourFields : fieldImm (fourFields imm rsv buf opc) = imm := by
  apply BitVec.eq_of_getLsbD_eq
  intro i hi
  simp only [fieldImm, fourFields, BitVec.getLsbD_append, BitVec.getLsbD_extractLsb']
  simp [hi, show ¬ (16 + i < 8) by omega, show ¬ (16 + i - 8 < 2) by omega,
    show ¬ (16 + i - 8 - 2 < 6) by omega, show 16 + i - 8 - 2 - 6 = i by omega]

@[simp] theorem fieldOpc_commandWord : fieldOpc (commandWord imm buf opc) = opc := fieldOpc_fourFields ..
@[simp] theorem fieldBuf_commandWord : fieldBuf (commandWord imm buf opc) = buf := fieldBuf_fourFields ..
@[simp] theorem fieldRsv_commandWord : fieldRsv (commandWord imm buf opc) = 0 := fieldRsv_fourFields ..
@[simp] theorem fieldImm_commandWord : fieldImm (commandWord imm buf opc) = imm := fieldImm_fourFields ..

end Fields

theorem fourFields_fields (w : Word) : fourFields (fieldImm w) (fieldRsv w) (fieldBuf w) (fieldOpc w) = w := by
  apply BitVec.eq_of_getLsbD_eq
  intro i hi
  simp only [fourFields, fieldImm, fieldRsv, fieldBuf, fieldOpc, BitVec.getLsbD_append, BitVec.getLsbD_extractLsb']
  by_cases h1 : i < 8
  · simp [h1]
  · by_cases h2 : i - 8 < 2
    · simp [h1, h2, show 8 + (i - 8) = i by omega]
    · by_cases h3 : i - 8 - 2 < 6
      · simp [h1, h2, h3, show 10 + (i - 8 - 2) = i by omega]
      · simp [h1, h2, h3, show i - 8 - 2 - 6 < 16 by omega, show 16 + (i - 8 - 2 - 6) = i by omega]

theorem fourFields_inj {a1 b1 : BitVec 16} {a2 b2 : BitVec 6} {a3 b3 : BitVec 2} {a4 b4 : BitVec 8} :
    fourFields a1 a2 a3 a4 = fourFields b1 b2 b3 b4 ↔ a1 = b1 ∧ a2 = b2 ∧ a3 = b3 ∧ a4 = b4 := by
  constructor
  · intro h
    exact ⟨by simpa using congrArg fieldImm h, by simpa using congrArg fieldRsv h, by simpa using congrArg fieldBuf h,
      by simpa using congrArg fieldOpc h⟩
  · rintro ⟨rfl, rfl, rfl, rfl⟩; rfl

/-- A word with RSV = 0 is the command word of its other fields (30_encoding.md R80). -/
theorem commandWord_fields {w : Word} (h : fieldRsv w = 0) :
    commandWord (fieldImm w) (fieldBuf w) (fieldOpc w) = w := by
  rw [commandWord_eq, ← h, fourFields_fields]

/-! ### Masking field by field -/

theorem fourFields_and (a1 b1 : BitVec 16) (a2 b2 : BitVec 6) (a3 b3 : BitVec 2) (a4 b4 : BitVec 8) :
    fourFields a1 a2 a3 a4 &&& fourFields b1 b2 b3 b4 =
      fourFields (a1 &&& b1) (a2 &&& b2) (a3 &&& b3) (a4 &&& b4) := by
  unfold fourFields
  rw [BitVec.and_append, BitVec.and_append, BitVec.and_append]

/-- Matching a row, read field by field. -/
theorem and_eq_fields (w : Word) (m1 c1 : BitVec 16) (m2 c2 : BitVec 6) (m3 c3 : BitVec 2) (m4 c4 : BitVec 8) :
    w &&& fourFields m1 m2 m3 m4 = fourFields c1 c2 c3 c4 ↔
      fieldImm w &&& m1 = c1 ∧ fieldRsv w &&& m2 = c2 ∧ fieldBuf w &&& m3 = c3 ∧ fieldOpc w &&& m4 = c4 := by
  conv_lhs => rw [← fourFields_fields w, fourFields_and, fourFields_inj]

/-- An IMM in which no bit of weight 2^k or more is set is below 2^k. -/
theorem imm_lt_iff (k : Nat) (imm : BitVec 16) :
    imm.toNat < 2 ^ k ↔ imm &&& (BitVec.allOnes 16 <<< k) = 0 := by
  constructor
  · intro h
    apply BitVec.eq_of_getLsbD_eq
    intro i hi
    simp only [BitVec.getLsbD_and, BitVec.getLsbD_shiftLeft, BitVec.getLsbD_allOnes]
    by_cases hk : i < k
    · simp [hk]
    · have : imm.getLsbD i = false := by
        rw [BitVec.getLsbD]
        exact Nat.testBit_lt_two_pow (lt_of_lt_of_le h (Nat.pow_le_pow_right (by omega) (by omega)))
      simp [this]
  · intro h
    apply Nat.lt_pow_two_of_testBit
    intro i hi
    by_cases h16 : i < 16
    · have := congrArg (fun v => v.getLsbD i) h
      simp only [BitVec.getLsbD_and, BitVec.getLsbD_shiftLeft, BitVec.getLsbD_allOnes] at this
      have hb : imm.getLsbD i = false := by
        simpa [h16, show ¬ i < k by omega, show i - k < 16 by omega] using this
      exact hb
    · exact imm.getLsbD_of_ge i (by omega)

/-- The three bounds of the opcode map, as the masks print them (30_encoding.md R85, R87). -/
theorem imm_zero_iff (imm : BitVec 16) : imm &&& 0xFFFF#16 = 0 ↔ imm.toNat < 1 := by
  have h := imm_lt_iff 0 imm
  rw [pow_zero, show BitVec.allOnes 16 <<< 0 = 0xFFFF#16 from by decide] at h
  exact h.symm

theorem imm_bit_iff (imm : BitVec 16) : imm &&& 0xFFFE#16 = 0 ↔ imm.toNat < 2 := by
  have h := imm_lt_iff 1 imm
  rw [pow_one, show BitVec.allOnes 16 <<< 1 = 0xFFFE#16 from by decide] at h
  exact h.symm

theorem imm_byte_iff (imm : BitVec 16) : imm &&& 0xFF00#16 = 0 ↔ imm.toNat < 256 := by
  have h := imm_lt_iff 8 imm
  rw [show (2 : Nat) ^ 8 = 256 from by norm_num, show BitVec.allOnes 16 <<< 8 = 0xFF00#16 from by decide] at h
  exact h.symm

/-- The IMM part of the five masks the opcode map uses. -/
theorem fieldImm_mask_huffman : fieldImm 0xFFFFFFFF#32 = 0xFFFF#16 := by decide
theorem fieldImm_mask_buffer : fieldImm 0xFFFFFCFF#32 = 0xFFFF#16 := by decide
theorem fieldImm_mask_append : fieldImm 0xFFFEFCFF#32 = 0xFFFE#16 := by decide
theorem fieldImm_mask_byte : fieldImm 0xFF00FCFF#32 = 0xFF00#16 := by decide
theorem fieldImm_mask_nodeCode : fieldImm 0x0000FFFF#32 = 0#16 := by decide

/-! ### The rows of the opcode map, field by field (30_encoding.md R87) -/

/-- The mask of a row: all of RSV and OPC, BUF where the command names no buffer, and the IMM bits the row fixes. -/
theorem opcodeRow_mask (i : Instr) : (opcodeRow i).1 =
    fourFields (fieldImm (opcodeRow i).1) 0x3F#6 (if i.bufSelect = none then 3#2 else 0#2) 0xFF#8 := by
  cases i <;> simp only [opcodeRow, Instr.bufSelect, reduceCtorEq, if_true, if_false] <;> decide

theorem opcodeRow_match (i : Instr) : (opcodeRow i).2 = fourFields 0 0 0 (fieldOpc (encode i)) := by
  cases i <;> simp only [opcodeRow, encode, fieldOpc_commandWord] <;> decide

/-- What it takes to match a row. -/
theorem matchesRow_iff (w : Word) (i : Instr) : MatchesRow w i ↔
    fieldRsv w = 0 ∧ fieldOpc w = fieldOpc (encode i) ∧ (i.bufSelect = none → fieldBuf w = 0) ∧
      fieldImm w &&& fieldImm (opcodeRow i).1 = 0 := by
  have h1 : fieldRsv w &&& 0x3F#6 = fieldRsv w := by
    rw [show (0x3F#6) = BitVec.allOnes 6 from by decide, BitVec.and_allOnes]
  have h2 : fieldOpc w &&& 0xFF#8 = fieldOpc w := by
    rw [show (0xFF#8) = BitVec.allOnes 8 from by decide, BitVec.and_allOnes]
  have h3 : fieldBuf w &&& 3#2 = fieldBuf w := by
    rw [show (3#2) = BitVec.allOnes 2 from by decide, BitVec.and_allOnes]
  unfold MatchesRow
  rw [opcodeRow_mask, opcodeRow_match, and_eq_fields, fieldImm_fourFields, h1, h2]
  by_cases h : i.bufSelect = none
  · simp only [h, if_true, h3, forall_const]; tauto
  · simp only [h, if_false, false_imp_iff, true_and, BitVec.and_zero]; tauto

end Sys2Proof
end

