-- ==== Sys2Proof/Laws/Meanings.lean ====
section
/-! SUPPORT. What each bit-buffer command answers when its buffer exists, with the buffer read once; the answer when it does
not; and the Huffman commands that read nodes. -/

namespace Sys2Proof.Machine

theorem exec_bbAppend (b : BitVec 2) (v : Bool) (s : State) : exec (.bbAppend b v) s = appendTo b v s := rfl

theorem exec_bbAppendChar (b : BitVec 2) (c : Byte) (s : State) :
    exec (.bbAppendChar b c) s = appendTo b (charBit c) s := rfl

/-- A bit-buffer command on a buffer that does not exist (30_encoding.md R82). -/
theorem exec_missing {i : Instr} {b : BitVec 2} {s : State} (hi : i.bufSelect = some b) (h : s.cfg.nbuf ≤ b.toNat) :
    exec i s = raise .illegal 0 s := by
  cases i <;> simp only [Instr.bufSelect, Option.some.injEq, reduceCtorEq] at hi <;> subst hi
  case bbAppend => rw [exec_bbAppend]; unfold appendTo; exact selectBuf_of_ge h _
  case bbAppendChar => rw [exec_bbAppendChar]; unfold appendTo; exact selectBuf_of_ge h _
  all_goals unfold exec; exact selectBuf_of_ge h _

section Present

variable {s : State} {b : BitVec 2} (h : b.toNat < s.cfg.nbuf)

include h

theorem exec_bbClear : exec (.bbClear b) s =
    complete 0 0 (s.setBuf b (Buffer.markStale { s.buf b with bitCount := 0, units := [0#8] })) := by
  simp only [exec, execBbClear]
  rw [selectBuf_of_lt h]

theorem appendTo_eq (v : Bool) : appendTo b v s =
    if (s.buf b).bitCount = s.cfg.maxBits then raise .capacity 0 s
    else complete (word32 ((s.buf b).bitCount + 1)) (word32 ((s.buf b).appendBit s.cfg.bitOrder v).units.length)
      (s.setBuf b ((s.buf b).appendBit s.cfg.bitOrder v)) := by
  rw [appendTo, selectBuf_of_lt h]
  rfl

theorem exec_bbRemove : exec (.bbRemove b) s =
    if (s.buf b).bitCount = 0 then raise .underflow 0 s
    else complete (bitWord ((s.buf b).removedBit s.cfg.bitOrder)) (word32 ((s.buf b).bitCount - 1))
      (s.setBuf b ((s.buf b).removeLast s.cfg.bitOrder)) := by
  simp only [exec, execBbRemove]
  rw [selectBuf_of_lt h]
  rfl

theorem exec_bbLast : exec (.bbLast b) s =
    if (s.buf b).bitCount = 0 then raise .empty 0 s
    else complete (bitWord ((s.buf b).bit s.cfg.bitOrder ((s.buf b).bitCount - 1))) 0 s := by
  simp only [exec, execBbLast]
  rw [selectBuf_of_lt h]

theorem exec_bbInfo : exec (.bbInfo b) s = complete (word32 (s.buf b).bitCount) (word32 (s.buf b).units.length) s := by
  simp only [exec, execBbInfo]
  rw [selectBuf_of_lt h]

theorem exec_bbGetbit : exec (.bbGetbit b) s =
    if (s.buf b).bitCount ≤ s.a0 then raise .range 0 s
    else complete (bitWord ((s.buf b).bit s.cfg.bitOrder s.a0)) 0 s := by
  simp only [exec, execBbGetbit]
  rw [selectBuf_of_lt h]

theorem exec_bbGetchar : exec (.bbGetchar b) s =
    if (s.buf b).bitCount ≤ s.a0 then raise .range 0 s
    else complete (bitChar ((s.buf b).bit s.cfg.bitOrder s.a0)) 0 s := by
  simp only [exec, execBbGetchar]
  rw [selectBuf_of_lt h]

theorem exec_bbGetunit : exec (.bbGetunit b) s =
    if (s.buf b).units.length ≤ s.a0 then raise .range 0 s
    else complete (((s.buf b).units.getD s.a0 0).setWidth 32) 0 s := by
  simp only [exec, execBbGetunit]
  rw [selectBuf_of_lt h]

theorem exec_bbEqual : exec (.bbEqual b) s =
    if s.cfg.nbuf ≤ s.a0 then raise .range 0 s
    else complete (bitWord ((s.buf b).sameBits (s.buf (BitVec.ofNat 2 s.a0)))) 0 s := by
  simp only [exec, execBbEqual]
  rw [selectBuf_of_lt h]

theorem exec_bbItbStart : exec (.bbItbStart b) s = complete 0 0 (s.setBuf b { s.buf b with itb := .started }) := by
  simp only [exec, execBbItbStart]
  rw [selectBuf_of_lt h]

theorem exec_bbItbNext : exec (.bbItbNext b) s =
    nextElement (s.buf b).itb (s.buf b).bitCount (bitWord ((s.buf b).bit s.cfg.bitOrder (s.buf b).itb.pos))
      (s.setBuf b { s.buf b with itb := (s.buf b).itb.advanced }) s := by
  simp only [exec, execBbItbNext]
  rw [selectBuf_of_lt h]

theorem exec_bbItuStart : exec (.bbItuStart b) s = complete 0 0 (s.setBuf b { s.buf b with itu := .started }) := by
  simp only [exec, execBbItuStart]
  rw [selectBuf_of_lt h]

theorem exec_bbItuNext : exec (.bbItuNext b) s =
    nextElement (s.buf b).itu (s.buf b).units.length (((s.buf b).units.getD (s.buf b).itu.pos 0).setWidth 32)
      (s.setBuf b { s.buf b with itu := (s.buf b).itu.advanced }) s := by
  simp only [exec, execBbItuNext]
  rw [selectBuf_of_lt h]

theorem exec_bbSerLen : exec (.bbSerLen b) s = complete (word32 (3 * s.cfg.w + (s.buf b).units.length)) 0 s := by
  simp only [exec, execBbSerLen]
  rw [selectBuf_of_lt h]

theorem exec_bbSerByte : exec (.bbSerByte b) s =
    if 3 * s.cfg.w + (s.buf b).units.length ≤ s.a0 then raise .range 0 s
    else complete ((((s.buf b).image s.cfg.w).getD s.a0 0).setWidth 32) 0 s := by
  simp only [exec, execBbSerByte]
  rw [selectBuf_of_lt h]

theorem exec_bbDeserBegin : exec (.bbDeserBegin b) s =
    complete 0 0 (s.setBuf b { s.buf b with stg := { active := true, bytes := [], ovf := false } }) := by
  simp only [exec, execBbDeserBegin]
  rw [selectBuf_of_lt h]

theorem exec_bbDeserByte (d : Byte) : exec (.bbDeserByte b d) s =
    if (s.buf b).stg.active = false then raise .sequence 0 s
    else complete (word32 ((s.buf b).stg.receive s.cfg.scap d).bytes.length)
      (bitWord ((s.buf b).stg.receive s.cfg.scap d).ovf)
      (s.setBuf b { s.buf b with stg := (s.buf b).stg.receive s.cfg.scap d }) := by
  simp only [exec, execBbDeserByte]
  rw [selectBuf_of_lt h]

theorem exec_bbDeserEnd : exec (.bbDeserEnd b) s =
    if (s.buf b).stg.active = false then raise .sequence 0 s
    else match validate s.cfg.bitOrder s.cfg.w (s.buf b).stg.bytes (s.buf b).stg.ovf with
      | some r => raise .malformed r.code s
      | none =>
        complete (word32 (imageBitCount s.cfg.w (s.buf b).stg.bytes)) (word32 (imageUnitCount s.cfg.w (s.buf b).stg.bytes))
          (s.setBuf b ((s.buf b).install s.cfg.w (s.buf b).stg.bytes)) := by
  simp only [exec, execBbDeserEnd]
  rw [selectBuf_of_lt h]
  rfl

end Present

/-- One NEXT with an ACTIVE cursor (41_bitbuffer_serial.md R142, R144). -/
theorem nextElement_active {c : Cursor} (h : c.state = .active) (len : Nat) (elem : Word) (moved s : State) :
    nextElement c len elem moved s = if c.pos < len then complete elem 1 moved else complete 0 0 s := by
  rcases c with ⟨st, pos⟩
  subst h
  rfl

/-- A command that reads node k = A0, when there is a tree and the node exists (42_huffman.md R211 to R215). -/
theorem readNode_eq {s : State} {x : Node} (hb : s.ht.phase = .built) (hx : s.ht.nodes[s.latA0.toNat]? = some x)
    (run : Node → Answer) : readNode s run = run x := by
  have hlt : s.latA0.toNat < s.ht.nodes.length := (List.getElem?_eq_some_iff.mp hx).1
  have e : nodeAt s.ht.nodes s.a0 = x := by
    show nodeAt s.ht.nodes s.latA0.toNat = x
    simp [nodeAt, List.getD, hx]
  rw [readNode, if_neg (by rw [hb]; decide), if_neg (by simpa [State.a0] using hlt), e]

section Nodes

variable {s : State} {x : Node} (hb : s.ht.phase = .built) (hx : s.ht.nodes[s.latA0.toNat]? = some x)

include hb hx

theorem exec_htNodeWeight : exec .htNodeWeight s = complete (word32 x.weight) 0 s := by
  simp only [exec, execHtNodeWeight]
  rw [readNode_eq hb hx]

theorem exec_htNodeParent : exec .htNodeParent s = complete (optWord x.parent) 0 s := by
  simp only [exec, execHtNodeParent]
  rw [readNode_eq hb hx]

theorem exec_htNodeChildren : exec .htNodeChildren s = complete (optWord x.left) (optWord x.right) s := by
  simp only [exec, execHtNodeChildren]
  rw [readNode_eq hb hx]

theorem exec_htNodeSymbol : exec .htNodeSymbol s = complete (optWord x.symbol) 0 s := by
  simp only [exec, execHtNodeSymbol]
  rw [readNode_eq hb hx]

theorem exec_htNodeCode (j : BitVec 16) : exec (.htNodeCode j) s =
    if s.cfg.codeChunks ≤ j.toNat then raise .range 0 s
    else complete (word32 x.code.length) (word32 (codeChunk x.code j.toNat)) s := by
  simp only [exec, execHtNodeCode]
  rw [readNode_eq hb hx]

end Nodes

end Sys2Proof.Machine
end

