-- ==== Sys2Proof/Laws/PerInstr.lean ====
section
/-! SUPPORT. Statements for all commands, one lemma per constructor. Family `RowMatch`: the encoder agrees with the opcode
map as the spec prints it (30_encoding.md R80, R87). -/

namespace Sys2Proof.Laws.RowMatch

open Sys2Proof Sys2Proof.Machine

/-- The word of a command has RSV = 0, and its row's match is its opcode where the row's mask reads it: under the mask of its
own row, the match's fields are IMM 0, RSV 0, BUF 0 and the command's OPC. -/
def Statement (i : Instr) : Prop :=
  fieldRsv (encode i) = 0 ∧ (opcodeRow i).2 = fourFields 0 0 0 (fieldOpc (encode i)) ∧
    fieldOpc (opcodeRow i).1 = 0xFF ∧ fieldRsv (opcodeRow i).1 = 0x3F

theorem of_word {imm : BitVec 16} {buf : BitVec 2} {opc : BitVec 8} {i : Instr} (h : encode i = commandWord imm buf opc)
    (hm : (opcodeRow i).2 = fourFields 0 0 0 opc) (ho : fieldOpc (opcodeRow i).1 = 0xFF)
    (hr : fieldRsv (opcodeRow i).1 = 0x3F) : Statement i := by
  refine ⟨?_, ?_, ho, hr⟩
  · rw [h, fieldRsv_commandWord]
  · rw [h, fieldOpc_commandWord, hm]

theorem nop : Statement .nop :=
  of_word rfl (by simp only [opcodeRow]; decide) (by simp only [opcodeRow]; decide) (by simp only [opcodeRow]; decide)
theorem bbClear (b : BitVec 2) : Statement (.bbClear b) :=
  of_word rfl (by simp only [opcodeRow]; decide) (by simp only [opcodeRow]; decide) (by simp only [opcodeRow]; decide)
theorem bbAppend (b : BitVec 2) (v : Bool) : Statement (.bbAppend b v) :=
  of_word rfl (by simp only [opcodeRow]; decide) (by simp only [opcodeRow]; decide) (by simp only [opcodeRow]; decide)
theorem bbAppendChar (b : BitVec 2) (c : Byte) : Statement (.bbAppendChar b c) :=
  of_word rfl (by simp only [opcodeRow]; decide) (by simp only [opcodeRow]; decide) (by simp only [opcodeRow]; decide)
theorem bbRemove (b : BitVec 2) : Statement (.bbRemove b) :=
  of_word rfl (by simp only [opcodeRow]; decide) (by simp only [opcodeRow]; decide) (by simp only [opcodeRow]; decide)
theorem bbLast (b : BitVec 2) : Statement (.bbLast b) :=
  of_word rfl (by simp only [opcodeRow]; decide) (by simp only [opcodeRow]; decide) (by simp only [opcodeRow]; decide)
theorem bbInfo (b : BitVec 2) : Statement (.bbInfo b) :=
  of_word rfl (by simp only [opcodeRow]; decide) (by simp only [opcodeRow]; decide) (by simp only [opcodeRow]; decide)
theorem bbGetbit (b : BitVec 2) : Statement (.bbGetbit b) :=
  of_word rfl (by simp only [opcodeRow]; decide) (by simp only [opcodeRow]; decide) (by simp only [opcodeRow]; decide)
theorem bbGetchar (b : BitVec 2) : Statement (.bbGetchar b) :=
  of_word rfl (by simp only [opcodeRow]; decide) (by simp only [opcodeRow]; decide) (by simp only [opcodeRow]; decide)
theorem bbGetunit (b : BitVec 2) : Statement (.bbGetunit b) :=
  of_word rfl (by simp only [opcodeRow]; decide) (by simp only [opcodeRow]; decide) (by simp only [opcodeRow]; decide)
theorem bbEqual (b : BitVec 2) : Statement (.bbEqual b) :=
  of_word rfl (by simp only [opcodeRow]; decide) (by simp only [opcodeRow]; decide) (by simp only [opcodeRow]; decide)
theorem bbItbStart (b : BitVec 2) : Statement (.bbItbStart b) :=
  of_word rfl (by simp only [opcodeRow]; decide) (by simp only [opcodeRow]; decide) (by simp only [opcodeRow]; decide)
theorem bbItbNext (b : BitVec 2) : Statement (.bbItbNext b) :=
  of_word rfl (by simp only [opcodeRow]; decide) (by simp only [opcodeRow]; decide) (by simp only [opcodeRow]; decide)
theorem bbItuStart (b : BitVec 2) : Statement (.bbItuStart b) :=
  of_word rfl (by simp only [opcodeRow]; decide) (by simp only [opcodeRow]; decide) (by simp only [opcodeRow]; decide)
theorem bbItuNext (b : BitVec 2) : Statement (.bbItuNext b) :=
  of_word rfl (by simp only [opcodeRow]; decide) (by simp only [opcodeRow]; decide) (by simp only [opcodeRow]; decide)
theorem bbSerLen (b : BitVec 2) : Statement (.bbSerLen b) :=
  of_word rfl (by simp only [opcodeRow]; decide) (by simp only [opcodeRow]; decide) (by simp only [opcodeRow]; decide)
theorem bbSerByte (b : BitVec 2) : Statement (.bbSerByte b) :=
  of_word rfl (by simp only [opcodeRow]; decide) (by simp only [opcodeRow]; decide) (by simp only [opcodeRow]; decide)
theorem bbDeserBegin (b : BitVec 2) : Statement (.bbDeserBegin b) :=
  of_word rfl (by simp only [opcodeRow]; decide) (by simp only [opcodeRow]; decide) (by simp only [opcodeRow]; decide)
theorem bbDeserByte (b : BitVec 2) (d : Byte) : Statement (.bbDeserByte b d) :=
  of_word rfl (by simp only [opcodeRow]; decide) (by simp only [opcodeRow]; decide) (by simp only [opcodeRow]; decide)
theorem bbDeserEnd (b : BitVec 2) : Statement (.bbDeserEnd b) :=
  of_word rfl (by simp only [opcodeRow]; decide) (by simp only [opcodeRow]; decide) (by simp only [opcodeRow]; decide)
theorem htClear : Statement .htClear :=
  of_word rfl (by simp only [opcodeRow]; decide) (by simp only [opcodeRow]; decide) (by simp only [opcodeRow]; decide)
theorem htPush : Statement .htPush :=
  of_word rfl (by simp only [opcodeRow]; decide) (by simp only [opcodeRow]; decide) (by simp only [opcodeRow]; decide)
theorem htBuild : Statement .htBuild :=
  of_word rfl (by simp only [opcodeRow]; decide) (by simp only [opcodeRow]; decide) (by simp only [opcodeRow]; decide)
theorem htInfo : Statement .htInfo :=
  of_word rfl (by simp only [opcodeRow]; decide) (by simp only [opcodeRow]; decide) (by simp only [opcodeRow]; decide)
theorem htNodeWeight : Statement .htNodeWeight :=
  of_word rfl (by simp only [opcodeRow]; decide) (by simp only [opcodeRow]; decide) (by simp only [opcodeRow]; decide)
theorem htNodeParent : Statement .htNodeParent :=
  of_word rfl (by simp only [opcodeRow]; decide) (by simp only [opcodeRow]; decide) (by simp only [opcodeRow]; decide)
theorem htNodeChildren : Statement .htNodeChildren :=
  of_word rfl (by simp only [opcodeRow]; decide) (by simp only [opcodeRow]; decide) (by simp only [opcodeRow]; decide)
theorem htNodeSymbol : Statement .htNodeSymbol :=
  of_word rfl (by simp only [opcodeRow]; decide) (by simp only [opcodeRow]; decide) (by simp only [opcodeRow]; decide)
theorem htNodeCode (j : BitVec 16) : Statement (.htNodeCode j) :=
  of_word rfl (by simp only [opcodeRow]; decide) (by simp only [opcodeRow]; decide) (by simp only [opcodeRow]; decide)
theorem htLookup : Statement .htLookup :=
  of_word rfl (by simp only [opcodeRow]; decide) (by simp only [opcodeRow]; decide) (by simp only [opcodeRow]; decide)

end Sys2Proof.Laws.RowMatch
end

