-- ==== Sys2Proof/Laws/Port.lean ====
section
/-! SUPPORT. The host's register port: which accesses it admits, and what an access, the engine's turn and an input can do. -/

namespace Sys2Proof.Machine

/-! ### Admission (20_memory.md R65) -/

theorem portOffset_eq_some {base addr width off : Nat} :
    portOffset base addr width = some off ↔ width = 4 ∧ addr = base + off ∧ off < 0x40 ∧ off % 4 = 0 := by
  unfold portOffset
  split
  · next h => rw [Option.some.injEq]; omega
  · next h => simp only [reduceCtorEq, false_iff]; omega

theorem portOffset_base (base : Nat) {off : Nat} (h : off < 0x40) (h4 : off % 4 = 0) :
    portOffset base (base + off) 4 = some off :=
  portOffset_eq_some.mpr ⟨rfl, rfl, h, h4⟩

theorem portOffset_eq_none {base addr width : Nat} :
    portOffset base addr width = none ↔ width ≠ 4 ∨ addr < base ∨ base + 0x40 ≤ addr ∨ (addr - base) % 4 ≠ 0 := by
  unfold portOffset
  split
  · next h => simp only [reduceCtorEq, false_iff]; omega
  · next h => simp only [true_iff]; omega

theorem portAccess_base {s : State} (hr : s.inReset = false) {off : Nat} (h : off < 0x40) (h4 : off % 4 = 0)
    (run : PortReg → State) :
    portAccess (s.cfg.hbbBase + off) 4 s run = .next { run (regAt off) with hostPos := s.hostPos + 1 } := by
  unfold portAccess
  rw [hr, if_neg (by decide), portOffset_base _ h h4]

/-- Everything an access can do. -/
theorem portAccess_eq_next {addr width : Nat} {s t : State} {run : PortReg → State} :
    portAccess addr width s run = .next t ↔
      s.inReset = false ∧ ∃ off, width = 4 ∧ addr = s.cfg.hbbBase + off ∧ off < 0x40 ∧ off % 4 = 0 ∧
        t = { run (regAt off) with hostPos := s.hostPos + 1 } := by
  unfold portAccess
  cases hr : s.inReset
  · rw [if_neg (by decide)]
    cases ho : portOffset s.cfg.hbbBase addr width with
    | none =>
      simp only [reduceCtorEq, true_and, false_iff]
      rintro ⟨off, h1, h2, h3, h4, -⟩
      rw [portOffset_eq_some.mpr ⟨h1, h2, h3, h4⟩] at ho
      cases ho
    | some off =>
      obtain ⟨h1, h2, h3, h4⟩ := portOffset_eq_some.mp ho
      simp only [Host.Outcome.next.injEq, true_and]
      constructor
      · intro h; exact ⟨off, h1, h2, h3, h4, h.symm⟩
      · rintro ⟨off', -, h2', -, -, rfl⟩
        rw [show off' = off by omega]
  · simp

/-- CMD stands at offset 0x10 and nowhere else. -/
theorem regAt_eq_cmd {off : Nat} : regAt off = .cmd ↔ off = 0x10 := by
  constructor
  · intro h
    unfold regAt at h
    split at h <;> first | rfl | cases h
  · rintro rfl; rfl

theorem regAt_eq_status {off : Nat} : regAt off = .status ↔ off = 0x24 := by
  constructor
  · intro h
    unfold regAt at h
    split at h <;> first | rfl | cases h
  · rintro rfl; rfl

/-! ### What no register write touches -/

theorem writeReg_kept (s : State) (v : Word) (r : PortReg) :
    (s.writeReg v r).cfg = s.cfg ∧ (s.writeReg v r).bufs = s.bufs ∧ (s.writeReg v r).ht = s.ht ∧
      (s.writeReg v r).inReset = s.inReset ∧ (s.writeReg v r).inputs = s.inputs := by
  cases r <;> try exact ⟨rfl, rfl, rfl, rfl, rfl⟩
  simp only [State.writeReg, State.writeCmd]
  split <;> exact ⟨rfl, rfl, rfl, rfl, rfl⟩

/-- A write sets OVERRUN only at CMD while BUSY = 1 (10_state.md R27). -/
theorem writeReg_overrun {s : State} {v : Word} {r : PortReg} (h0 : s.overrun = false) (h : (s.writeReg v r).overrun = true) :
    r = .cmd ∧ s.busy = true := by
  cases r <;> simp_all [State.writeReg, State.writeCmd]
  split at h <;> simp_all

/-- A write clears a sticky bit only at STATUS with the data bit 1 (10_state.md R26, R27). -/
theorem writeReg_sticky {s : State} {v : Word} {r : PortReg} (h0 : s.errSticky = true) (h : (s.writeReg v r).errSticky = false) :
    r = .status ∧ v.getLsbD 9 = true := by
  cases r <;> simp_all [State.writeReg, State.writeCmd]
  split at h <;> simp_all

theorem writeReg_overrun_clear {s : State} {v : Word} {r : PortReg} (h0 : s.overrun = true)
    (h : (s.writeReg v r).overrun = false) : r = .status ∧ v.getLsbD 10 = true := by
  cases r <;> simp_all [State.writeReg, State.writeCmd]
  split at h <;> simp_all

/-! ### The engine's turn (70_reset_and_hazards.md R290) -/

theorem engineTurn_run {s : State} (hr : s.inReset = false) (hb : s.busy = true) : engineTurn s = runCommand s := by
  simp [engineTurn, hr, hb]

theorem runCommand_ok {s : State} {i : Instr} (h : decode s.latCmd = .ok i) : runCommand s = exec i s := by
  simp [runCommand, h]

theorem runCommand_error {s : State} {e : DecodeError} (h : decode s.latCmd = .error e) :
    runCommand s = raise .illegal 0 s := by
  simp [runCommand, h]

/-- Everything the engine's turn can do. -/
theorem engineTurn_eq_next {s t : State} (h : engineTurn s = .next t) :
    t = s ∨ (s.busy = true ∧ s.inReset = false ∧
      ((∃ i, decode s.latCmd = .ok i ∧ exec i s = .next t) ∨ t = s.raised .illegal 0)) := by
  unfold engineTurn at h
  split at h
  · exact .inl (by simpa [eq_comm] using h)
  · next hr =>
    split at h
    · next hb =>
      refine .inr ⟨hb, by simpa using hr, ?_⟩
      unfold runCommand at h
      split at h
      · next i hi => exact .inl ⟨i, hi, h⟩
      · exact .inr (by simpa [raise, eq_comm] using h)
    · exact .inl (by simpa [eq_comm] using h)

/-! ### One step -/

theorem step_nil {s : State} (h : s.inputs = []) : step s = engineTurn s := by
  unfold step
  rw [h]

theorem step_cons {s : State} {e : Input} {rest : List Input} (h : s.inputs = e :: rest) :
    step s = takeInput e { s with inputs := rest } := by
  unfold step
  rw [h]

end Sys2Proof.Machine
end

