-- ==== Sys2Proof/Laws/Units.lean ====
section
/-! SUPPORT. The bits of a storage unit and of a buffer, and what AppendBit, RemoveLast and MarkStale do to them. -/

namespace Sys2Proof.Machine

/-! ### One unit -/

theorem physBit_lt (o : BitOrder) {p : Nat} (hp : p < 8) : physBit o p < 8 := by
  cases o
  · exact hp
  · simp only [physBit]; omega

theorem physBit_eq_iff (o : BitOrder) {p q : Nat} (hp : p < 8) (hq : q < 8) :
    physBit o q = physBit o p ↔ q = p := by
  cases o
  · exact Iff.rfl
  · simp only [physBit]; omega

theorem one_shift_getLsbD (a : Nat) {b : Nat} (hb : b < 8) : (1#8 <<< a).getLsbD b = decide (b = a) := by
  simp only [BitVec.getLsbD_shiftLeft, BitVec.getLsbD_one, hb, decide_true, Bool.true_and]
  by_cases hlt : b < a
  · simp [hlt, show b ≠ a by omega]
  · by_cases hab : b = a
    · simp [hab]
    · simp [hlt, hab, show b - a ≠ 0 by omega]

theorem unitBit_setUnitBit (o : BitOrder) (u : Byte) (v : Bool) {p q : Nat} (hp : p < 8) (hq : q < 8) :
    unitBit o (setUnitBit o u p v) q = if q = p then v else unitBit o u q := by
  have hq' := physBit_lt o hq
  have key : (1#8 <<< physBit o p).getLsbD (physBit o q) = decide (q = p) := by
    rw [one_shift_getLsbD _ hq', decide_eq_decide.mpr (physBit_eq_iff o hp hq)]
  unfold unitBit setUnitBit
  cases v
  · rw [if_neg (by decide), BitVec.getLsbD_and, BitVec.getLsbD_not, key]
    by_cases h : q = p <;> simp [h, hq']
  · rw [if_pos rfl, BitVec.getLsbD_or, key]
    by_cases h : q = p <;> simp [h]

theorem unit_ext (o : BitOrder) {u w : Byte} (h : ∀ p < 8, unitBit o u p = unitBit o w p) : u = w := by
  apply BitVec.eq_of_getLsbD_eq
  intro i hi
  cases o
  · exact h i hi
  · have := h (7 - i) (by omega)
    simpa [unitBit, physBit, show 7 - (7 - i) = i by omega] using this

theorem setUnitBit_self (o : BitOrder) (u : Byte) {p : Nat} (hp : p < 8) : setUnitBit o u p (unitBit o u p) = u :=
  unit_ext o fun q hq => by
    rw [unitBit_setUnitBit o u _ hp hq]; split <;> simp_all

theorem setUnitBit_setUnitBit (o : BitOrder) (u : Byte) {p : Nat} (hp : p < 8) (v w : Bool) :
    setUnitBit o (setUnitBit o u p v) p w = setUnitBit o u p w :=
  unit_ext o fun q hq => by
    simp only [unitBit_setUnitBit o _ _ hp hq]; split <;> rfl

theorem unitBit_zero (o : BitOrder) (p : Nat) : unitBit o 0#8 p = false := by simp [unitBit]

/-! ### The bits of a buffer -/

@[simp] theorem bits_length (o : BitOrder) (B : Buffer) : (B.bits o).length = B.bitCount := by simp [Buffer.bits]

theorem bits_getElem? (o : BitOrder) (B : Buffer) (k : Nat) :
    (B.bits o)[k]? = if k < B.bitCount then some (B.bit o k) else none := by
  unfold Buffer.bits
  split <;> simp_all

theorem I1_length {B : Buffer} (h : B.I1) : B.units.length = if B.bitCount = 0 then 1 else (B.bitCount - 1) / 8 + 1 := by
  unfold Buffer.I1 ceilDiv at h
  split <;> omega

/-- By I1 and I2 a position of any unit that no logical bit holds is 0, and one that a logical bit holds is that bit. -/
theorem unitBit_of_valid {o : BitOrder} {B : Buffer} (h1 : B.I1) (h2 : B.I2 o) {k p : Nat} (hp : p < 8)
    (hk : k < B.units.length) :
    unitBit o (B.units.getD k 0) p = if 8 * k + p < B.bitCount then B.bit o (8 * k + p) else false := by
  have hl := I1_length h1
  split
  · next h => simp only [Buffer.bit]; rw [show (8 * k + p) / 8 = k by omega, show (8 * k + p) % 8 = p by omega]
  · next h =>
    have : k = B.units.length - 1 := by split at hl <;> omega
    subst this
    exact h2 p hp (by omega)

/-- Two buffers with I1 and I2 and the same bits have the same contents (10_state.md R43: "`units` is a function of the bit
sequence alone"). -/
theorem units_eq_of_bits_eq {o : BitOrder} {B C : Buffer} (hB1 : B.I1) (hB2 : B.I2 o) (hC1 : C.I1) (hC2 : C.I2 o)
    (h : B.bits o = C.bits o) : B.bitCount = C.bitCount ∧ B.units = C.units := by
  have hc : B.bitCount = C.bitCount := by simpa using congrArg List.length h
  have hl : B.units.length = C.units.length := by unfold Buffer.I1 at *; rw [hB1, hC1, hc]
  refine ⟨hc, List.ext_getElem hl fun k hk hk' => unit_ext o fun p hp => ?_⟩
  have hb := unitBit_of_valid hB1 hB2 hp hk
  have hc' := unitBit_of_valid hC1 hC2 hp hk'
  have e1 : B.units.getD k 0 = B.units[k] := by simp [List.getD, hk]
  have e2 : C.units.getD k 0 = C.units[k] := by simp [List.getD, hk']
  rw [e1] at hb; rw [e2] at hc'
  rw [hb, hc', hc]
  split
  · next hlt =>
    have := congrArg (fun l => l[8 * k + p]?) h
    simp only [bits_getElem?, hc, if_pos hlt, Option.some.injEq] at this
    exact this
  · rfl

/-! ### MarkStale -/

theorem markStale_cursor (c : Cursor) : Staled c c.markStale := by
  rcases c with ⟨s, p⟩
  cases s <;> exact ⟨rfl, rfl⟩

@[simp] theorem markStale_cursor_pos (c : Cursor) : c.markStale.pos = c.pos := (markStale_cursor c).pos

@[simp] theorem markStale_bitCount (B : Buffer) : B.markStale.bitCount = B.bitCount := rfl
@[simp] theorem markStale_units (B : Buffer) : B.markStale.units = B.units := rfl
@[simp] theorem markStale_stg (B : Buffer) : B.markStale.stg = B.stg := rfl
@[simp] theorem markStale_itb (B : Buffer) : B.markStale.itb = B.itb.markStale := rfl
@[simp] theorem markStale_itu (B : Buffer) : B.markStale.itu = B.itu.markStale := rfl
@[simp] theorem markStale_bit (o : BitOrder) (B : Buffer) (k : Nat) : B.markStale.bit o k = B.bit o k := rfl
@[simp] theorem markStale_bits (o : BitOrder) (B : Buffer) : B.markStale.bits o = B.bits o := rfl

/-! ### AppendBit -/

theorem grownUnits_length {B : Buffer} (h : B.I1) : B.grownUnits.length = B.bitCount / 8 + 1 := by
  have hl := I1_length h
  unfold Buffer.grownUnits
  split
  · next hc => simp only [List.length_append, List.length_singleton]; split at hl <;> omega
  · next hc => split at hl <;> omega

/-- The grown units hold the old bits, and 0 at every position at or beyond bitCount. -/
theorem grownUnits_bit {o : BitOrder} {B : Buffer} (h1 : B.I1) (h2 : B.I2 o) {k : Nat} (hk : k < 8 * (B.bitCount / 8 + 1)) :
    unitBit o (B.grownUnits.getD (k / 8) 0) (k % 8) = if k < B.bitCount then B.bit o k else false := by
  have hl := I1_length h1
  by_cases hin : k / 8 < B.units.length
  · have e : B.grownUnits.getD (k / 8) 0 = B.units.getD (k / 8) 0 := by
      unfold Buffer.grownUnits
      split
      · simp [List.getD, List.getElem?_append_left hin]
      · rfl
    rw [e, unitBit_of_valid h1 h2 (Nat.mod_lt _ (by omega)) hin, show 8 * (k / 8) + k % 8 = k by omega]
  · have hc : 0 < B.bitCount ∧ B.bitCount % 8 = 0 := by split at hl <;> omega
    have hge : ¬ k < B.bitCount := by split at hl <;> omega
    have e : B.grownUnits.getD (k / 8) 0 = 0#8 := by
      unfold Buffer.grownUnits
      rw [if_pos hc, List.getD, List.getElem?_append_right (by omega)]
      have : k / 8 - B.units.length = 0 := by split at hl <;> omega
      simp [this]
    rw [e, if_neg hge, unitBit_zero]

@[simp] theorem appendBit_bitCount (o : BitOrder) (v : Bool) (B : Buffer) : (B.appendBit o v).bitCount = B.bitCount + 1 := rfl
@[simp] theorem appendBit_stg (o : BitOrder) (v : Bool) (B : Buffer) : (B.appendBit o v).stg = B.stg := rfl
@[simp] theorem appendBit_itb (o : BitOrder) (v : Bool) (B : Buffer) : (B.appendBit o v).itb = B.itb.markStale := rfl
@[simp] theorem appendBit_itu (o : BitOrder) (v : Bool) (B : Buffer) : (B.appendBit o v).itu = B.itu.markStale := rfl

theorem appendBit_units_length {B : Buffer} (h : B.I1) (o : BitOrder) (v : Bool) :
    (B.appendBit o v).units.length = B.bitCount / 8 + 1 := by
  simp [Buffer.appendBit, grownUnits_length h]

/-- Every position of the buffer AppendBit leaves: the new bit at bitCount, else what the grown units hold. -/
theorem appendBit_unitBit {o : BitOrder} {B : Buffer} (h1 : B.I1) (h2 : B.I2 o) (v : Bool) {k : Nat}
    (hk : k < 8 * (B.bitCount / 8 + 1)) :
    unitBit o ((B.appendBit o v).units.getD (k / 8) 0) (k % 8) =
      if k = B.bitCount then v else if k < B.bitCount then B.bit o k else false := by
  have hg := grownUnits_length h1
  have hu : (B.appendBit o v).units = B.grownUnits.set (B.bitCount / 8)
      (setUnitBit o (B.grownUnits.getD (B.bitCount / 8) 0) (B.bitCount % 8) v) := by
    simp only [Buffer.appendBit, markStale_units, hg, Nat.add_sub_cancel]
  rw [hu]
  by_cases hq : k / 8 = B.bitCount / 8
  · have e : ∀ u : Byte, (B.grownUnits.set (B.bitCount / 8) u).getD (k / 8) 0 = u := by
      intro u; rw [hq, List.getD, List.getElem?_set_self (by omega)]; rfl
    rw [e, unitBit_setUnitBit o _ v (Nat.mod_lt _ (by omega)) (Nat.mod_lt _ (by omega)), ← hq, grownUnits_bit h1 h2 hk]
    by_cases hkb : k = B.bitCount
    · simp [hkb]
    · have : ¬ k % 8 = B.bitCount % 8 := by omega
      simp [hkb, this]
  · have e : ∀ u : Byte, (B.grownUnits.set (B.bitCount / 8) u).getD (k / 8) 0 = B.grownUnits.getD (k / 8) 0 := by
      intro u; rw [List.getD, List.getElem?_set_ne (by omega)]; rfl
    have : k ≠ B.bitCount := fun h => hq (by rw [h])
    rw [e, grownUnits_bit h1 h2 hk, if_neg this]

theorem appendBit_bits {o : BitOrder} {B : Buffer} (h1 : B.I1) (h2 : B.I2 o) (v : Bool) :
    (B.appendBit o v).bits o = B.bits o ++ [v] := by
  apply List.ext_getElem?
  intro k
  rw [bits_getElem?, appendBit_bitCount]
  by_cases hk : k < B.bitCount + 1
  · have := appendBit_unitBit h1 h2 v (k := k) (by omega)
    rw [if_pos hk, Buffer.bit, this]
    by_cases hkb : k = B.bitCount
    · simp [hkb]
    · have hlt : k < B.bitCount := by omega
      rw [List.getElem?_append_left (by simpa using hlt), bits_getElem?]
      simp [hlt, hkb]
  · rw [if_neg hk, List.getElem?_eq_none (by simp; omega)]

theorem appendBit_I1 {B : Buffer} (h : B.I1) (o : BitOrder) (v : Bool) : (B.appendBit o v).I1 := by
  unfold Buffer.I1 ceilDiv
  rw [appendBit_units_length h, appendBit_bitCount]; omega

theorem appendBit_I2 {o : BitOrder} {B : Buffer} (h1 : B.I1) (h2 : B.I2 o) (v : Bool) : (B.appendBit o v).I2 o := by
  intro p hp hle
  rw [appendBit_units_length h1, appendBit_bitCount, Nat.add_sub_cancel] at *
  have := appendBit_unitBit h1 h2 v (k := 8 * (B.bitCount / 8) + p) (by omega)
  rw [show (8 * (B.bitCount / 8) + p) / 8 = B.bitCount / 8 by omega, show (8 * (B.bitCount / 8) + p) % 8 = p by omega] at this
  rw [this, if_neg (by omega), if_neg (by omega)]

theorem appendBit_valid {p : Params} {B : Buffer} (h : B.Valid p) (hc : B.bitCount < p.maxBits) (v : Bool) :
    (B.appendBit p.bitOrder v).Valid p where
  count_le := by simpa using hc
  i1 := appendBit_I1 h.i1 _ _
  i2 := appendBit_I2 h.i1 h.i2 _
  itb_le := by simpa using h.itb_le
  itu_le := by simpa using h.itu_le
  staged_le := by simpa using h.staged_le

/-! ### RemoveLast -/

@[simp] theorem removeLast_bitCount (o : BitOrder) (B : Buffer) : (B.removeLast o).bitCount = B.bitCount - 1 := rfl
@[simp] theorem removeLast_stg (o : BitOrder) (B : Buffer) : (B.removeLast o).stg = B.stg := rfl
@[simp] theorem removeLast_itb (o : BitOrder) (B : Buffer) : (B.removeLast o).itb = B.itb.markStale := rfl
@[simp] theorem removeLast_itu (o : BitOrder) (B : Buffer) : (B.removeLast o).itu = B.itu.markStale := rfl

theorem removeLast_units_length {B : Buffer} (h : B.I1) (hb : 0 < B.bitCount) (o : BitOrder) :
    (B.removeLast o).units.length = if B.bitCount = 1 then 1 else (B.bitCount - 2) / 8 + 1 := by
  have hl := I1_length h
  rw [if_neg (by omega)] at hl
  simp only [Buffer.removeLast, markStale_units, List.length_set]
  split
  · next hc => simp only [List.length_take, List.length_set]; split <;> omega
  · next hc => simp only [List.length_set]; split <;> omega

/-- Every position of the buffer RemoveLast leaves: the bits before the last one, and 0 beyond. -/
theorem removeLast_unitBit {o : BitOrder} {B : Buffer} (h1 : B.I1) (h2 : B.I2 o) (hb : 0 < B.bitCount) {k : Nat}
    (hk : k / 8 < (B.removeLast o).units.length) :
    unitBit o ((B.removeLast o).units.getD (k / 8) 0) (k % 8) = if k < B.bitCount - 1 then B.bit o k else false := by
  have hl := I1_length h1
  rw [if_neg (by omega)] at hl
  have hlen := removeLast_units_length h1 hb o
  rw [hlen] at hk
  have hin : k / 8 < B.units.length := by split at hk <;> omega
  have hmod : k % 8 < 8 := Nat.mod_lt _ (by omega)
  have hu : (B.removeLast o).units.getD (k / 8) 0 =
      (B.units.set (B.units.length - 1)
        (setUnitBit o (B.units.getD (B.units.length - 1) 0) ((B.bitCount - 1) % 8) false)).getD (k / 8) 0 := by
    simp only [Buffer.removeLast, markStale_units]
    split
    · next hc =>
      simp only [List.length_set] at hc
      rw [List.getD, List.getElem?_take_of_lt (by split at hk <;> omega)]
      rfl
    · rfl
  rw [hu]
  have hv := unitBit_of_valid h1 h2 hmod hin
  rw [show 8 * (k / 8) + k % 8 = k by omega] at hv
  by_cases hq : k / 8 = B.units.length - 1
  · rw [hq, List.getD, List.getElem?_set_self (by omega), Option.getD_some,
      unitBit_setUnitBit o _ _ (Nat.mod_lt _ (by omega)) hmod, ← hq, hv]
    by_cases hkb : k = B.bitCount - 1
    · simp [hkb]
    · have : ¬ k % 8 = (B.bitCount - 1) % 8 := by omega
      rw [if_neg this]
      by_cases hlt : k < B.bitCount - 1
      · rw [if_pos hlt, if_pos (by omega)]
      · rw [if_neg hlt, if_neg (by omega)]
  · rw [List.getD, List.getElem?_set_ne (by omega)]
    have : B.units[k / 8]?.getD 0 = B.units.getD (k / 8) 0 := rfl
    rw [this, hv, if_pos (by omega), if_pos (by omega)]

theorem removedBit_eq {o : BitOrder} {B : Buffer} (h : B.I1) (hb : 0 < B.bitCount) :
    B.removedBit o = B.bit o (B.bitCount - 1) := by
  have hl := I1_length h
  rw [if_neg (by omega)] at hl
  simp only [Buffer.removedBit, Buffer.bit, hl, Nat.add_sub_cancel]

theorem removeLast_bits {o : BitOrder} {B : Buffer} (h1 : B.I1) (h2 : B.I2 o) (hb : 0 < B.bitCount) :
    B.bits o = (B.removeLast o).bits o ++ [B.removedBit o] := by
  apply List.ext_getElem?
  intro k
  have hlen := removeLast_units_length h1 hb o
  rw [bits_getElem?]
  by_cases hk : k < B.bitCount - 1
  · rw [List.getElem?_append_left (by simpa using hk), bits_getElem?, removeLast_bitCount, if_pos (by omega), if_pos hk]
    have := removeLast_unitBit h1 h2 hb (k := k) (by rw [hlen]; split <;> omega)
    rw [if_pos hk] at this
    exact congrArg some this.symm
  · by_cases hkb : k = B.bitCount - 1
    · rw [if_pos (by omega), List.getElem?_append_right (by simp; omega)]
      simp [hkb, removedBit_eq h1 hb]
    · rw [if_neg (by omega), List.getElem?_eq_none (by simp; omega)]

theorem removeLast_I1 {B : Buffer} (h : B.I1) (hb : 0 < B.bitCount) (o : BitOrder) : (B.removeLast o).I1 := by
  unfold Buffer.I1 ceilDiv
  rw [removeLast_units_length h hb, removeLast_bitCount]; split <;> omega

theorem removeLast_I2 {o : BitOrder} {B : Buffer} (h1 : B.I1) (h2 : B.I2 o) (hb : 0 < B.bitCount) : (B.removeLast o).I2 o := by
  intro p hp hle
  have hlen := removeLast_units_length h1 hb o
  have hpos : 0 < (B.removeLast o).units.length := by rw [hlen]; split <;> omega
  generalize hL : (B.removeLast o).units.length = L at *
  have := removeLast_unitBit h1 h2 hb (k := 8 * (L - 1) + p) (by rw [hL]; omega)
  rw [show (8 * (L - 1) + p) / 8 = L - 1 by omega, show (8 * (L - 1) + p) % 8 = p by omega] at this
  rw [this, if_neg (by simpa using hle)]

theorem removeLast_valid {p : Params} {B : Buffer} (h : B.Valid p) (hb : 0 < B.bitCount) :
    (B.removeLast p.bitOrder).Valid p where
  count_le := le_trans (Nat.sub_le _ _) h.count_le
  i1 := removeLast_I1 h.i1 hb _
  i2 := removeLast_I2 h.i1 h.i2 hb
  itb_le := by simpa using h.itb_le
  itu_le := by simpa using h.itu_le
  staged_le := by simpa using h.staged_le

/-! ### The empty buffer -/

theorem emptied_I1 (B : Buffer) : Buffer.I1 { B with bitCount := 0, units := [0#8] } := by
  simp [Buffer.I1, ceilDiv]

theorem emptied_I2 (o : BitOrder) (B : Buffer) : Buffer.I2 o { B with bitCount := 0, units := [0#8] } :=
  fun _ _ _ => unitBit_zero o _

end Sys2Proof.Machine
end

