-- ==== Sys2Proof/Laws/Wire.lean ====
section
/-! SUPPORT. Little-endian bytes, the wire image of a buffer, and what Validate accepts. -/

namespace Sys2Proof.Machine

/-! ### Little-endian bytes (00_scope.md R11) -/

@[simp] theorem leBytes_length (v n : Nat) : (leBytes v n).length = n := by
  induction n generalizing v with
  | zero => rfl
  | succ n ih => simp [leBytes, ih]

theorem leBytes_getElem? (v n k : Nat) (hk : k < n) : (leBytes v n)[k]? = some (BitVec.ofNat 8 (v / 256 ^ k)) := by
  induction n generalizing v k with
  | zero => omega
  | succ n ih =>
    cases k with
    | zero => simp [leBytes]
    | succ k => simp [leBytes, ih (v / 256) k (by omega), Nat.div_div_eq_div_mul, Nat.pow_succ, Nat.mul_comm]

theorem leValue_lt (l : List Byte) : leValue l < 256 ^ l.length := by
  induction l with
  | nil => simp [leValue]
  | cons u us ih =>
    have := u.isLt
    simp only [leValue, List.length_cons, Nat.pow_succ]
    omega

theorem leValue_leBytes (v n : Nat) (hv : v < 256 ^ n) : leValue (leBytes v n) = v := by
  induction n generalizing v with
  | zero => simp at hv; simp [leBytes, leValue, hv]
  | succ n ih =>
    have : v / 256 < 256 ^ n := by rw [Nat.pow_succ] at hv; omega
    simp only [leBytes, leValue, ih _ this, BitVec.toNat_ofNat]
    omega

theorem leBytes_leValue (l : List Byte) : leBytes (leValue l) l.length = l := by
  induction l with
  | nil => rfl
  | cons u us ih =>
    have := u.isLt
    simp only [leValue, List.length_cons, leBytes]
    rw [show (u.toNat + 256 * leValue us) / 256 = leValue us by omega, ih]
    congr 1
    apply BitVec.eq_of_toNat_eq
    rw [BitVec.toNat_ofNat]; omega

/-! ### Widths -/

theorem w_eq (p : Params) : p.w = 4 ∨ p.w = 8 := by
  unfold Params.w
  cases p.wordBytes <;> simp [WordBytes.bytes]

/-- Every count of a legal instance fits a metadata field (20_memory.md R60, 00_scope.md R8). -/
theorem lt_field {p : Params} {n : Nat} (h : n < 2 ^ 32) : n < 256 ^ p.w := by
  rcases w_eq p with hw | hw <;> rw [hw]
  · exact h
  · exact lt_trans h (by norm_num)

theorem maxBits_lt {p : Params} (h : p.Legal) : p.maxBits < 2 ^ 32 := by
  have := h.2.1.2
  unfold Params.maxBits
  omega

theorem scap_lt {p : Params} (h : p.Legal) : p.scap < 2 ^ 32 := by
  have := h.2.1.2
  unfold Params.scap
  rcases w_eq p with hw | hw <;> omega

theorem units_length_le {p : Params} {B : Buffer} (h : B.Valid p) (hp : p.Legal) :
    1 ≤ B.units.length ∧ B.units.length ≤ p.maxUnits := by
  have hl := I1_length h.i1
  have := h.count_le
  have := hp.2.1.1
  unfold Params.maxBits at *
  split at hl <;> omega

/-! ### The image (41_bitbuffer_serial.md R150) -/

theorem image_length (w : Nat) (B : Buffer) : (B.image w).length = 3 * w + B.units.length := by
  simp [Buffer.image]; omega

theorem image_take (w : Nat) (B : Buffer) : (B.image w).take w = leBytes B.bitCount w := by
  simp [Buffer.image]

theorem image_drop (w : Nat) (B : Buffer) :
    (B.image w).drop w = leBytes B.units.length w ++ (leBytes (B.units.length - 1) w ++ B.units) := by
  simp [Buffer.image]

theorem image_drop2 (w : Nat) (B : Buffer) :
    (B.image w).drop (2 * w) = leBytes (B.units.length - 1) w ++ B.units := by
  rw [Nat.two_mul, ← List.drop_drop, image_drop]
  simp

theorem image_drop3 (w : Nat) (B : Buffer) : (B.image w).drop (3 * w) = B.units := by
  rw [show 3 * w = 2 * w + w by omega, ← List.drop_drop, image_drop2]
  simp

section Fields

variable {p : Params} {B : Buffer} (hp : p.Legal) (hB : B.Valid p)

include hp hB

theorem imageBitCount_image : imageBitCount p.w (B.image p.w) = B.bitCount := by
  rw [imageBitCount, image_take, leValue_leBytes]
  exact lt_field (lt_of_le_of_lt hB.count_le (maxBits_lt hp))

theorem imageUnitCount_image : imageUnitCount p.w (B.image p.w) = B.units.length := by
  have := (units_length_le hB hp).2
  have := hp.2.1.2
  rw [imageUnitCount, image_drop, List.take_left' (leBytes_length _ _), leValue_leBytes]
  exact lt_field (by omega)

theorem imageUnitIndex_image : imageUnitIndex p.w (B.image p.w) = B.units.length - 1 := by
  have := (units_length_le hB hp).2
  have := hp.2.1.2
  rw [imageUnitIndex, image_drop2, List.take_left' (leBytes_length _ _), leValue_leBytes]
  exact lt_field (by omega)

theorem imageUnits_image : imageUnits p.w (B.image p.w) = B.units := by
  rw [imageUnits, imageUnitCount_image hp hB, image_drop3, List.take_length]

end Fields

/-! ### Validate (41_bitbuffer_serial.md R162) -/

theorem tailNonzero_eq_false {o : BitOrder} {bc u : Nat} {last : Byte} :
    tailNonzero o bc u last = false ↔ ∀ p < 8, bc ≤ 8 * (u - 1) + p → unitBit o last p = false := by
  simp [tailNonzero]

/-- What an accepted image is: complete, and consistent in every field. -/
theorem validate_eq_none {o : BitOrder} {w : Nat} {bytes : List Byte} {ovf : Bool} :
    validate o w bytes ovf = none ↔
      ovf = false ∧ 3 * w ≤ bytes.length ∧ bytes.length = 3 * w + imageUnitCount w bytes ∧
      0 < imageUnitCount w bytes ∧ imageUnitIndex w bytes = imageUnitCount w bytes - 1 ∧
      imageUnitCount w bytes = max 1 (ceilDiv (imageBitCount w bytes) 8) ∧
      tailNonzero o (imageBitCount w bytes) (imageUnitCount w bytes)
        (bytes.getD (3 * w + imageUnitCount w bytes - 1) 0) = false := by
  simp only [validate]
  constructor
  · intro h
    split at h; · cases h
    next h1 =>
    split at h; · cases h
    next h2 =>
    split at h; · cases h
    next h3 =>
    split at h; · cases h
    next h4 =>
    split at h; · cases h
    next h5 =>
    split at h; · cases h
    next h6 =>
    simp only [not_or, Bool.not_eq_true, not_and, not_not, not_lt] at h1 h2 h4 h5 h6
    exact ⟨h2.1, h1 h2.1, h2.2, Nat.pos_of_ne_zero h3, h4, h5, h6⟩
  · rintro ⟨h1, h2, h3, h4, h5, h6, h7⟩
    rw [if_neg (by omega), if_neg (by simp [h1, ← h3]), if_neg (by omega), if_neg (by simp [h5]), if_neg (by simp [← h6]),
      if_neg (by rw [h7]; exact Bool.false_ne_true)]

/-- The fields and the units of an image of sufficient length, put together again. -/
theorem image_fields {w : Nat} {bytes : List Byte} (h : bytes.length = 3 * w + imageUnitCount w bytes) :
    leBytes (imageBitCount w bytes) w ++ leBytes (imageUnitCount w bytes) w ++ leBytes (imageUnitIndex w bytes) w ++
      imageUnits w bytes = bytes := by
  have e1 : leBytes (imageBitCount w bytes) w = bytes.take w := by
    have := leBytes_leValue (bytes.take w)
    rwa [List.length_take, Nat.min_eq_left (by omega)] at this
  have e2 : leBytes (imageUnitCount w bytes) w = (bytes.drop w).take w := by
    have := leBytes_leValue ((bytes.drop w).take w)
    rwa [List.length_take, List.length_drop, Nat.min_eq_left (by omega)] at this
  have e3 : leBytes (imageUnitIndex w bytes) w = (bytes.drop (2 * w)).take w := by
    have := leBytes_leValue ((bytes.drop (2 * w)).take w)
    rwa [List.length_take, List.length_drop, Nat.min_eq_left (by omega)] at this
  have e4 : imageUnits w bytes = bytes.drop (3 * w) := by
    rw [imageUnits, List.take_of_length_le (by rw [List.length_drop]; omega)]
  have s1 : (bytes.drop w).take w ++ (bytes.drop (2 * w)) = bytes.drop w := by
    rw [show 2 * w = w + w by omega, ← List.drop_drop, List.take_append_drop]
  have s2 : (bytes.drop (2 * w)).take w ++ (bytes.drop (3 * w)) = bytes.drop (2 * w) := by
    rw [show 3 * w = 2 * w + w by omega, ← List.drop_drop, List.take_append_drop]
  rw [e1, e2, e3, e4, List.append_assoc, List.append_assoc, s2, s1, List.take_append_drop]

theorem imageUnits_length {w : Nat} {bytes : List Byte} (h : bytes.length = 3 * w + imageUnitCount w bytes) :
    (imageUnits w bytes).length = imageUnitCount w bytes := by
  rw [imageUnits, List.length_take, List.length_drop]; omega

/-- What BB_DESER_END installs from an accepted image is a valid buffer with that image (41_bitbuffer_serial.md R163). -/
theorem install_image {o : BitOrder} {w : Nat} {bytes : List Byte} {ovf : Bool} (h : validate o w bytes ovf = none)
    (B : Buffer) : (B.install w bytes).image w = bytes := by
  obtain ⟨-, -, h3, -, h5, -, -⟩ := validate_eq_none.mp h
  have := image_fields h3
  rw [h5] at this
  simp only [Buffer.image, Buffer.install, markStale_bitCount, markStale_units, imageUnits_length h3]
  exact this

theorem install_I1 {o : BitOrder} {w : Nat} {bytes : List Byte} {ovf : Bool} (h : validate o w bytes ovf = none)
    (B : Buffer) : (B.install w bytes).I1 := by
  obtain ⟨-, -, h3, -, -, h6, -⟩ := validate_eq_none.mp h
  simp only [Buffer.I1, Buffer.install, markStale_bitCount, markStale_units, imageUnits_length h3]
  exact h6

theorem install_I2 {o : BitOrder} {w : Nat} {bytes : List Byte} {ovf : Bool} (h : validate o w bytes ovf = none)
    (B : Buffer) : (B.install w bytes).I2 o := by
  obtain ⟨-, -, h3, h4, -, -, h7⟩ := validate_eq_none.mp h
  have hlast : (imageUnits w bytes).getD (imageUnitCount w bytes - 1) 0 =
      bytes.getD (3 * w + imageUnitCount w bytes - 1) 0 := by
    rw [imageUnits, List.getD, List.getD, List.getElem?_take_of_lt (by omega), List.getElem?_drop,
      show 3 * w + (imageUnitCount w bytes - 1) = 3 * w + imageUnitCount w bytes - 1 by omega]
  intro p hp hle
  simp only [Buffer.install, markStale_bitCount, markStale_units, imageUnits_length h3, hlast] at *
  exact tailNonzero_eq_false.mp h7 p hp hle

theorem install_valid {p : Params} {bytes : List Byte} {ovf : Bool} (h : validate p.bitOrder p.w bytes ovf = none)
    (hlen : bytes.length ≤ p.scap) {B : Buffer} (hB : B.Valid p) : (B.install p.w bytes).Valid p where
  count_le := by
    obtain ⟨-, -, h3, -, -, h6, -⟩ := validate_eq_none.mp h
    simp only [Buffer.install, markStale_bitCount, Params.maxBits, Params.scap, ceilDiv] at *
    omega
  i1 := install_I1 h B
  i2 := install_I2 h B
  itb_le := by simpa [Buffer.install] using hB.itb_le
  itu_le := by simpa [Buffer.install] using hB.itu_le
  staged_le := Nat.zero_le _

/-! ### The session (41_bitbuffer_serial.md R161) -/

theorem receive_of_lt {scap : Nat} {g : Staging} (h : g.bytes.length < scap) (d : Byte) :
    g.receive scap d = ⟨true, g.bytes ++ [d], g.ovf⟩ := by
  rw [Staging.receive, if_pos h]

theorem receive_of_ge {scap : Nat} {g : Staging} (h : scap ≤ g.bytes.length) (d : Byte) :
    g.receive scap d = ⟨true, g.bytes, true⟩ := by
  rw [Staging.receive, if_neg (by omega)]

theorem receive_length_le {scap : Nat} {g : Staging} (h : g.bytes.length ≤ scap) (d : Byte) :
    (g.receive scap d).bytes.length ≤ scap := by
  rcases Nat.lt_or_ge g.bytes.length scap with hlt | hge
  · rw [receive_of_lt hlt]; simpa using hlt
  · rw [receive_of_ge hge]; exact h

end Sys2Proof.Machine
end

