-- ==== Sys2Proof/Tests/Slice0.lean ====
section
/-! SUPPORT. Small tests. Expected results come from the worked vectors of 95_test_vectors.md (named V-… below) or from
the encodings of 30_encoding.md written out by hand. -/

namespace Sys2Proof.Tests

open Sys2Proof.Machine

/-! ### Well-formedness: one refused term for each check -/

def withNbuf (k : Nat) : Params := { Params.reference with nbuf := k }

theorem test_wellFormed_refuses_missing_buffer : Instr.wellFormed Params.reference (.bbClear 2) = false := by decide
theorem test_wellFormed_accepts_b3_of_four : Instr.wellFormed (withNbuf 4) (.bbInfo 3) = true := by decide
theorem test_reference_legal : Params.reference.Legal := by decide
theorem test_legal_refuses_no_buffer : ¬ (withNbuf 0).Legal := by decide
theorem test_legal_refuses_five_buffers : ¬ (withNbuf 5).Legal := by decide
theorem test_legal_refuses_no_unit : ¬ { Params.reference with maxUnits := 0 }.Legal := by decide
theorem test_legal_refuses_wide_symbol : ¬ { Params.reference with symBits := 17 }.Legal := by decide
theorem test_legal_refuses_many_entries : ¬ { Params.reference with maxEntries := 32769 }.Legal := by decide
theorem test_legal_refuses_wide_weight : ¬ { Params.reference with weightBits := 25 }.Legal := by decide

/-! ### Decoding: words written out from 30_encoding.md R80, R87, R98 -/

def reads (w : Word) : Option Instr := decodeTableWord 32 w.toNat

theorem test_decode_nop : reads 0b0000000000000000_000000_00_00000000 = some .nop := by decide
theorem test_decode_bbClear : reads 0b0000000000000000_000000_01_00010000 = some (.bbClear 1) := by decide
theorem test_decode_bbAppend : reads 0b0000000000000001_000000_01_00010001 = some (.bbAppend 1 true) := by decide
theorem test_decode_bbAppendChar : reads 0b0000000000110000_000000_01_00010010 = some (.bbAppendChar 1 0x30) := by decide
theorem test_decode_bbRemove : reads 0b0000000000000000_000000_01_00010011 = some (.bbRemove 1) := by decide
theorem test_decode_bbLast : reads 0b0000000000000000_000000_10_00010100 = some (.bbLast 2) := by decide
theorem test_decode_bbInfo : reads 0b0000000000000000_000000_11_00010101 = some (.bbInfo 3) := by decide
theorem test_decode_bbGetbit : reads 0b0000000000000000_000000_00_00010110 = some (.bbGetbit 0) := by decide
theorem test_decode_bbGetchar : reads 0b0000000000000000_000000_01_00010111 = some (.bbGetchar 1) := by decide
theorem test_decode_bbGetunit : reads 0b0000000000000000_000000_01_00011000 = some (.bbGetunit 1) := by decide
theorem test_decode_bbEqual : reads 0b0000000000000000_000000_01_00011001 = some (.bbEqual 1) := by decide
theorem test_decode_bbItbStart : reads 0b0000000000000000_000000_01_00011010 = some (.bbItbStart 1) := by decide
theorem test_decode_bbItbNext : reads 0b0000000000000000_000000_01_00011011 = some (.bbItbNext 1) := by decide
theorem test_decode_bbItuStart : reads 0b0000000000000000_000000_01_00011100 = some (.bbItuStart 1) := by decide
theorem test_decode_bbItuNext : reads 0b0000000000000000_000000_01_00011101 = some (.bbItuNext 1) := by decide
theorem test_decode_bbSerLen : reads 0b0000000000000000_000000_01_00100000 = some (.bbSerLen 1) := by decide
theorem test_decode_bbSerByte : reads 0b0000000000000000_000000_01_00100001 = some (.bbSerByte 1) := by decide
theorem test_decode_bbDeserBegin : reads 0b0000000000000000_000000_01_00100010 = some (.bbDeserBegin 1) := by decide
theorem test_decode_bbDeserByte : reads 0b0000000010110100_000000_00_00100011 = some (.bbDeserByte 0 0xB4) := by decide
theorem test_decode_bbDeserEnd : reads 0b0000000000000000_000000_01_00100100 = some (.bbDeserEnd 1) := by decide
theorem test_decode_htClear : reads 0b0000000000000000_000000_00_00110000 = some .htClear := by decide
theorem test_decode_htPush : reads 0b0000000000000000_000000_00_00110001 = some .htPush := by decide
theorem test_decode_htBuild : reads 0b0000000000000000_000000_00_00110010 = some .htBuild := by decide
theorem test_decode_htInfo : reads 0b0000000000000000_000000_00_00110011 = some .htInfo := by decide
theorem test_decode_htNodeWeight : reads 0b0000000000000000_000000_00_00110100 = some .htNodeWeight := by decide
theorem test_decode_htNodeParent : reads 0b0000000000000000_000000_00_00110101 = some .htNodeParent := by decide
theorem test_decode_htNodeChildren : reads 0b0000000000000000_000000_00_00110110 = some .htNodeChildren := by decide
theorem test_decode_htNodeSymbol : reads 0b0000000000000000_000000_00_00110111 = some .htNodeSymbol := by decide
theorem test_decode_htNodeCode : reads 0b1000000000000010_000000_00_00111000 = some (.htNodeCode 0x8002) := by decide
theorem test_decode_htLookup : reads 0b0000000000000000_000000_00_00111001 = some .htLookup := by decide

theorem test_decode_unassigned : decode 0x0000001E = .error .unassignedOpcode := by decide
theorem test_decode_reserved_bits : decode 0x00000410 = .error .reservedBits := by decide
theorem test_decode_huffman_with_buf : decode 0x00000130 = .error .bufNotZero := by decide
theorem test_decode_append_imm_bit1 : decode 0x00020011 = .error .immNotZero := by decide
theorem test_decode_char_imm_bit8 : decode 0x01000012 = .error .immNotZero := by decide
theorem test_decode_clear_with_imm : decode 0x00010010 = .error .immNotZero := by decide

/-! ### Commands: one step from a small state -/

/-- A buffer with given units and bitCount, as 95_test_vectors.md writes it. -/
def buf (units : List Byte) (bc : Nat) : Buffer := { Buffer.reset with units := units, bitCount := bc }

/-- Reset with B0, and ARG0, ARG1 as the host wrote them. -/
def start (B : Buffer) (a0 a1 : Word := 0) : State :=
  { State.reset.setBuf 0 B with arg0 := a0, arg1 := a1 }

/-- The state after one step that runs the command word `w`. -/
def ran (s : State) (w : Nat) : State :=
  match step (s.withFetchWord 32 w) with
  | .next t => t
  | _       => s

/-- ERR, RES0 and RES1 of that state. -/
def result (s : State) (w : Nat) : ErrCode × Word × Word :=
  ((ran s w).err, (ran s w).res0, (ran s w).res1)

def msb (s : State) : State := { s with cfg := { s.cfg with bitOrder := .msbFirst } }

/-- "001011010", V-EX1. -/
def nine : Buffer := buf [0xB4, 0x00] 9

-- V-CT2, V-CT1
theorem test_nop_clears_err : (ran { State.reset with err := .underflow, errSticky := true } 0).statusWord = 0x200 := by decide
-- V-BB17; 40 R106: an ACTIVE cursor becomes STALE
theorem test_clear : ((ran (start nine) 0x10).buf 0).units = [0x00] ∧ result (start nine) 0x10 = (.ok, 0, 0) := by decide
theorem test_clear_marks_stale : ((ran (start { nine with itb := ⟨.active, 2⟩ }) 0x10).buf 0).itb = ⟨.stale, 2⟩ := by decide
-- V-BB2, V-BB5
theorem test_append_allocates : ((ran (start (buf [0xFF] 8)) 0x11).buf 0).units = [0xFF, 0x00]
    ∧ result (start (buf [0xFF] 8)) 0x11 = (.ok, 9, 2) := by decide
theorem test_append_msb_first : ((ran (msb (start (buf [0x00] 0))) 0x00010011).buf 0).units = [0x80] := by decide
-- V-BB8, V-BB9
theorem test_append_char_other : ((ran (start (buf [0x01] 1)) 0x007A0012).buf 0).units = [0x01]
    ∧ result (start (buf [0x01] 1)) 0x007A0012 = (.ok, 2, 1) := by decide
theorem test_append_char_one : ((ran State.reset 0x00310012).buf 0).units = [0x01] := by decide
-- V-BB12, V-BB14, V-BB16
theorem test_remove_deallocates : ((ran (start (buf [0xFF, 0x01] 9)) 0x13).buf 0).units = [0xFF]
    ∧ result (start (buf [0xFF, 0x01] 9)) 0x13 = (.ok, 1, 8) ∧ result State.reset 0x13 = (.underflow, 0, 0) := by decide
theorem test_remove_keeps_zero_unit : ((ran (start (buf [0x00, 0x01] 10)) 0x13).buf 0).units = [0x00, 0x01]
    ∧ result (start (buf [0x00, 0x01] 10)) 0x13 = (.ok, 0, 9) := by decide
-- V-BB21, V-BB20
theorem test_last_empty : result State.reset 0x14 = (.empty, 0, 0) := by decide
theorem test_last : result (start (buf [0x00, 0x01] 9)) 0x14 = (.ok, 1, 0) := by decide
-- V-BB22
theorem test_info_empty : result State.reset 0x15 = (.ok, 0, 1) := by decide
-- V-BB24, V-BB26
theorem test_getbit : result (start (buf [0x34] 6) 2) 0x16 = (.ok, 1, 0) := by decide
theorem test_getbit_range : result (start (buf [0x34] 6) 6) 0x16 = (.range, 0, 0) := by decide
-- V-BB29, V-BB31
theorem test_getchar : result (start (buf [0x34] 6) 0) 0x17 = (.ok, 0x30, 0) := by decide
theorem test_getchar_range : result (start (buf [0x34] 6) 0xFFFFFFFF) 0x17 = (.range, 0, 0) := by decide
-- V-BB32, V-BB34
theorem test_getunit : result (start (buf [0x34] 6) 0) 0x18 = (.ok, 0x34, 0) := by decide
theorem test_getunit_range : result (start (buf [0x34] 6) 1) 0x18 = (.range, 0, 0) := by decide
-- V-BB36, V-BB40
theorem test_equal : result ((start nine 1).setBuf 1 nine) 0x19 = (.ok, 1, 0) := by decide
theorem test_equal_range : result (start nine 2) 0x19 = (.range, 0, 0) := by decide
-- V-BB41, V-CT18
theorem test_missing_buffer_illegal : result State.reset 0x210 = (.illegal, 0, 0) := by decide
theorem test_b3_of_four_legal : result (State.resetWith (withNbuf 4)) 0x310 = (.ok, 0, 0) := by decide
-- V-IT2, V-IT4
theorem test_itb_start : ((ran (start (buf [0x34] 6)) 0x1A).buf 0).itb = ⟨.active, 0⟩ := by decide
theorem test_itb_next : result (start { buf [0x34] 6 with itb := ⟨.active, 2⟩ }) 0x1B = (.ok, 1, 1)
    ∧ ((ran (start { buf [0x34] 6 with itb := ⟨.active, 2⟩ }) 0x1B).buf 0).itb = ⟨.active, 3⟩ := by decide
-- V-IT7, V-IT8 (for the unit cursor), V-IT11, V-IT16
theorem test_itb_next_stale : result (start { buf [0x74] 7 with itb := ⟨.stale, 1⟩ }) 0x1B = (.iterStale, 0, 0) := by decide
theorem test_itu_start : ((ran (start { buf [0x74] 7 with itu := ⟨.stale, 0⟩ }) 0x1C).buf 0).itu = ⟨.active, 0⟩ := by decide
theorem test_itu_next : result (start { nine with itu := ⟨.active, 0⟩ }) 0x1D = (.ok, 0xB4, 1) := by decide
theorem test_itu_next_idle : result (start nine) 0x1D = (.sequence, 0, 0) := by decide
-- V-SER3, V-SER2
theorem test_ser_len : result (start nine) 0x20 = (.ok, 0x1A, 0) := by decide
theorem test_ser_len_w4 : result (State.resetWith { Params.reference with wordBytes := .four }) 0x20 = (.ok, 0xD, 0) := by decide
-- V-SER8, V-SER10
theorem test_ser_byte : result (start nine 0x18) 0x21 = (.ok, 0xB4, 0) := by decide
theorem test_ser_byte_range : result (start nine 0x1A) 0x21 = (.range, 0, 0) := by decide
-- V-DS24, V-DS25
theorem test_deser_begin : ((ran (start { nine with stg := ⟨true, [1, 2], true⟩ }) 0x22).buf 0).stg = ⟨true, [], false⟩ := by decide

/-- An open session on B0 holding `bytes`, W = 8. -/
def session (bytes : List Byte) : State := start { buf [0x05] 3 with stg := ⟨true, bytes, false⟩ }

/-- Eight bytes of a metadata field below 256. -/
def field (v : Byte) : List Byte := v :: List.replicate 7 0

theorem test_deser_byte : result (session (List.replicate 25 0)) 0x00AB0023 = (.ok, 26, 0) := by decide
theorem test_deser_byte_overflow :
    result { session (List.replicate 25 0) with cfg := { Params.reference with maxUnits := 1 } } 0x23 = (.ok, 0x19, 1) := by decide
-- V-DS1, V-DS16; the six subcodes: V-DS3, V-DS6, V-DS7, V-DS8, V-DS10, V-DS12, V-DS15
theorem test_deser_end_accepts : result (session (field 9 ++ field 2 ++ field 1 ++ [0xB4, 0x00])) 0x24 = (.ok, 9, 2)
    ∧ ((ran (session (field 9 ++ field 2 ++ field 1 ++ [0xB4, 0x00])) 0x24).buf 0) = nine
    ∧ result (msb (session (field 3 ++ field 1 ++ field 0 ++ [0xE0]))) 0x24 = (.ok, 3, 1) := by decide
theorem test_deser_end_rejects : result (session (field 0 ++ field 1 ++ List.replicate 7 0)) 0x24 = (.malformed, 1, 0)
    ∧ result (session (field 0 ++ field 1 ++ field 0 ++ [0, 0])) 0x24 = (.malformed, 2, 0)
    ∧ result (session (field 0 ++ field 0 ++ field 0)) 0x24 = (.malformed, 3, 0)
    ∧ result (session (field 0 ++ field 1 ++ field 1 ++ [0])) 0x24 = (.malformed, 4, 0)
    ∧ result (session (field 9 ++ field 1 ++ field 0 ++ [0xFF])) 0x24 = (.malformed, 5, 0)
    ∧ result (session (field 3 ++ field 1 ++ field 0 ++ [0x08])) 0x24 = (.malformed, 6, 0)
    ∧ result (msb (session (field 3 ++ field 1 ++ field 0 ++ [0x07]))) 0x24 = (.malformed, 6, 0) := by decide

/-! ### The Huffman unit -/

/-- The entries of Example 3 (V-EX3). -/
def example3 : List Entry := [⟨0x61, 5⟩, ⟨0x62, 9⟩, ⟨0x63, 12⟩, ⟨0x64, 13⟩, ⟨0x65, 16⟩, ⟨0x66, 45⟩]

def loaded (raw : List Entry) (a0 a1 : Word := 0) : State :=
  { State.reset with ht := { Huffman.reset with raw := raw }, arg0 := a0, arg1 := a1 }

/-- The node table of V-EX3 (EXCLUDE_PARENTED), transcribed. -/
def example3Nodes : List Node :=
  [ ⟨some 0x61, 5, some 6, none, none, [true, true, false, false]⟩,
    ⟨some 0x62, 9, some 6, none, none, [true, true, false, true]⟩,
    ⟨some 0x63, 12, some 7, none, none, [true, false, false]⟩,
    ⟨some 0x64, 13, some 7, none, none, [true, false, true]⟩,
    ⟨some 0x65, 16, some 8, none, none, [true, true, true]⟩,
    ⟨some 0x66, 45, some 10, none, none, [false]⟩,
    ⟨none, 14, some 8, some 0, some 1, [true, true, false]⟩,
    ⟨none, 25, some 9, some 2, some 3, [true, false]⟩,
    ⟨none, 30, some 9, some 6, some 4, [true, true]⟩,
    ⟨none, 55, some 10, some 7, some 8, [true]⟩,
    ⟨none, 100, none, some 5, some 9, []⟩ ]

/-- BUILT with that table. -/
def built3 (a0 : Word) : State :=
  { State.reset with ht := ⟨.built, example3, 6, example3Nodes⟩, arg0 := a0 }

-- V-EX3, V-HT6 (the reverse push order), HT_BUILD of nothing, V-HT19
theorem test_build : (ran (loaded example3) 0x32).ht.nodes = example3Nodes ∧ result (loaded example3) 0x32 = (.ok, 6, 11)
    ∧ (ran (loaded example3.reverse) 0x32).ht.nodes = example3Nodes
    ∧ (ran (loaded []) 0x32).ht = ⟨.built, [], 0, []⟩ ∧ result (loaded []) 0x32 = (.ok, 0, 0)
    ∧ result (built3 0) 0x32 = (.built, 0, 0) := by decide
-- V-HT4 (SOURCE_LITERAL), V-HT5 (a repeated entry and a repeated symbol)
theorem test_build_policies :
    (ran { loaded [⟨5, 0⟩, ⟨6, 0⟩, ⟨7, 0⟩] with cfg := { Params.reference with merge := .sourceLiteral } } 0x32).ht.nodes
      = [ ⟨some 5, 0, some 4, none, none, [false]⟩, ⟨some 6, 0, some 4, none, none, [true]⟩, ⟨some 7, 0, none, none, none, []⟩,
          ⟨none, 0, none, some 0, some 1, []⟩, ⟨none, 0, none, some 0, some 1, []⟩ ]
    ∧ (ran (loaded [⟨1, 3⟩, ⟨1, 3⟩, ⟨1, 2⟩, ⟨0, 3⟩]) 0x32).ht.nodes
      = [ ⟨some 0, 3, some 3, none, none, [true, true]⟩, ⟨some 1, 2, some 3, none, none, [true, false]⟩,
          ⟨some 1, 3, some 4, none, none, [false]⟩, ⟨none, 5, some 4, some 1, some 0, [true]⟩,
          ⟨none, 8, none, some 2, some 3, []⟩ ] := by decide
-- V-HT42
theorem test_ht_clear : (ran (built3 0) 0x30).ht = Huffman.reset := by decide
-- V-HT15, V-HT17 (BUILT before RANGE), V-HT14
theorem test_push : (ran (loaded [] 0xFF 0xFFFFFF) 0x31).ht.raw = [⟨0xFF, 0xFFFFFF⟩] := by decide
theorem test_push_checks : result (built3 0x100) 0x31 = (.built, 0, 0)
    ∧ result (loaded [] 0x61 0x1000000) 0x31 = (.range, 0, 0) := by decide
-- V-HT25, V-HT11
theorem test_ht_info : result (built3 0) 0x33 = (.ok, 0x80000006, 6) := by decide
-- V-HT26, V-HT27, V-HT23
theorem test_node_weight : result (built3 10) 0x34 = (.ok, 100, 0) := by decide
theorem test_node_weight_checks : result (built3 11) 0x34 = (.range, 0, 0)
    ∧ result (loaded example3 0) 0x34 = (.notBuilt, 0, 0) := by decide
-- V-HT28, V-HT29
theorem test_node_parent : result (built3 0) 0x35 = (.ok, 6, 0) := by decide
theorem test_node_parent_root : result (built3 10) 0x35 = (.ok, 0xFFFFFFFF, 0) := by decide
-- V-HT30, V-HT31
theorem test_node_children : result (built3 8) 0x36 = (.ok, 6, 4) := by decide
theorem test_node_children_leaf : result (built3 3) 0x36 = (.ok, 0xFFFFFFFF, 0xFFFFFFFF) := by decide
-- V-HT32, V-HT33
theorem test_node_symbol : result (built3 5) 0x37 = (.ok, 0x66, 0) := by decide
theorem test_node_symbol_internal : result (built3 9) 0x37 = (.ok, 0xFFFFFFFF, 0) := by decide
-- V-HT34, V-HT36
theorem test_node_code : result (built3 1) 0x00000038 = (.ok, 4, 0xB) := by decide
theorem test_node_code_range : result (built3 1) 0x00080038 = (.range, 0, 0) := by decide
/-- The node table of V-HT5. -/
def repeatedNodes : List Node :=
  [ ⟨some 0, 3, some 3, none, none, [true, true]⟩,
    ⟨some 1, 2, some 3, none, none, [true, false]⟩,
    ⟨some 1, 3, some 4, none, none, [false]⟩,
    ⟨none, 5, some 4, some 1, some 0, [true]⟩,
    ⟨none, 8, none, some 2, some 3, []⟩ ]

/-- BUILT with that table, DUP_LOOKUP as given. -/
def built5 (dup : DupLookup) (a0 : Word) : State :=
  { State.reset with
    cfg := { Params.reference with dup := dup }
    ht := ⟨.built, [⟨1, 3⟩, ⟨1, 3⟩, ⟨1, 2⟩, ⟨0, 3⟩], 3, repeatedNodes⟩
    arg0 := a0 }

-- V-HT5, V-HT40
theorem test_lookup : result (built5 .last 1) 0x39 = (.ok, 2, 1) ∧ result (built5 .first 1) 0x39 = (.ok, 1, 2) := by decide
theorem test_lookup_absent : result (built3 0x67) 0x39 = (.notFound, 0, 0) := by decide

/-! ### The port, the engine and reset -/

def wrote (s : State) (addr : Nat) (v : Word) : State :=
  match step { s with inputs := [.write addr 4 v] } with
  | .next t => t
  | _       => s

def got (s : State) (addr : Nat) : Word :=
  match step { s with inputs := [.read addr 4] } with
  | .next t => t.rdata
  | _       => 0

-- "Register reads after reset at the reference parameters", 95_test_vectors.md section 2.6
theorem test_read_id : got State.reset 0x00 = 0x48420001 := by decide
theorem test_read_config0 : got State.reset 0x04 = 0x00017705 := by decide
theorem test_read_config0_other : got (State.resetWith ⟨.four, .msbFirst, 4, 4096, 16, 256, 16, .sourceLiteral, .first, 0⟩) 0x04
    = 0x0000FF3B := by decide
theorem test_read_config1 : got State.reset 0x08 = 0x00001000 := by decide
theorem test_read_config2 : got State.reset 0x0C = 0x00000100 := by decide
theorem test_read_reserved : got State.reset 0x3C = 0 := by decide
-- V-CT8: an illegal word is accepted, raises ILLEGAL and sets the sticky bit
theorem test_illegal_status : (ran State.reset 0x00000410).statusWord = 0x209 := by decide
-- STATUS writes, 95_test_vectors.md section 2.6
theorem test_status_w1c : (wrote { State.reset with err := .underflow, errSticky := true } 0x24 0xFFFFF9FF).statusWord = 0x201
    ∧ (wrote { State.reset with err := .underflow, errSticky := true } 0x24 0xFFFFFFFF).statusWord = 0x001 := by decide
-- 70 R290 to R292
theorem test_cmd_accepted : (wrote { State.reset with arg0 := 7 } 0x10 0x16).busy = true
    ∧ (wrote { State.reset with arg0 := 7 } 0x10 0x16).latA0 = 7 ∧ (wrote { State.reset with arg0 := 7 } 0x10 0x16).cmd = 0x16 := by decide
theorem test_cmd_dropped : (wrote { State.reset with busy := true, cmd := 0x13 } 0x10 0x16).overrun = true
    ∧ (wrote { State.reset with busy := true, cmd := 0x13 } 0x10 0x16).cmd = 0x13 := by decide
-- 20 R65: a byte access and a misaligned access have no step
theorem test_byte_access_refused : step { State.reset with inputs := [.read 0x14 1] } = .refused .accessNotAdmitted := rfl
theorem test_misaligned_refused : step { State.reset with inputs := [.write 0x16 4 0] } = .refused .accessNotAdmitted := rfl
theorem test_outside_refused : step { State.reset with inputs := [.read 0x40 4] } = .refused .accessNotAdmitted := rfl
-- 70 R280, R281
theorem test_reset_abandons : ((step { (start nine).accept 0x10 with inputs := [.resetAssert] }) =
    .next { State.reset with inReset := true }) := rfl
theorem test_no_access_in_reset : step { State.reset with inReset := true, inputs := [.read 0 4] } = .fault .resetAsserted := rfl

theorem test_reset_idle : step State.reset = .next State.reset := rfl

/-! ### Witnesses: states and operands that meet the hypotheses of the statements, at the ends of the ranges

`witness_<Name>` shows that the hypotheses of `Obligations.<Name>` can hold together; a statement with several clauses has
a witness for each. `Runs` says that a command answers a next state. -/

def Runs (i : Instr) (s : State) : Prop := ∃ t, exec i s = .next t

/-- BUSY, with the command word `w` latched. -/
def busyWith (w : Word) (inputs : List Input) : State :=
  { State.reset with busy := true, cmd := w, latCmd := w, inputs := inputs }

/-- B0 = `B`, and A0, A1 as the engine has latched them. -/
def latched (B : Buffer) (a0 a1 : Word := 0) : State :=
  { State.reset.setBuf 0 B with latA0 := a0, latA1 := a1 }

/-- "001011010" with both cursors ACTIVE at the last element, and a session open. -/
def nineActive : Buffer := { nine with itb := ⟨.active, 8⟩, itu := ⟨.active, 1⟩, stg := ⟨true, [], false⟩ }

/-- The smallest capacity: MAX_UNITS = 1, so MAX_BITS = 8. -/
def oneUnit : Params := { Params.reference with maxUnits := 1 }

/-- B0 full under it. -/
def fullState : State := (State.resetWith oneUnit).setBuf 0 (buf [0xFF] 8)

/-- BUILT with the tree of V-EX3, and A0 latched. -/
def builtAt (a0 : Word) : State := { built3 0 with latA0 := a0 }

/-- LOADING with the entries of V-EX3, and A0, A1 latched. -/
def loadedAt (a0 a1 : Word) : State := { loaded example3 with latA0 := a0, latA1 := a1 }

theorem reset_buffer_valid : Buffer.reset.Valid Params.reference := by
  constructor <;> (try unfold Buffer.I1) <;> (try unfold Buffer.I2) <;> decide

theorem nine_valid : nine.Valid Params.reference := by
  constructor <;> (try unfold Buffer.I1) <;> (try unfold Buffer.I2) <;> decide

theorem nineActive_valid : nineActive.Valid Params.reference := by
  constructor <;> (try unfold Buffer.I1) <;> (try unfold Buffer.I2) <;> decide

theorem ready_nine (a0 : Word) : Ready 0 (latched nine a0) :=
  ⟨test_reference_legal, show (0 : BitVec 2).toNat < 2 by decide, nine_valid⟩

theorem ready_reset : Ready 1 State.reset := ⟨test_reference_legal, by decide, reset_buffer_valid⟩

theorem ready_nineActive : Ready 0 (latched nineActive) := ⟨test_reference_legal, by decide, nineActive_valid⟩

theorem example3_in_range : ∀ e ∈ example3, e.InRange Params.reference := by
  unfold Entry.InRange
  decide

theorem built3_valid : (built3 0).ht.Valid Params.reference := by
  refine ⟨by decide, example3_in_range, by decide, by decide⟩

theorem loaded3_valid : (loaded example3).ht.Valid Params.reference := by
  refine ⟨by decide, example3_in_range, by decide, by decide⟩

/-- The valid state the invariant's statement starts from: nine bits, cursors, a session and a built tree. -/
theorem witness_StepKeepsTheStateValid :
    State.Valid { latched nineActive with ht := (built3 0).ht } ∧ ∃ t, step { latched nineActive with ht := (built3 0).ht } = .next t := by
  refine ⟨⟨test_reference_legal, fun b => ?_, built3_valid, by decide, by decide⟩, _, rfl⟩
  have h : b = 0 ∨ b = 1 ∨ b = 2 ∨ b = 3 := by revert b; decide
  rcases h with rfl | rfl | rfl | rfl
  · exact nineActive_valid
  · exact reset_buffer_valid
  · exact reset_buffer_valid
  · exact reset_buffer_valid

theorem witness_DecodeAcceptsExactlyTheRows :
    decode 0x00070038 = .ok (.htNodeCode 7) ∧ MatchesRow 0x00070038 (.htNodeCode 7) ∧ MatchesRow 0x00070038 (.htNodeCode 0) := by
  unfold MatchesRow
  decide

theorem witness_SpecWordsDecode :
    (busyWith 0x00000210 []).cfg.nbuf = 2 ∧ (busyWith 0x00000210 []).latCmd = 0x00000210 := by decide

theorem witness_StepRunsTheDecodedCommand :
    (busyWith 0x10 []).inReset = false ∧ (busyWith 0x10 []).busy = true ∧ decode (busyWith 0x10 []).latCmd = .ok (.bbClear 0) ∧
      (busyWith 0x10 []).inputs = [] ∧ (busyWith 0x10 [.engine, .read 0 4]).inputs = [.engine, .read 0 4]
    ∧ (busyWith 0x10 [.read 0x24 4]).inputs = [.read 0x24 4] ∧ (busyWith 0x10 [.write 0x10 4 0]).inputs = [.write 0x10 4 0]
    ∧ { State.reset with inputs := [.engine] }.inputs = [.engine] ∧ State.reset.busy = false
    ∧ { busyWith 0x10 [.engine] with inReset := true }.inReset = true ∧ State.reset.Ended :=
  ⟨by decide, by decide, by decide, by decide, by decide, by decide, by decide, by decide, by decide, by decide, rfl, rfl⟩

theorem witness_IllegalWordsRaiseIllegal :
    (busyWith 0x410 [.engine]).inReset = false ∧ (busyWith 0x410 [.engine]).busy = true ∧
      (∀ i, ¬ MatchesRow (busyWith 0x410 [.engine]).latCmd i) ∧
      ∃ i, decode (busyWith 0x210 [.engine]).latCmd = .ok i ∧ i.wellFormed (busyWith 0x210 [.engine]).cfg = false :=
  ⟨by decide, by decide, fun i => by unfold MatchesRow; cases i <;> simp only [opcodeRow] <;> decide, .bbClear 2, by decide, by decide⟩

theorem witness_IssueThenRun :
    let s : State := { State.reset with inputs := [.write 0x10 4 (encode (.bbGetbit 0)), .write 0x14 4 5, .write 0x18 4 6, .engine] }
    s.inReset = false ∧ s.busy = false ∧
      s.inputs = [.write (s.cfg.hbbBase + 0x10) 4 (encode (.bbGetbit 0)), .write (s.cfg.hbbBase + 0x14) 4 5,
        .write (s.cfg.hbbBase + 0x18) 4 6, .engine] ++ [] := by decide

/-- A bit-buffer command on a buffer, on a missing one, and a Huffman command. -/
theorem witness_CommandsKeepTheOtherUnits :
    Runs (.bbAppend 0 true) (latched nine) ∧ Runs (.bbAppend 2 true) (latched nine) ∧ Runs .htBuild (loaded example3) :=
  ⟨⟨_, rfl⟩, ⟨_, rfl⟩, ⟨_, rfl⟩⟩

theorem witness_ReadingCommandsChangeNoUnit : readsOnly (.bbInfo 0) = true ∧ Runs (.bbInfo 0) (latched nine) :=
  ⟨rfl, _, rfl⟩

theorem witness_CommandsKeepThePartsOfABuffer :
    Runs (.bbItbStart 0) (latched nine) ∧ Runs (.bbItbNext 0) (latched nineActive) ∧ Runs (.bbItuStart 0) (latched nine) ∧
      Runs (.bbItuNext 0) (latched nineActive) ∧ Runs (.bbDeserBegin 0) (latched nine) ∧
      Runs (.bbDeserByte 0 7) (latched nineActive) ∧ Runs (.bbClear 0) (latched nineActive) ∧
      Runs (.bbAppend 0 true) (latched nineActive) ∧ Runs (.bbAppendChar 0 0x31) (latched nineActive) ∧
      Runs (.bbRemove 0) (latched nineActive) :=
  ⟨⟨_, rfl⟩, ⟨_, rfl⟩, ⟨_, rfl⟩, ⟨_, rfl⟩, ⟨_, rfl⟩, ⟨_, rfl⟩, ⟨_, rfl⟩, ⟨_, rfl⟩, ⟨_, rfl⟩, ⟨_, rfl⟩⟩

theorem witness_NopOnlyClearsTheResult : fieldOpc 0x00010000 = 0 ∧ (0x00010000 : Word) ≠ 0 := by decide

theorem witness_ClearEmptiesTheBuffer : (1 : BitVec 2).toNat < (latched nine).cfg.nbuf := by decide

/-- BB_APPEND, and BB_APPEND_CHAR with '1', and with a character that is neither digit. -/
theorem witness_AppendAddsOneBit :
    Ready 0 (latched nine) ∧ ((latched nine).buf 0).bitCount < (latched nine).cfg.maxBits ∧
      true = decide ((0x31 : Byte) = 0x31) ∧ false = decide ((0x7A : Byte) = 0x31) :=
  ⟨ready_nine 0, by decide, by decide, by decide⟩

theorem witness_AppendThenRemoveIsInverse :
    Ready 0 (latched nine) ∧ ((latched nine).buf 0).bitCount < (latched nine).cfg.maxBits :=
  ⟨ready_nine 0, by decide⟩

theorem witness_RemoveTakesTheLastBit : Ready 0 (latched nine) ∧ 0 < ((latched nine).buf 0).bitCount :=
  ⟨ready_nine 0, by decide⟩

/-- The last bit, and the first and the last index. -/
theorem witness_BitReadsReturnTheBit :
    (0 : BitVec 2).toNat < (latched nine 8).cfg.nbuf ∧
      (((latched nine 8).buf 0).bits .lsbFirst).getLast? = some false ∧
      (((latched nine 8).buf 0).bits .lsbFirst)[(latched nine 8).latA0.toNat]? = some false ∧
      (((latched nine 2).buf 0).bits .lsbFirst)[(latched nine 2).latA0.toNat]? = some true := by decide

theorem witness_InfoReportsTheCounts : Ready 0 (latched nine) := ready_nine 0

theorem witness_UnitReadsShowTheBits :
    Ready 0 (latched nine 1) ∧ (latched nine 1).latA0.toNat < ((latched nine 1).buf 0).units.length :=
  ⟨ready_nine 1, by decide⟩

theorem witness_EqualComparesTheBits :
    Ready 0 (latched nine 1) ∧ Ready 1 (latched nine 1) ∧ (latched nine 1).latA0.toNat = (1 : BitVec 2).toNat :=
  ⟨ready_nine 1, ⟨test_reference_legal, by decide, reset_buffer_valid⟩, by decide⟩

theorem witness_TextRoundTrip :
    Ready 0 (latched nine) ∧ ([0x31, 0x30, 0x7A] : List Byte).length ≤ (latched nine).cfg.maxBits ∧
      ([0x31, 0x30, 0x7A] : List Byte)[(2 : Word).toNat]? = some 0x7A :=
  ⟨ready_nine 0, by decide, by decide⟩

theorem witness_EmptyBufferErrors :
    (1 : BitVec 2).toNat < State.reset.cfg.nbuf ∧ (State.reset.buf 1).bitCount = 0 := by decide

/-- Each operand at the first value out of its range. -/
theorem witness_OutOfRangeErrors :
    (0 : BitVec 2).toNat < (latched nine 9).cfg.nbuf ∧
      ((latched nine 9).buf 0).bitCount = (latched nine 9).latA0.toNat ∧
      ((latched nine 2).buf 0).units.length = (latched nine 2).latA0.toNat ∧
      (latched nine 2).cfg.nbuf = (latched nine 2).latA0.toNat ∧
      3 * (latched nine 26).cfg.w + ((latched nine 26).buf 0).units.length = (latched nine 26).latA0.toNat ∧
      ((loadedAt 0x100 0).ht.phase = .loading ∧ 2 ^ (loadedAt 0x100 0).cfg.symBits = (loadedAt 0x100 0).latA0.toNat) ∧
      2 ^ (loadedAt 0 0x1000000).cfg.weightBits = (loadedAt 0 0x1000000).latA1.toNat ∧
      ((builtAt 11).ht.Valid (builtAt 11).cfg ∧ (builtAt 11).ht.phase = .built ∧
        2 * (builtAt 11).ht.n - 1 = (builtAt 11).latA0.toNat) ∧
      (builtAt 11).cfg.codeChunks = (8 : BitVec 16).toNat :=
  ⟨by decide, by decide, by decide, by decide, by decide, by decide, by decide, ⟨built3_valid, by decide, by decide⟩, by decide⟩

theorem witness_CapacityErrors :
    ((0 : BitVec 2).toNat < fullState.cfg.nbuf ∧ (fullState.buf 0).bitCount = fullState.cfg.maxBits) ∧
      (let s : State := { loadedAt 0xFF 0xFFFFFF with cfg := { Params.reference with maxEntries := 6 } }
       s.ht.phase = .loading ∧ s.latA0.toNat < 2 ^ s.cfg.symBits ∧ s.latA1.toNat < 2 ^ s.cfg.weightBits ∧
         s.ht.raw.length = s.cfg.maxEntries) := by decide

theorem witness_SequenceAndStaleErrors :
    (0 : BitVec 2).toNat < (latched nine).cfg.nbuf ∧ ((latched nine).buf 0).itb.state = .idle ∧
      ((latched nine.markStale).buf 0).itu.state = .idle ∧ ((latched nineActive.markStale).buf 0).itb.state = .stale ∧
      ((latched nineActive.markStale).buf 0).itu.state = .stale ∧ ((latched nine).buf 0).stg.active = false := by decide

/-- A NEXT at the last element, and one past it. -/
theorem witness_TraversalCommandsStepTheCursor :
    (0 : BitVec 2).toNat < (latched nineActive).cfg.nbuf ∧ ((latched nineActive).buf 0).itb = ⟨.active, 8⟩ ∧
      (((latched nineActive).buf 0).bits .lsbFirst)[8]? = some false ∧ (((latched nineActive).buf 0).bits .lsbFirst)[9]? = none ∧
      ((latched nineActive).buf 0).itu = ⟨.active, 1⟩ ∧ ((latched nineActive).buf 0).units[1]? = some 0x00 ∧
      ((latched nineActive).buf 0).units[2]? = none := by decide

theorem witness_TraversalDeliversEveryElement :
    (0 : BitVec 2).toNat < (latched nine).cfg.nbuf ∧ Runs (.bbItbStart 0) (latched nine) ∧ Runs (.bbItuStart 0) (latched nine) :=
  ⟨by decide, ⟨_, rfl⟩, ⟨_, rfl⟩⟩

/-- A command other than the START runs on a buffer whose cursors are both STALE. -/
theorem witness_StaleUntilRestarted :
    Runs (.bbAppend 0 true) (latched nineActive.markStale) ∧ ((latched nineActive.markStale).buf 0).itb.state = .stale ∧
      ((latched nineActive.markStale).buf 0).itu.state = .stale ∧
      Instr.bbAppend 0 true ≠ .bbItbStart 0 ∧ Instr.bbAppend 0 true ≠ .bbItuStart 0 :=
  ⟨⟨_, rfl⟩, by decide, by decide, by decide, by decide⟩

/-- The first and last byte of each field and of the units (W = 8, two units). -/
theorem witness_SerialisationReadsTheImage :
    (∀ k, Ready 0 (latched nine k)) ∧
      ∀ k ∈ [0, 7, 8, 15, 16, 23, 24, 25], (latched nine (BitVec.ofNat 32 k)).latA0.toNat = k ∧
        k < 3 * (latched nine).cfg.w + ((latched nine).buf 0).units.length :=
  ⟨ready_nine, by decide⟩

/-- A session with room for one more byte, and one that is full (SCAP = 25 with MAX_UNITS = 1). -/
theorem witness_SessionCollectsBytes :
    let s (k : Nat) : State := (State.resetWith oneUnit).setBuf 0 { buf [0x05] 3 with stg := ⟨true, List.replicate k 0, false⟩ }
    (0 : BitVec 2).toNat < (s 24).cfg.nbuf ∧ (s 24).cfg.Legal ∧
      ((s 24).buf 0).stg = ⟨true, List.replicate 24 0, false⟩ ∧ (List.replicate 24 (0 : Byte)).length + 1 = (s 24).cfg.scap ∧
      ((s 25).buf 0).stg = ⟨true, List.replicate 25 0, false⟩ ∧ (List.replicate 25 (0 : Byte)).length = (s 25).cfg.scap := by
  decide

/-- A buffer with an open session that holds these bytes. -/
def staged (bytes : List Byte) (ovf : Bool) : State := latched { nine with stg := ⟨true, bytes, ovf⟩ }

theorem ready_staged (bytes : List Byte) (ovf : Bool) (h : bytes.length ≤ Params.reference.scap) : Ready 0 (staged bytes ovf) :=
  ⟨test_reference_legal, show (0 : BitVec 2).toNat < 2 by decide,
    ⟨nine_valid.count_le, nine_valid.i1, nine_valid.i2, nine_valid.itb_le, nine_valid.itu_le, h⟩⟩

/-- An image with the three fields (U and C below 256) for each check of Validate, and for acceptance: one byte short of the
header, overflow and one unit missing, U = 0, C off by one, Bc one bit past the units, a nonzero bit just past Bc. -/
theorem witness_SessionEndInstallsOrRejects :
    let fields (bytes : List Byte) := (leValue (bytes.take 8), leValue ((bytes.drop 8).take 8), leValue ((bytes.drop (2 * 8)).take 8))
    (∀ bytes ovf, bytes.length ≤ Params.reference.scap →
      Ready 0 (staged bytes ovf) ∧ ((staged bytes ovf).buf 0).stg = ⟨true, bytes, ovf⟩ ∧ (staged bytes ovf).cfg.w = 8) ∧
    (List.replicate 23 (0 : Byte)).length + 1 = 3 * 8 ∧
    ((field 9 ++ field 2 ++ field 1 ++ [0xB4]).length + 1 = 3 * 8 + 2 ∧ fields (field 9 ++ field 2 ++ field 1 ++ [0xB4]) = (9, 2, 1)) ∧
    ((field 0 ++ field 0 ++ field 0).length = 3 * 8 + 0 ∧ fields (field 0 ++ field 0 ++ field 0) = (0, 0, 0)) ∧
    ((field 8 ++ field 1 ++ field 1 ++ [0xB4]).length = 3 * 8 + 1 ∧ fields (field 8 ++ field 1 ++ field 1 ++ [0xB4]) = (8, 1, 1)) ∧
    ((field 9 ++ field 1 ++ field 0 ++ [0xB4]).length = 3 * 8 + 1 ∧ fields (field 9 ++ field 1 ++ field 0 ++ [0xB4]) = (9, 1, 0) ∧
      1 ≠ max 1 ((9 + 7) / 8)) ∧
    ((field 7 ++ field 1 ++ field 0 ++ [0x80]).length = 3 * 8 + 1 ∧ fields (field 7 ++ field 1 ++ field 0 ++ [0x80]) = (7, 1, 0) ∧
      1 = max 1 ((7 + 7) / 8) ∧ ∃ p < 8, 7 ≤ 8 * (1 - 1) + p ∧
        unitBit .lsbFirst ((field 7 ++ field 1 ++ field 0 ++ [0x80]).getD (3 * 8 + 1 - 1) 0) p = true) ∧
    ((field 7 ++ field 1 ++ field 0 ++ [0x34]).length = 3 * 8 + 1 ∧ fields (field 7 ++ field 1 ++ field 0 ++ [0x34]) = (7, 1, 0) ∧
      ∀ p < 8, 7 ≤ 8 * (1 - 1) + p →
        unitBit .lsbFirst ((field 7 ++ field 1 ++ field 0 ++ [0x34]).getD (3 * 8 + 1 - 1) 0) p = false) :=
  ⟨fun bytes ovf h => ⟨ready_staged bytes ovf h, rfl, rfl⟩, by decide, by decide, by decide, by decide, by decide,
    ⟨by decide, by decide, by decide, 7, by decide, by decide, by decide⟩, by decide⟩

theorem witness_ImagesOfBuffersAreAccepted : Params.reference.Legal ∧ nine.Valid Params.reference :=
  ⟨test_reference_legal, nine_valid⟩

theorem witness_AcceptedImagesAreImages :
    Params.reference.Legal ∧ (nine.image 8).length ≤ Params.reference.scap ∧
      validate Params.reference.bitOrder Params.reference.w (nine.image 8) false = none ∧
      nine.Valid Params.reference ∧ nine.image Params.reference.w = nine.image 8 :=
  ⟨test_reference_legal, by decide, by decide, nine_valid, rfl⟩

theorem witness_BinaryRoundTrip : Ready 0 (latched nine) ∧ Ready 1 (latched nine) :=
  ⟨ready_nine 0, test_reference_legal, by decide, reset_buffer_valid⟩

theorem witness_ClearAndInfoOfTheHuffmanUnit : (built3 0).cfg.Legal ∧ (built3 0).ht.Valid (built3 0).cfg :=
  ⟨test_reference_legal, built3_valid⟩

theorem witness_PushAddsTheEntry :
    (built3 0).ht.phase = .built ∧ (loadedAt 0xFF 0xFFFFFF).cfg.Legal ∧
      (loadedAt 0xFF 0xFFFFFF).ht.Valid (loadedAt 0xFF 0xFFFFFF).cfg ∧ (loadedAt 0xFF 0xFFFFFF).ht.phase = .loading ∧
      (loadedAt 0xFF 0xFFFFFF).latA0.toNat < 2 ^ (loadedAt 0xFF 0xFFFFFF).cfg.symBits ∧
      (loadedAt 0xFF 0xFFFFFF).latA1.toNat < 2 ^ (loadedAt 0xFF 0xFFFFFF).cfg.weightBits ∧
      (loadedAt 0xFF 0xFFFFFF).ht.raw.length < (loadedAt 0xFF 0xFFFFFF).cfg.maxEntries :=
  ⟨rfl, test_reference_legal, loaded3_valid, rfl, by decide, by decide, by decide⟩

theorem witness_BuildMakesTheTree :
    (loaded example3).cfg.Legal ∧ (loaded example3).ht.Valid (loaded example3).cfg ∧ (loaded example3).ht.phase = .loading :=
  ⟨test_reference_legal, loaded3_valid, rfl⟩

/-- The same entries in another order, each one twice. -/
theorem witness_BuildIgnoresPushOrder :
    (loaded example3).cfg = (loaded (example3.reverse ++ example3)).cfg ∧ (loaded example3).ht.phase = .loading ∧
      (loaded (example3.reverse ++ example3)).ht.phase = .loading ∧
      ∀ e, e ∈ (loaded example3).ht.raw ↔ e ∈ (loaded (example3.reverse ++ example3)).ht.raw :=
  ⟨rfl, rfl, rfl, fun e => by simp [loaded]⟩

/-- Three candidates of four nodes under EXCLUDE_PARENTED, all four under SOURCE_LITERAL. -/
theorem witness_ScanSelectsTheTwoLeast :
    (0 < 2 ∧ 2 < 4) ∧
      (∀ pol : MergePolicy, candidate pol ((seed example3).modify 1 fun x => { x with parent := some 6 }) 0 = true ∧
        candidate pol ((seed example3).modify 1 fun x => { x with parent := some 6 }) 2 = true) ∧
      candidate .excludeParented ((seed example3).modify 1 fun x => { x with parent := some 6 }) 1 = false :=
  ⟨by decide, fun pol => by cases pol <;> decide, by decide⟩

/-- The least number of leaves, one, and several; node 2, without a parent before step 6, is not merged there. -/
theorem witness_ExcludeParentedBuildsOneTree :
    (([⟨7, 3⟩] : List Entry).length = 1 ∧ 1 ≤ 1 ∧ buildTree .excludeParented [⟨7, 3⟩] = [leafNode ⟨7, 3⟩]) ∧
      (example3.length = 6 ∧ 1 ≤ 6 ∧ buildTree .excludeParented example3 = example3Nodes) ∧
      ((nodeAt example3Nodes 6).left = some 0 ∧ (nodeAt example3Nodes 6).right = some 1 ∧
        (nodeAt example3Nodes 2).parent = some 7) := by decide

theorem witness_LeafCodesAreAPrefixCode :
    example3.length = 6 ∧ 2 ≤ 6 ∧ buildTree .excludeParented example3 = example3Nodes := by decide

theorem witness_LeafCodesAreComplete :
    (([⟨7, 3⟩] : List Entry).length = 1 ∧ 1 ≤ 1 ∧ buildTree .excludeParented [⟨7, 3⟩] = [leafNode ⟨7, 3⟩]) ∧
      (example3.length = 6 ∧ 1 ≤ 6 ∧ buildTree .excludeParented example3 = example3Nodes) := by decide

/-- The least numbers of leaves, one and two. -/
theorem witness_SourceLiteralRepeatsOnePair :
    (([⟨7, 3⟩] : List Entry).length = 1 ∧ 1 ≤ 1 ∧ buildTree .sourceLiteral [⟨7, 3⟩] = [leafNode ⟨7, 3⟩]) ∧
    ([⟨5, 1⟩, ⟨6, 1⟩] : List Entry).length = 2 ∧ 2 ≤ 2 ∧ buildTree .sourceLiteral [⟨5, 1⟩, ⟨6, 1⟩] =
      [⟨some 5, 1, some 2, none, none, [false]⟩, ⟨some 6, 1, some 2, none, none, [true]⟩,
        ⟨none, 2, none, some 0, some 1, []⟩] := by decide

theorem witness_NodeWeightsFit : Params.reference.Legal ∧ (built3 0).ht.Valid Params.reference :=
  ⟨test_reference_legal, built3_valid⟩

/-- The first node and the last one, the root. -/
theorem witness_NodeReadsReturnTheFields :
    (builtAt 10).cfg.Legal ∧ (builtAt 10).ht.Valid (builtAt 10).cfg ∧ (builtAt 10).ht.phase = .built ∧
      (builtAt 0).ht.nodes[(builtAt 0).latA0.toNat]? = some ⟨some 0x61, 5, some 6, none, none, [true, true, false, false]⟩ ∧
      (builtAt 10).ht.nodes[(builtAt 10).latA0.toNat]? = some ⟨none, 100, none, some 5, some 9, []⟩ :=
  ⟨test_reference_legal, built3_valid, rfl, by decide, by decide⟩

/-- The first chunk and the last one. -/
theorem witness_NodeCodeReturnsTheChunk :
    (builtAt 10).cfg.Legal ∧ (builtAt 10).ht.Valid (builtAt 10).cfg ∧ (builtAt 10).ht.phase = .built ∧
      (builtAt 10).ht.nodes[(builtAt 10).latA0.toNat]? = some ⟨none, 100, none, some 5, some 9, []⟩ ∧
      (0 : BitVec 16).toNat < (builtAt 10).cfg.codeChunks ∧ (7 : BitVec 16).toNat + 1 = (builtAt 10).cfg.codeChunks :=
  ⟨test_reference_legal, built3_valid, rfl, by decide, by decide, by decide⟩

/-- A symbol no leaf carries, and one that a leaf carries. -/
theorem witness_LookupFindsTheLeaf :
    (builtAt 0x66).cfg.Legal ∧ (builtAt 0x66).ht.Valid (builtAt 0x66).cfg ∧ (builtAt 0x66).ht.phase = .built ∧
      (∀ j < (builtAt 0x67).ht.n, (nodeAt (builtAt 0x67).ht.nodes j).symbol ≠ some (builtAt 0x67).latA0.toNat) ∧
      5 < (builtAt 0x66).ht.n ∧ (nodeAt (builtAt 0x66).ht.nodes 5).symbol = some (builtAt 0x66).latA0.toNat :=
  ⟨test_reference_legal, built3_valid, rfl, by decide, by decide, by decide⟩

theorem witness_PhasesGuardTheHuffmanUnit :
    (loaded example3).ht.phase = .loading ∧ (built3 0).ht.phase = .built ∧ Runs (.bbAppend 0 true) (built3 0) ∧
      Instr.bbAppend 0 true ≠ .htClear :=
  ⟨rfl, rfl, ⟨_, rfl⟩, by decide⟩

theorem witness_OtherWritesStoreClearOrAreIgnored : State.reset.inReset = false := rfl

theorem witness_ReadsReturnTheRegisters :
    State.reset.inReset = false ∧ State.reset.busy = false ∧ (busyWith 0x10 []).inReset = false ∧
      (busyWith 0x10 []).busy = true := by decide

/-- Idle and BUSY, with reset released. -/
theorem witness_CommandWritesIssueOrDrop :
    State.reset.inReset = false ∧ State.reset.busy = false ∧ (busyWith 0x10 []).inReset = false ∧
      (busyWith 0x10 []).busy = true := by decide

theorem witness_ConfigZeroReportsTheParameters :
    (⟨.four, .msbFirst, 4, 4096, 16, 256, 16, .sourceLiteral, .first, 0⟩ : Params).Legal ∧ Params.reference.Legal := by decide

/-- Each way an access is not admitted, at the nearest value, and an access during reset. -/
theorem witness_UnadmittedAccessesStop :
    let s : State := State.resetWith { Params.reference with hbbBase := 0x1000 }
    s.inReset = false ∧ (2 ≠ 4) ∧ 0xFFC < s.cfg.hbbBase ∧ s.cfg.hbbBase + 0x40 ≤ 0x1040 ∧ (0x1001 - s.cfg.hbbBase) % 4 ≠ 0 ∧
      { s with inReset := true }.inReset = true := by decide

/-- Each sticky bit cleared by STATUS and by reset, and OVERRUN set. -/
theorem witness_StickyBitsChangeOnlyAsStated :
    (wrote { State.reset with errSticky := true } 0x24 0x200).errSticky = false ∧
      (wrote { State.reset with overrun := true } 0x24 0x400).overrun = false ∧
      (wrote { State.reset with busy := true } 0x10 0).overrun = true ∧
      (∃ t, step { State.reset with errSticky := true, overrun := true, inputs := [.resetAssert] } = .next t ∧
        t.errSticky = false ∧ t.overrun = false) :=
  ⟨by decide, by decide, by decide, _, rfl, rfl, rfl⟩

theorem witness_ResetLeavesTheStatedValues : State.resetWith Params.reference = State.reset := rfl

theorem witness_ResetInputRestoresTheResetState :
    { busyWith 0x10 [] with inputs := [.resetAssert, .resetRelease, .read 0 4] }.inputs =
      .resetAssert :: .resetRelease :: [.read 0 4] := rfl

theorem witness_ResetIsValid : Params.reference.Legal ∧ oneUnit.Legal := by decide

end Sys2Proof.Tests
end

section
/-! PROOFS. How commands end (00_scope.md R13, R14): no command stops the machine, and each one completes or raises. -/

namespace Sys2Proof.Machine

theorem ends_next {α : Type} {put : α → State} {s : State} {a : Answer} (h : Ends put s a) : ∃ t, a = .next t := by
  rcases h with ⟨_, _, _, ha⟩ | ⟨_, _, _, ha⟩
  · exact ⟨_, ha⟩
  · exact ⟨_, ha⟩

/-- A command never stops the machine (60_exceptions.md R262, R263). -/
theorem exec_total (i : Instr) (s : State) : ∃ t, exec i s = .next t := by
  cases hb : i.bufSelect with
  | some b => exact ends_next (exec_ends_buf hb s)
  | none => exact ends_next (exec_ends_ht hb s)

/-- `exec_inv` without the unit a completed command replaced: it did what every successful command does, or raised. -/
theorem exec_done_or_raised {i : Instr} {s t : State} (h : exec i s = .next t) :
    Done s t ∨ ∃ e info, e ≠ .ok ∧ t = s.raised e info := by
  rcases exec_inv h with hr | ⟨b, B, r0, r1, _, rfl⟩ | ⟨H, r0, r1, _, rfl⟩
  · exact .inr hr
  · exact .inl (setBuf_completed_done s b B r0 r1)
  · exact .inl (setHt_completed_done s H r0 r1)

/-- Settles O8: a command is total, and what it answers is a completed or a raised state. -/
theorem everyCommandEndsInOneStep : Obligations.EveryCommandEndsInOneStep := by
  unfold Obligations.EveryCommandEndsInOneStep
  intro i s
  obtain ⟨t, ht⟩ := exec_total i s
  rcases exec_done_or_raised ht with hd | ⟨e, info, he, rfl⟩
  · exact ⟨t, ht, hd.idle, hd.kept, .inl ⟨hd.err, hd.sticky⟩⟩
  · exact ⟨_, ht, raised_busy s e info, raised_kept s e info,
      .inr ⟨he, raised_errSticky s e info, raised_res1 s e info, raised_units s e info⟩⟩

end Sys2Proof.Machine
end

section
/-! PROOFS. The two registers packed from fields, CONFIG0 and STATUS, read back field by field (10_state.md R23, R33). -/

namespace Sys2Proof.Machine

/-! ### CONFIG0, from bit 0 up -/

section Config0

variable (p : Params)

theorem config0_nbuf : p.config0.extractLsb' 0 2 = BitVec.ofNat 2 (p.nbuf - 1) :=
  BitVec.extractLsb'_append_eq_right

theorem config0_wordBytes : p.config0.getLsbD 2 = decide (p.wordBytes = .eight) := by
  simp only [Params.config0, BitVec.getLsbD_append]
  simp [beq_eq_decide]

theorem config0_bitOrder : p.config0.getLsbD 3 = decide (p.bitOrder = .msbFirst) := by
  simp only [Params.config0, BitVec.getLsbD_append]
  simp [beq_eq_decide]

theorem config0_merge : p.config0.getLsbD 4 = decide (p.merge = .sourceLiteral) := by
  simp only [Params.config0, BitVec.getLsbD_append]
  simp [beq_eq_decide]

theorem config0_dup : p.config0.getLsbD 5 = decide (p.dup = .first) := by
  simp only [Params.config0, BitVec.getLsbD_append]
  simp [beq_eq_decide]

theorem config0_reserved_low : p.config0.extractLsb' 6 2 = 0 := by
  simp only [Params.config0, BitVec.extractLsb'_append_eq_of_le, Nat.reduceLeDiff, Nat.reduceSub]
  exact BitVec.extractLsb'_append_eq_right

theorem config0_symBits : p.config0.extractLsb' 8 4 = BitVec.ofNat 4 (p.symBits - 1) := by
  simp only [Params.config0, BitVec.extractLsb'_append_eq_of_le, Nat.reduceLeDiff, Nat.reduceSub]
  exact BitVec.extractLsb'_append_eq_right

theorem config0_weightBits : p.config0.extractLsb' 12 5 = BitVec.ofNat 5 (p.weightBits - 1) := by
  simp only [Params.config0, BitVec.extractLsb'_append_eq_of_le, Nat.reduceLeDiff, Nat.reduceSub]
  exact BitVec.extractLsb'_append_eq_right

theorem config0_reserved_high : p.config0.extractLsb' 17 15 = 0 := by
  simp only [Params.config0, BitVec.extractLsb'_append_eq_of_le, Nat.reduceLeDiff, Nat.reduceSub]
  exact BitVec.extractLsb'_eq_self

end Config0

theorem toNat_ofNat_pred {w n : Nat} (h : n ≤ 2 ^ w) : (BitVec.ofNat w (n - 1)).toNat = n - 1 := by
  have := Nat.two_pow_pos w
  rw [BitVec.toNat_ofNat, Nat.mod_eq_of_lt (by omega)]

/-- Settles O54: each field holds its parameter less 1, and the legal ranges (00_scope.md R8) fit the fields. -/
theorem configZeroReportsTheParameters : Obligations.ConfigZeroReportsTheParameters := by
  unfold Obligations.ConfigZeroReportsTheParameters
  intro p ⟨⟨_, hnbuf⟩, _, ⟨_, hsym⟩, _, ⟨_, hweight⟩⟩
  refine ⟨?_, config0_wordBytes p, config0_bitOrder p, config0_merge p, config0_dup p, config0_reserved_low p, ?_, ?_,
    config0_reserved_high p⟩
  · rw [config0_nbuf, toNat_ofNat_pred hnbuf]
  · rw [config0_symBits, toNat_ofNat_pred hsym]
  · rw [config0_weightBits, toNat_ofNat_pred (hweight.trans (Nat.sub_le _ _))]

/-! ### STATUS, whatever its ERR field shows -/

section Status

variable (s : State) (err : BitVec 4)

theorem statusWith_err : (s.statusWith err).extractLsb' 0 4 = err :=
  BitVec.extractLsb'_append_eq_right

theorem statusWith_busy : (s.statusWith err).getLsbD 8 = s.busy := by
  simp only [State.statusWith, BitVec.getLsbD_append]
  simp

theorem statusWith_errSticky : (s.statusWith err).getLsbD 9 = s.errSticky := by
  simp only [State.statusWith, BitVec.getLsbD_append]
  simp

theorem statusWith_overrun : (s.statusWith err).getLsbD 10 = s.overrun := by
  simp only [State.statusWith, BitVec.getLsbD_append]
  simp

theorem statusWith_reserved_low : (s.statusWith err).extractLsb' 4 4 = 0 := by
  simp only [State.statusWith, BitVec.extractLsb'_append_eq_of_le, Nat.reduceLeDiff, Nat.reduceSub]
  exact BitVec.extractLsb'_append_eq_right

theorem statusWith_reserved_high : (s.statusWith err).extractLsb' 11 21 = 0 := by
  simp only [State.statusWith, BitVec.extractLsb'_append_eq_of_le, Nat.reduceLeDiff, Nat.reduceSub]
  exact BitVec.extractLsb'_eq_self

end Status

/-- Codes 12 to 15 are never written (60_exceptions.md R250). -/
theorem errCode_le (e : ErrCode) : e.code.toNat ≤ 11 := by
  cases e <;> decide

/-- Settles O53: `statusWord` is `statusWith` at the code of ERR. -/
theorem statusLayout : Obligations.StatusLayout := by
  unfold Obligations.StatusLayout
  exact ⟨by decide, fun s => ⟨statusWith_err s _, errCode_le s.err, statusWith_busy s _, statusWith_errSticky s _,
    statusWith_overrun s _, statusWith_reserved_low s _, statusWith_reserved_high s _⟩⟩

end Sys2Proof.Machine
end

section
/-! PROOFS. Host writes, and what alone changes the sticky bits (10_state.md R26 to R28, 70_reset_and_hazards.md R291). -/

namespace Sys2Proof.Machine

/-! ### Host writes -/

theorem hostWrite_base {s : State} (hr : s.inReset = false) (v : Word) {off : Nat} (h : off < 0x40) (h4 : off % 4 = 0) :
    hostWrite (s.cfg.hbbBase + off) 4 v s = .next { s.writeReg v (regAt off) with hostPos := s.hostPos + 1 } :=
  portAccess_base hr h h4 _

theorem clearSticky_eq_ite (s : State) (v : Word) :
    s.clearSticky v = { s with
      errSticky := if v.getLsbD 9 then false else s.errSticky
      overrun := if v.getLsbD 10 then false else s.overrun } := by
  unfold State.clearSticky
  cases v.getLsbD 9 <;> cases v.getLsbD 10 <;> simp

/-- The offsets of the registers whose writes are ignored (20_memory.md R65, R66). -/
theorem writeReg_ignored (s : State) (v : Word) {off : Nat}
    (h : off ∈ [0x00, 0x04, 0x08, 0x0C, 0x1C, 0x20, 0x28, 0x2C, 0x30, 0x34, 0x38, 0x3C]) :
    off < 0x40 ∧ off % 4 = 0 ∧ s.writeReg v (regAt off) = s := by
  fin_cases h <;> exact ⟨by decide, by decide, rfl⟩

/-- Settles O51: each write goes through the port to the register at its offset. -/
theorem otherWritesStoreClearOrAreIgnored : Obligations.OtherWritesStoreClearOrAreIgnored := by
  unfold Obligations.OtherWritesStoreClearOrAreIgnored
  intro s v hr
  refine ⟨hostWrite_base hr v (by decide) (by decide), hostWrite_base hr v (by decide) (by decide), ?_,
    fun off hoff => ?_⟩
  · have hstatus : s.writeReg v (regAt 0x24) = s.clearSticky v := rfl
    rw [hostWrite_base hr v (by decide) (by decide), hstatus, clearSticky_eq_ite]
  · obtain ⟨hlt, h4, hsame⟩ := writeReg_ignored s v hoff
    rw [hostWrite_base hr v hlt h4, hsame]

/-! ### The sticky bits in one step -/

/-- OVERRUN is as before and ERR_STICKY is not cleared: what a read, a command and the engine's turn do to the sticky bits
(10_state.md R26, R27; 60_exceptions.md R262). -/
def StickyKept (s t : State) : Prop :=
  t.overrun = s.overrun ∧ (s.errSticky = true → t.errSticky = true)

theorem exec_stickyKept {i : Instr} {s t : State} (h : exec i s = .next t) : StickyKept s t := by
  rcases exec_done_or_raised h with hd | ⟨e, info, _, rfl⟩
  · exact ⟨hd.kept.overrun, fun hs => hd.sticky.trans hs⟩
  · exact ⟨raised_overrun s e info, fun _ => raised_errSticky s e info⟩

theorem engineTurn_stickyKept {s t : State} (h : engineTurn s = .next t) : StickyKept s t := by
  rcases engineTurn_eq_next h with rfl | ⟨_, _, ⟨i, _, hi⟩ | rfl⟩
  · exact ⟨rfl, id⟩
  · exact exec_stickyKept hi
  · exact ⟨raised_overrun s _ _, fun _ => raised_errSticky s _ _⟩

theorem hostRead_stickyKept {addr width : Nat} {s t : State} (h : hostRead addr width s = .next t) : StickyKept s t := by
  obtain ⟨_, off, _, _, _, _, rfl⟩ := portAccess_eq_next.mp h
  exact ⟨rfl, id⟩

/-- The one inversion for the sticky bits: they are kept, or the input is a reset input or a register write. -/
theorem step_sticky_cases {s t : State} (h : step s = .next t) :
    StickyKept s t ∨ s.inputs.head? = some .resetAssert ∨ s.inputs.head? = some .resetRelease ∨
      ∃ off v rest, s.inputs.head? = some (.write (s.cfg.hbbBase + off) 4 v) ∧
        t = { ({ s with inputs := rest } : State).writeReg v (regAt off) with hostPos := s.hostPos + 1 } := by
  cases hin : s.inputs with
  | nil => exact .inl (engineTurn_stickyKept (step_nil hin ▸ h))
  | cons e rest =>
    rw [step_cons hin] at h
    cases e with
    | read addr width => exact .inl (hostRead_stickyKept (s := { s with inputs := rest }) h)
    | engine => exact .inl (engineTurn_stickyKept (s := { s with inputs := rest }) h)
    | resetAssert => exact .inr (.inl rfl)
    | resetRelease => exact .inr (.inr (.inl rfl))
    | write addr width v =>
      obtain ⟨_, off, rfl, rfl, _, _, ht⟩ := portAccess_eq_next.mp h
      exact .inr (.inr (.inr ⟨off, v, rest, rfl, ht⟩))

theorem releaseReset_overrun {s : State} (h : s.releaseReset.overrun = true) : s.overrun = true := by
  unfold State.releaseReset at h
  split at h
  · cases h
  · exact h

/-- The reset input never sets OVERRUN (10_state.md R55). -/
theorem step_reset_overrun {s t : State} (h : step s = .next t)
    (hin : s.inputs.head? = some .resetAssert ∨ s.inputs.head? = some .resetRelease) (ht : t.overrun = true) :
    s.overrun = true := by
  rcases hin with hin | hin <;> obtain ⟨rest, hin⟩ := List.head?_eq_some_iff.mp hin <;> rw [step_cons hin] at h
  · cases h; cases ht
  · cases h; exact releaseReset_overrun (s := { s with inputs := rest }) ht

theorem step_clears_errSticky {s t : State} (h : step s = .next t) (h0 : s.errSticky = true) (h1 : t.errSticky = false) :
    s.inputs.head? = some .resetAssert ∨ s.inputs.head? = some .resetRelease ∨
      ∃ v, s.inputs.head? = some (.write (s.cfg.hbbBase + 0x24) 4 v) ∧ v.getLsbD 9 = true := by
  rcases step_sticky_cases h with ⟨_, hk⟩ | hr | hr | ⟨off, v, rest, hin, rfl⟩
  · rw [hk h0] at h1; cases h1
  · exact .inl hr
  · exact .inr (.inl hr)
  · obtain ⟨hreg, hv⟩ := writeReg_sticky (s := { s with inputs := rest }) h0 h1
    obtain rfl := regAt_eq_status.mp hreg
    exact .inr (.inr ⟨v, hin, hv⟩)

theorem step_sets_overrun {s t : State} (h : step s = .next t) (h0 : s.overrun = false) (h1 : t.overrun = true) :
    s.busy = true ∧ ∃ v, s.inputs.head? = some (.write (s.cfg.hbbBase + 0x10) 4 v) := by
  rcases step_sticky_cases h with ⟨hk, _⟩ | hr | hr | ⟨off, v, rest, hin, rfl⟩
  · rw [hk, h0] at h1; cases h1
  · rw [step_reset_overrun h (.inl hr) h1] at h0; cases h0
  · rw [step_reset_overrun h (.inr hr) h1] at h0; cases h0
  · obtain ⟨hreg, hbusy⟩ := writeReg_overrun (s := { s with inputs := rest }) h0 h1
    obtain rfl := regAt_eq_cmd.mp hreg
    exact ⟨hbusy, v, hin⟩

theorem step_clears_overrun {s t : State} (h : step s = .next t) (h0 : s.overrun = true) (h1 : t.overrun = false) :
    s.inputs.head? = some .resetAssert ∨ s.inputs.head? = some .resetRelease ∨
      ∃ v, s.inputs.head? = some (.write (s.cfg.hbbBase + 0x24) 4 v) ∧ v.getLsbD 10 = true := by
  rcases step_sticky_cases h with ⟨hk, _⟩ | hr | hr | ⟨off, v, rest, hin, rfl⟩
  · rw [hk, h0] at h1; cases h1
  · exact .inl hr
  · exact .inr (.inl hr)
  · obtain ⟨hreg, hv⟩ := writeReg_overrun_clear (s := { s with inputs := rest }) h0 h1
    obtain rfl := regAt_eq_status.mp hreg
    exact .inr (.inr ⟨v, hin, hv⟩)

/-- Settles O56: one clause each, from `step_sticky_cases` and what a register write can do to the bit. -/
theorem stickyBitsChangeOnlyAsStated : Obligations.StickyBitsChangeOnlyAsStated := by
  unfold Obligations.StickyBitsChangeOnlyAsStated
  exact fun s t h => ⟨step_clears_errSticky h, step_sets_overrun h, step_clears_overrun h⟩

end Sys2Proof.Machine
end

section
/-! PROOFS. What reset leaves (10_state.md R55), and that it is valid (70_reset_and_hazards.md R283). -/

namespace Sys2Proof.Machine

@[simp] theorem resetWith_buf (p : Params) (b : BitVec 2) : (State.resetWith p).buf b = Buffer.reset := by
  unfold State.buf Buffers.get
  split <;> rfl

/-- STATUS does not depend on the parameters, so the reference values show it. -/
theorem resetWith_statusWord (p : Params) : (State.resetWith p).statusWord = 0 :=
  show State.reset.statusWord = 0 by decide

/-- Settles O57: the registers by evaluation, the buffers by `resetWith_buf`. -/
theorem resetLeavesTheStatedValues : Obligations.ResetLeavesTheStatedValues := by
  unfold Obligations.ResetLeavesTheStatedValues
  rintro p _ rfl
  refine ⟨⟨rfl, rfl, rfl, rfl, rfl, resetWith_statusWord p⟩, ⟨rfl, rfl, rfl, rfl⟩, fun b => ?_, rfl⟩
  rw [resetWith_buf]; rfl

theorem buffer_reset_valid (p : Params) : Buffer.reset.Valid p where
  count_le := Nat.zero_le _
  i1 := emptied_I1 .reset
  i2 := emptied_I2 p.bitOrder .reset
  itb_le := Nat.zero_le _
  itu_le := Nat.zero_le _
  staged_le := Nat.zero_le _

theorem huffman_reset_valid (p : Params) : Huffman.reset.Valid p where
  raw_le := Nat.zero_le _
  raw_in _ he := absurd he List.not_mem_nil
  loading _ := ⟨rfl, rfl⟩
  built h := nomatch h

/-- Settles O59: every buffer is `Buffer.reset`, and the engine is idle. -/
theorem resetIsValid : Obligations.ResetIsValid := by
  unfold Obligations.ResetIsValid
  intro p hp
  exact {
    legal := hp
    bufs := fun b => by rw [resetWith_buf]; exact buffer_reset_valid p
    ht := huffman_reset_valid p
    running := fun h => nomatch h
    held := fun h => nomatch h }

end Sys2Proof.Machine
end

section
/-! PROOFS. Host reads (20_memory.md R64 to R66, R71; 10_state.md R30 to R35), and the accesses that have no step
(20_memory.md R65, 70_reset_and_hazards.md R280). -/

namespace Sys2Proof.Machine

/-! ### Host reads -/

section Reads

variable {s : State} {off : Nat} (hr : s.inReset = false) (h : off < 0x40) (h4 : off % 4 = 0)
include hr h h4

theorem hostRead_base :
    hostRead (s.cfg.hbbBase + off) 4 s = .next { s.afterRead (regAt off) with hostPos := s.hostPos + 1 } :=
  portAccess_base hr h h4 _

theorem hostRead_of_not_drawn {v : Word} (hd : (regAt off).drawn s.busy = false) (hv : s.readReg (regAt off) = v) :
    hostRead (s.cfg.hbbBase + off) 4 s = .next { s with rdata := v, hostPos := s.hostPos + 1 } := by
  rw [hostRead_base hr h h4, State.afterRead, hd, if_neg Bool.false_ne_true, hv]

theorem hostRead_of_drawn (hd : (regAt off).drawn s.busy = true) :
    hostRead (s.cfg.hbbBase + off) 4 s =
      .next { s with rdata := s.readReg (regAt off), hostPos := s.hostPos + 1, draws := s.draws + 1 } := by
  rw [hostRead_base hr h h4, State.afterRead, hd, if_pos rfl]

end Reads

theorem drawn_of_idle {s : State} (hb : s.busy = false) (r : PortReg) : r.drawn s.busy = false := by
  rw [PortReg.drawn, hb, Bool.false_and]

/-- The offsets of RES0, RES1 and STATUS, whose reads draw while BUSY = 1 (20_memory.md R71). -/
theorem drawn_of_busy {s : State} (hb : s.busy = true) {off : Nat} (h : off ∈ [0x1C, 0x20, 0x24]) :
    (regAt off).drawn s.busy = true := by
  rw [hb]
  revert off
  decide

theorem readReg_res0_idle {s : State} (hb : s.busy = false) : s.readReg .res0 = s.res0 :=
  if_neg (by simp [hb])

theorem readReg_res1_idle {s : State} (hb : s.busy = false) : s.readReg .res1 = s.res1 :=
  if_neg (by simp [hb])

theorem readReg_status_idle {s : State} (hb : s.busy = false) : s.readReg .status = s.statusWord :=
  if_neg (by simp [hb])

theorem readReg_status_busy {s : State} (hb : s.busy = true) :
    s.readReg .status = s.statusWith ((Config.freeRead s.draws).setWidth 4) :=
  if_pos hb

/-- The ERR field changes no bit of STATUS above it (10_state.md R23). -/
theorem statusWith_above_err (s : State) (err err' : BitVec 4) :
    (s.statusWith err).extractLsb' 4 28 = (s.statusWith err').extractLsb' 4 28 :=
  BitVec.extractLsb'_append_eq_left.trans BitVec.extractLsb'_append_eq_left.symm

/-- Settles O52: each read goes through the port to the register at its offset, and only RES0, RES1 and STATUS depend on
BUSY. -/
theorem readsReturnTheRegisters : Obligations.ReadsReturnTheRegisters := by
  unfold Obligations.ReadsReturnTheRegisters
  refine fun s hr => ⟨fun x hx => ?_, fun hb x hx => ?_, fun hb off hoff => ?_⟩
  · fin_cases hx <;> dsimp only <;> exact hostRead_of_not_drawn hr (by decide) (by decide) (Bool.and_false _) rfl
  · fin_cases hx <;> dsimp only
    · exact hostRead_of_not_drawn hr (by decide) (by decide) (drawn_of_idle hb _) (readReg_res0_idle hb)
    · exact hostRead_of_not_drawn hr (by decide) (by decide) (drawn_of_idle hb _) (readReg_res1_idle hb)
    · exact hostRead_of_not_drawn hr (by decide) (by decide) (drawn_of_idle hb _) (readReg_status_idle hb)
  · obtain ⟨hlt, h4⟩ : off < 0x40 ∧ off % 4 = 0 := by revert off; decide
    refine ⟨s.readReg (regAt off), hostRead_of_drawn hr hlt h4 (drawn_of_busy hb hoff), ?_⟩
    rintro rfl
    exact (congrArg _ (readReg_status_busy hb)).trans (statusWith_above_err s _ _)

/-! ### Accesses that have no step -/

section NoStep

variable {s : State} {addr width : Nat} (run : PortReg → State)

theorem portAccess_inReset (hr : s.inReset = true) : portAccess addr width s run = .fault .resetAsserted :=
  if_pos hr

theorem portAccess_not_admitted (hr : s.inReset = false) (h : portOffset s.cfg.hbbBase addr width = none) :
    portAccess addr width s run = .refused .accessNotAdmitted := by
  rw [portAccess, hr, if_neg Bool.false_ne_true, h]

end NoStep

/-- Settles O55: reads and writes are the same access, whose admission `portOffset_eq_none` describes. -/
theorem unadmittedAccessesStop : Obligations.UnadmittedAccessesStop := by
  unfold Obligations.UnadmittedAccessesStop
  refine fun s addr width v => ⟨fun hr h => ?_, fun hr => ⟨portAccess_inReset _ hr, portAccess_inReset _ hr⟩⟩
  have hnone := portOffset_eq_none.mpr h
  exact ⟨portAccess_not_admitted _ hr hnone, portAccess_not_admitted _ hr hnone⟩

end Sys2Proof.Machine
end

section
/-! PROOFS. The encoding (30_encoding.md R80 to R98): `decode_eq_ok_iff` says which words decode, and to what, by the rows of
the opcode map. -/

namespace Sys2Proof

open Sys2Proof.Machine

/-! ### What a row leaves to the operands (30_encoding.md R85) -/

/-- How many low IMM bits the command uses; its row fixes the others to 0. -/
def Instr.immBits : Instr → Nat
  | .bbAppend .. => 1
  | .bbAppendChar .. => 8
  | .bbDeserByte .. => 8
  | .htNodeCode _ => 16
  | _ => 0

/-- The command of the same row as `i` with its operands read from `w`. -/
def Instr.readFrom (w : Word) : Instr → Instr
  | .nop => .nop
  | .bbClear _ => .bbClear (fieldBuf w)
  | .bbAppend _ _ => .bbAppend (fieldBuf w) ((fieldImm w).getLsbD 0)
  | .bbAppendChar _ _ => .bbAppendChar (fieldBuf w) ((fieldImm w).setWidth 8)
  | .bbRemove _ => .bbRemove (fieldBuf w)
  | .bbLast _ => .bbLast (fieldBuf w)
  | .bbInfo _ => .bbInfo (fieldBuf w)
  | .bbGetbit _ => .bbGetbit (fieldBuf w)
  | .bbGetchar _ => .bbGetchar (fieldBuf w)
  | .bbGetunit _ => .bbGetunit (fieldBuf w)
  | .bbEqual _ => .bbEqual (fieldBuf w)
  | .bbItbStart _ => .bbItbStart (fieldBuf w)
  | .bbItbNext _ => .bbItbNext (fieldBuf w)
  | .bbItuStart _ => .bbItuStart (fieldBuf w)
  | .bbItuNext _ => .bbItuNext (fieldBuf w)
  | .bbSerLen _ => .bbSerLen (fieldBuf w)
  | .bbSerByte _ => .bbSerByte (fieldBuf w)
  | .bbDeserBegin _ => .bbDeserBegin (fieldBuf w)
  | .bbDeserByte _ _ => .bbDeserByte (fieldBuf w) ((fieldImm w).setWidth 8)
  | .bbDeserEnd _ => .bbDeserEnd (fieldBuf w)
  | .htClear => .htClear
  | .htPush => .htPush
  | .htBuild => .htBuild
  | .htInfo => .htInfo
  | .htNodeWeight => .htNodeWeight
  | .htNodeParent => .htNodeParent
  | .htNodeChildren => .htNodeChildren
  | .htNodeSymbol => .htNodeSymbol
  | .htNodeCode _ => .htNodeCode (fieldImm w)
  | .htLookup => .htLookup

/-- A row fixes the IMM bits from `immBits` up. -/
theorem fieldImm_opcodeRow_mask (i : Instr) : fieldImm (opcodeRow i).1 = BitVec.allOnes 16 <<< i.immBits := by
  cases i <;> simp only [opcodeRow, Instr.immBits] <;> decide

theorem matchesRow_iff_imm_lt (w : Word) (i : Instr) : MatchesRow w i ↔
    fieldRsv w = 0 ∧ fieldOpc w = fieldOpc (encode i) ∧ (i.bufSelect = none → fieldBuf w = 0) ∧
      (fieldImm w).toNat < 2 ^ i.immBits := by
  rw [matchesRow_iff, fieldImm_opcodeRow_mask, imm_lt_iff]

theorem opcodeRow_readFrom (w : Word) (i : Instr) : opcodeRow (i.readFrom w) = opcodeRow i := by
  cases i <;> rfl

/-! ### Which words decode (30_encoding.md R86, R88) -/

theorem immBelow_eq_ok {bound : Nat} {w : Word} {i j : Instr} :
    immBelow bound w i = .ok j ↔ i = j ∧ (fieldImm w).toNat < bound := by
  unfold immBelow
  split <;> simp [*]

theorem bufZero_eq_ok {w : Word} {r : Except DecodeError Instr} {j : Instr} :
    bufZero w r = .ok j ↔ r = .ok j ∧ fieldBuf w = 0 := by
  rw [bufZero, and_comm]
  split
  · next h => simp only [h, true_and]
  · next h => simp only [h, false_and, reduceCtorEq]

/-- Beside the opcode a row asks that BUF is 0, where the command names no buffer, and that the IMM bits it fixes are 0. -/
theorem decodeOpc_eq_ok {w : Word} {i j : Instr} (h : fieldOpc w = fieldOpc (encode i)) :
    decodeOpc w = .ok j ↔
      i.readFrom w = j ∧ (fieldImm w).toNat < 2 ^ i.immBits ∧ (i.bufSelect = none → fieldBuf w = 0) := by
  have himm : (fieldImm w).toNat < 65536 := (fieldImm w).isLt
  cases i <;> simp only [encode, fieldOpc_commandWord] at h <;>
    simp [decodeOpc, h, himm, bufZero_eq_ok, immBelow_eq_ok, and_assoc, Instr.bufSelect, Instr.immBits, Instr.readFrom]

theorem fieldOpc_of_decodeOpc {w : Word} {i : Instr} (h : decodeOpc w = .ok i) : fieldOpc w = fieldOpc (encode i) := by
  unfold decodeOpc at h
  split at h <;> simp only [bufZero_eq_ok, immBelow_eq_ok, Except.ok.injEq, and_assoc, reduceCtorEq] at h
  all_goals
    obtain ⟨rfl, -⟩ := h
    rw [encode, fieldOpc_commandWord]
    assumption

/-- A word decodes to the command whose row it matches, with the operands it carries. -/
theorem decode_eq_ok_iff {w : Word} {i : Instr} : decode w = .ok i ↔ MatchesRow w i ∧ i.readFrom w = i := by
  rw [matchesRow_iff_imm_lt, decode]
  split
  · next hrsv =>
    constructor
    · intro h
      have hopc := fieldOpc_of_decodeOpc h
      obtain ⟨hread, himm, hbuf⟩ := (decodeOpc_eq_ok hopc).mp h
      exact ⟨⟨hrsv, hopc, hbuf, himm⟩, hread⟩
    · rintro ⟨⟨-, hopc, hbuf, himm⟩, hread⟩
      exact (decodeOpc_eq_ok hopc).mpr ⟨hread, himm, hbuf⟩
  · next hrsv => simp only [hrsv, false_and, reduceCtorEq]

theorem matchesRow_readFrom {w : Word} {i : Instr} (h : MatchesRow w i) : MatchesRow w (i.readFrom w) := by
  rw [MatchesRow, opcodeRow_readFrom]; exact h

theorem readFrom_readFrom (w : Word) (i : Instr) : (i.readFrom w).readFrom w = i.readFrom w := by
  cases i <;> rfl

theorem decode_of_matchesRow {w : Word} {i : Instr} (h : MatchesRow w i) : decode w = .ok (i.readFrom w) :=
  decode_eq_ok_iff.mpr ⟨matchesRow_readFrom h, readFrom_readFrom w i⟩

/-! ### The word of a command (30_encoding.md R80, R85) -/

/-- The IMM field of a command's word. -/
def Instr.imm : Instr → BitVec 16
  | .bbAppend _ v => (BitVec.ofBool v).setWidth 16
  | .bbAppendChar _ c => c.setWidth 16
  | .bbDeserByte _ d => d.setWidth 16
  | .htNodeCode j => j
  | _ => 0

theorem encode_eq (i : Instr) : encode i = commandWord i.imm (i.bufSelect.getD 0) (fieldOpc (encode i)) := by
  cases i <;> simp only [encode, fieldOpc_commandWord] <;> rfl

theorem imm_toNat_lt (i : Instr) : i.imm.toNat < 2 ^ i.immBits := by
  cases i
  case bbAppend | bbAppendChar | bbDeserByte =>
    rw [Instr.imm, BitVec.toNat_setWidth_of_le (by decide)]
    exact BitVec.isLt _
  case htNodeCode j => exact j.isLt
  all_goals exact Nat.one_pos

theorem encode_matchesRow (i : Instr) : MatchesRow (encode i) i := by
  rw [matchesRow_iff_imm_lt]
  refine ⟨?_, rfl, fun h => ?_, ?_⟩ <;> rw [encode_eq]
  · exact fieldRsv_commandWord ..
  · rw [fieldBuf_commandWord, h]; rfl
  · rw [fieldImm_commandWord]; exact imm_toNat_lt i

theorem readFrom_encode (i : Instr) : i.readFrom (encode i) = i := by
  cases i <;> simp [Instr.readFrom, encode]

/-- Settles O1: a command's word matches its row and carries its operands. -/
theorem decodeOfEncodeIsTheCommand : Obligations.DecodeOfEncodeIsTheCommand := by
  unfold Obligations.DecodeOfEncodeIsTheCommand
  exact fun i => decode_eq_ok_iff.mpr ⟨encode_matchesRow i, readFrom_encode i⟩

theorem imm_readFrom {w : Word} {i : Instr} (h : (fieldImm w).toNat < 2 ^ i.immBits) :
    (i.readFrom w).imm = fieldImm w := by
  cases i
  case bbAppend =>
    rw [Instr.readFrom, Instr.imm, ← BitVec.setWidth_one]
    exact BitVec.setWidth_setWidth_eq_self h
  case bbAppendChar | bbDeserByte => exact BitVec.setWidth_setWidth_eq_self h
  case htNodeCode => rfl
  all_goals exact BitVec.eq_of_toNat_eq (Nat.lt_one_iff.mp h).symm

theorem bufSelect_readFrom {w : Word} {i : Instr} (h : i.bufSelect = none → fieldBuf w = 0) :
    (i.readFrom w).bufSelect.getD 0 = fieldBuf w := by
  cases hb : i.bufSelect with
  | none => rw [h hb]; cases i <;> cases hb <;> rfl
  | some b => cases i <;> cases hb <;> rfl

/-- No bit of a matching word is ignored. -/
theorem encode_readFrom {w : Word} {i : Instr} (h : MatchesRow w i) : encode (i.readFrom w) = w := by
  obtain ⟨_, _, hbuf, himm⟩ := (matchesRow_iff_imm_lt w i).mp h
  obtain ⟨hrsv, hopc, _, _⟩ := (matchesRow_iff_imm_lt w _).mp (matchesRow_readFrom h)
  rw [encode_eq, imm_readFrom himm, bufSelect_readFrom hbuf, ← hopc, commandWord_fields hrsv]

/-- Settles O2: a matching word decodes to the command of that row read from the word, so two matching rows are equal, and
that command's word is the word. -/
theorem decodeAcceptsExactlyTheRows : Obligations.DecodeAcceptsExactlyTheRows := by
  unfold Obligations.DecodeAcceptsExactlyTheRows
  refine fun w => ⟨⟨?_, ?_⟩, fun i j hi hj => ?_, fun i h => ?_⟩
  · rintro ⟨i, h⟩; exact ⟨i, (decode_eq_ok_iff.mp h).1⟩
  · rintro ⟨i, h⟩; exact ⟨_, decode_of_matchesRow h⟩
  · have hij : i.readFrom w = j.readFrom w :=
      Except.ok.inj ((decode_of_matchesRow hi).symm.trans (decode_of_matchesRow hj))
    rw [← opcodeRow_readFrom w i, hij, opcodeRow_readFrom]
  · obtain ⟨hm, hread⟩ := decode_eq_ok_iff.mp h
    have hword := encode_readFrom hm
    rw [hread] at hword
    exact ⟨hm, hword⟩

end Sys2Proof

namespace Sys2Proof.Machine

theorem runCommand_missing {s : State} {i : Instr} {b : BitVec 2} (h : decode s.latCmd = .ok i)
    (hb : i.bufSelect = some b) (hn : s.cfg.nbuf ≤ b.toNat) : runCommand s = .next (s.raised .illegal 0) := by
  rw [runCommand_ok h, exec_missing hb hn]; rfl

/-- Settles O3: the words by evaluation, the missing buffer by `runCommand_missing`. -/
theorem specWordsDecode : Obligations.SpecWordsDecode := by
  unfold Obligations.SpecWordsDecode
  refine ⟨by decide, by decide, by decide, fun s hn hc => ?_⟩
  have hdec : decode s.latCmd = .ok (.bbClear 2) := by rw [hc]; decide
  exact runCommand_missing hdec rfl hn.le

end Sys2Proof.Machine
end

section
/-! PROOFS. What a command does to the units: the frames of 40_bitbuffer.md R100 and 42_huffman.md R180, and the commands that
only read. -/

namespace Sys2Proof.Machine

/-! ### What an answer may put into the state -/

section Ends

variable {α : Type} {put : α → State} {s : State}

/-- Past a check that raises, a command may rest on the check. -/
theorem ends_check {c : Prop} [Decidable c] {e : ErrCode} {info : Word} {a : Answer} (he : e ≠ .ok)
    (h : ¬ c → Ends put s a) : Ends put s (if c then raise e info s else a) := by
  split
  · exact ends_raise he info
  · next hc => exact h hc

/-- `selectBuf_ends` for every `put`, with the buffer that is selected. -/
theorem ends_selectBuf {b : BitVec 2} {run : Buffer → Answer} (h : Ends put s (run (s.buf b))) :
    Ends put s (selectBuf b s run) :=
  ends_check (by decide) fun _ => h

/-- `readNode_ends` for every `put`. -/
theorem ends_readNode {run : Node → Answer} (h : ∀ x, Ends put s (run x)) : Ends put s (readNode s run) :=
  ends_check (by decide) fun _ => ends_check (by decide) fun _ => h _

/-- A NEXT that delivers an element completes with `moved`, and at the end with `s` (41_bitbuffer_serial.md R142, R144). -/
theorem ends_nextElement {c : Cursor} {len : Nat} {elem : Word} {moved : State} (hstay : ∃ x, put x = s)
    (hmove : c.pos < len → ∃ x, put x = moved) : Ends put s (nextElement c len elem moved s) := by
  unfold nextElement
  split
  · exact ends_raise (by decide) 0
  · exact ends_raise (by decide) 0
  · split
    · next hlt =>
      obtain ⟨x, rfl⟩ := hmove hlt
      exact ends_complete x _ _
    · obtain ⟨x, hx⟩ := hstay
      exact .inr ⟨x, 0, 0, by rw [hx]; rfl⟩

end Ends

/-! ### The commands that only read -/

/-- `a` is the answer of a command that raised, or that completed with nothing replaced. -/
def Reads (s : State) (a : Answer) : Prop :=
  Ends (fun _ : Unit => s) s a

theorem reads_complete (s : State) (r0 r1 : Word) : Reads s (complete r0 r1 s) :=
  ends_complete (put := fun _ : Unit => s) () r0 r1

theorem Reads.unitsKept {s t : State} (h : Reads s (.next t)) : UnitsKept s t := by
  rcases h with ⟨e, info, _, ht⟩ | ⟨_, r0, r1, ht⟩
  · cases ht; exact raised_units s e info
  · cases ht; exact completed_units s r0 r1

/-- A command that reads also ends as one that puts back what it found. -/
theorem Reads.ends {α : Type} {put : α → State} {s : State} {a : Answer} (h : Reads s a) (x : α) (hx : put x = s) :
    Ends put s a := by
  rcases h with hr | ⟨_, r0, r1, ha⟩
  · exact .inl hr
  · exact .inr ⟨x, r0, r1, by rw [hx]; exact ha⟩

theorem exec_reads {i : Instr} (hi : readsOnly i = true) (s : State) : Reads s (exec i s) := by
  cases i <;> simp only [readsOnly, Bool.false_eq_true] at hi <;> unfold exec
  case nop | htInfo => exact reads_complete s _ _
  case bbInfo | bbSerLen => exact ends_selectBuf (reads_complete s _ _)
  case bbLast | bbGetbit | bbGetchar | bbGetunit | bbEqual | bbSerByte =>
    exact ends_selectBuf (ends_check (by decide) fun _ => reads_complete s _ _)
  case htNodeWeight | htNodeParent | htNodeChildren | htNodeSymbol =>
    exact ends_readNode fun _ => reads_complete s _ _
  case htNodeCode => exact ends_readNode fun _ => ends_check (by decide) fun _ => reads_complete s _ _
  case htLookup =>
    refine ends_check (by decide) fun _ => ?_
    split
    · exact ends_raise (by decide) 0
    · exact reads_complete s _ _

/-- Settles O10: a reading command raises or completes with nothing replaced. -/
theorem readingCommandsChangeNoUnit : Obligations.ReadingCommandsChangeNoUnit := by
  unfold Obligations.ReadingCommandsChangeNoUnit
  intro i s t hi h
  have hreads := exec_reads hi s
  rw [h] at hreads
  exact hreads.unitsKept

/-- Settles O9: by `exec_inv` the one unit a command may replace is the buffer it selects, or the Huffman unit when it
selects none. -/
theorem commandsKeepTheOtherUnits : Obligations.CommandsKeepTheOtherUnits := by
  unfold Obligations.CommandsKeepTheOtherUnits
  intro i s t h
  rcases exec_inv h with ⟨e, info, _, rfl⟩ | ⟨b, B, r0, r1, hb, rfl⟩ | ⟨H, r0, r1, hb, rfl⟩ <;>
    refine ⟨fun c hc => ?_, fun hn => ?_⟩
  · exact ⟨raised_ht s e info, fun d _ => buf_raised s e info d⟩
  · exact raised_bufs s e info
  · obtain rfl : b = c := Option.some.inj (hb.symm.trans hc)
    exact setBuf_completed_only s b B r0 r1
  · rw [hb] at hn; cases hn
  · rw [hb] at hc; cases hc
  · rfl

end Sys2Proof.Machine
end

section
/-! PROOFS. The invariant of the machine is kept by every step (40_bitbuffer.md R114): each operation of a command puts a valid
buffer or a valid Huffman unit into the state, and everything else leaves both units alone or resets them. -/

namespace Sys2Proof.Machine

/-! ### The operations on a buffer (10_state.md R42 to R45) -/

section BufferOps

variable {p : Params} {B : Buffer} (hB : B.Valid p)
include hB

theorem markStale_valid : B.markStale.Valid p :=
  { hB with
    itb_le := (markStale_cursor_pos B.itb).trans_le hB.itb_le
    itu_le := (markStale_cursor_pos B.itu).trans_le hB.itu_le }

theorem emptied_valid : Buffer.Valid p { B with bitCount := 0, units := [0#8] } :=
  { hB with count_le := Nat.zero_le _, i1 := emptied_I1 B, i2 := emptied_I2 p.bitOrder B }

theorem withItb_valid {c : Cursor} (h : c.pos ≤ p.maxBits) : Buffer.Valid p { B with itb := c } :=
  { hB with itb_le := h }

theorem withItu_valid {c : Cursor} (h : c.pos ≤ p.maxUnits) : Buffer.Valid p { B with itu := c } :=
  { hB with itu_le := h }

theorem withStg_valid {g : Staging} (h : g.bytes.length ≤ p.scap) : Buffer.Valid p { B with stg := g } :=
  { hB with staged_le := h }

end BufferOps

/-! ### The operations on the Huffman unit (42_huffman.md R182, R192) -/

section HuffmanOps

variable {p : Params} {H : Huffman} (hH : H.Valid p)
include hH

theorem huffman_push_valid {e : Entry} (hphase : H.phase ≠ .built) (he : e.InRange p) (hlt : H.raw.length < p.maxEntries) :
    Huffman.Valid p { H with raw := H.raw ++ [e] } where
  raw_le := by simpa using hlt
  raw_in := by
    intro f hf
    rcases List.mem_append.mp hf with hf | hf
    · exact hH.raw_in f hf
    · exact List.mem_singleton.mp hf ▸ he
  loading := hH.loading
  built h := absurd h hphase

theorem huffman_build_valid : (H.build p.merge).Valid p where
  raw_le := hH.raw_le
  raw_in := hH.raw_in
  loading h := nomatch h
  built _ := ⟨rfl, rfl⟩

end HuffmanOps

/-! ### Commands -/

/-- `B[b] <- B` for a buffer a host can observe. -/
def putValidBuf (s : State) (b : BitVec 2) (B : { B : Buffer // B.Valid s.cfg }) : State :=
  s.setBuf b B

/-- `H <- H'` for a Huffman unit a host can observe. -/
def putValidHt (s : State) (H : { H : Huffman // H.Valid s.cfg }) : State :=
  s.setHt H

theorem appendTo_ends_valid {s : State} {b : BitVec 2} (hB : (s.buf b).Valid s.cfg) (v : Bool) :
    Ends (putValidBuf s b) s (appendTo b v s) :=
  ends_selectBuf <| ends_check (by decide) fun hne =>
    ends_complete (put := putValidBuf s b) ⟨_, appendBit_valid hB (lt_of_le_of_ne hB.count_le hne) v⟩ _ _

/-- `exec_ends_buf` in a valid state: the buffer put is valid again. -/
theorem exec_ends_validBuf {i : Instr} {b : BitVec 2} (hb : i.bufSelect = some b) {s : State} (hs : s.Valid) :
    Ends (putValidBuf s b) s (exec i s) := by
  have hB := hs.bufs b
  have hself : putValidBuf s b ⟨s.buf b, hB⟩ = s := setBuf_self s b
  by_cases hread : readsOnly i = true
  · exact (exec_reads hread s).ends ⟨_, hB⟩ hself
  · cases i <;> simp only [Instr.bufSelect, Option.some.injEq, reduceCtorEq] at hb <;>
      simp only [readsOnly, not_true_eq_false] at hread <;> subst hb <;> unfold exec
    case bbAppend => exact appendTo_ends_valid hB _
    case bbAppendChar => exact appendTo_ends_valid hB _
    case bbClear =>
      exact ends_selectBuf (ends_complete (put := putValidBuf s _) ⟨_, markStale_valid (emptied_valid hB)⟩ _ _)
    case bbRemove =>
      exact ends_selectBuf <| ends_check (by decide) fun hne =>
        ends_complete (put := putValidBuf s _) ⟨_, removeLast_valid hB (Nat.pos_of_ne_zero hne)⟩ _ _
    case bbItbStart =>
      exact ends_selectBuf (ends_complete (put := putValidBuf s _) ⟨_, withItb_valid hB (Nat.zero_le _)⟩ _ _)
    case bbItbNext =>
      exact ends_selectBuf <| ends_nextElement ⟨_, hself⟩ fun hlt =>
        ⟨⟨_, withItb_valid hB (Nat.le_trans hlt hB.count_le)⟩, rfl⟩
    case bbItuStart =>
      exact ends_selectBuf (ends_complete (put := putValidBuf s _) ⟨_, withItu_valid hB (Nat.zero_le _)⟩ _ _)
    case bbItuNext =>
      exact ends_selectBuf <| ends_nextElement ⟨_, hself⟩ fun hlt =>
        ⟨⟨_, withItu_valid hB (Nat.le_trans hlt (units_length_le hB hs.legal).2)⟩, rfl⟩
    case bbDeserBegin =>
      exact ends_selectBuf (ends_complete (put := putValidBuf s _) ⟨_, withStg_valid hB (Nat.zero_le _)⟩ _ _)
    case bbDeserByte =>
      exact ends_selectBuf <| ends_check (by decide) fun _ =>
        ends_complete (put := putValidBuf s _) ⟨_, withStg_valid hB (receive_length_le hB.staged_le _)⟩ _ _
    case bbDeserEnd =>
      refine ends_selectBuf <| ends_check (by decide) fun _ => ?_
      split
      · exact ends_raise (by decide) _
      · next hv => exact ends_complete (put := putValidBuf s _) ⟨_, install_valid hv hB.staged_le hB⟩ _ _

/-- `exec_ends_ht` in a valid state: the Huffman unit put is valid again. -/
theorem exec_ends_validHt {i : Instr} (hb : i.bufSelect = none) {s : State} (hs : s.Valid) :
    Ends (putValidHt s) s (exec i s) := by
  have hH := hs.ht
  by_cases hread : readsOnly i = true
  · exact (exec_reads hread s).ends ⟨_, hH⟩ (setHt_self s)
  · cases i <;> simp only [Instr.bufSelect, reduceCtorEq] at hb <;>
      simp only [readsOnly, not_true_eq_false] at hread <;> unfold exec
    case htClear => exact ends_complete (put := putValidHt s) ⟨_, huffman_reset_valid s.cfg⟩ _ _
    case htPush =>
      refine ends_check (by decide) fun hphase => ends_check (by decide) fun hrange => ends_check (by decide) fun hne => ?_
      have hlt : s.ht.raw.length < s.cfg.maxEntries := lt_of_le_of_ne hH.raw_le hne
      have he : Entry.InRange s.cfg ⟨s.a0, s.a1⟩ := by simpa [Entry.InRange] using hrange
      exact ends_complete (put := putValidHt s) ⟨_, huffman_push_valid hH hphase he hlt⟩ _ _
    case htBuild =>
      exact ends_check (by decide) fun _ => ends_complete (put := putValidHt s) ⟨_, huffman_build_valid hH⟩ _ _

/-! ### What keeps a state valid -/

/-- The invariant speaks of the parameters, the two units and the engine's registers. -/
theorem valid_of_unitsKept {s t : State} (hs : s.Valid) (hcfg : t.cfg = s.cfg) (hunits : UnitsKept s t)
    (hrun : t.busy = true → t.latCmd = t.cmd) (hheld : t.inReset = true → t.busy = false) : t.Valid where
  legal := hcfg ▸ hs.legal
  bufs b := by
    rw [hcfg, State.buf, hunits.bufs]
    exact hs.bufs b
  ht := by
    rw [hcfg, hunits.ht]
    exact hs.ht
  running := hrun
  held := hheld

theorem setBuf_valid {s : State} (hs : s.Valid) (b : BitVec 2) {B : Buffer} (hB : B.Valid s.cfg) : (s.setBuf b B).Valid :=
  { hs with
    bufs := fun c => by
      by_cases hc : c = b
      · rw [hc, buf_setBuf_same]; exact hB
      · rw [buf_setBuf_ne s hc]; exact hs.bufs c }

theorem setHt_valid {s : State} (hs : s.Valid) {H : Huffman} (hH : H.Valid s.cfg) : (s.setHt H).Valid :=
  { hs with ht := hH }

theorem completed_valid {s : State} (hs : s.Valid) (r0 r1 : Word) : (s.completed r0 r1).Valid :=
  valid_of_unitsKept hs rfl (completed_units s r0 r1) (fun h => nomatch h) fun _ => rfl

theorem raised_valid {s : State} (hs : s.Valid) (e : ErrCode) (info : Word) : (s.raised e info).Valid :=
  valid_of_unitsKept hs rfl (raised_units s e info) (fun h => nomatch h) fun _ => rfl

/-- An answer that raised or put something valid is valid. -/
theorem Ends.valid {α : Type} {put : α → State} {s t : State} (h : Ends put s (.next t)) (hs : s.Valid)
    (hput : ∀ x, (put x).Valid) : t.Valid := by
  rcases h with ⟨e, info, _, ht⟩ | ⟨x, r0, r1, ht⟩
  · cases ht; exact raised_valid hs e info
  · cases ht; exact completed_valid (hput x) r0 r1

theorem exec_valid {i : Instr} {s t : State} (hs : s.Valid) (h : exec i s = .next t) : t.Valid := by
  cases hb : i.bufSelect with
  | some b =>
    have hends := exec_ends_validBuf hb hs
    rw [h] at hends
    exact hends.valid hs fun B => setBuf_valid hs b B.property
  | none =>
    have hends := exec_ends_validHt hb hs
    rw [h] at hends
    exact hends.valid hs fun H => setHt_valid hs H.property

theorem exec_cfg {i : Instr} {s t : State} (h : exec i s = .next t) : t.cfg = s.cfg := by
  rcases exec_done_or_raised h with hd | ⟨e, info, _, rfl⟩
  · exact hd.kept.cfg
  · exact raised_cfg s e info

/-! ### The inputs -/

theorem engineTurn_valid {s t : State} (hs : s.Valid) (h : engineTurn s = .next t) : t.Valid ∧ t.cfg = s.cfg := by
  rcases engineTurn_eq_next h with rfl | ⟨_, _, ⟨i, _, hi⟩ | rfl⟩
  · exact ⟨hs, rfl⟩
  · exact ⟨exec_valid hs hi, exec_cfg hi⟩
  · exact ⟨raised_valid hs _ _, rfl⟩

theorem hostRead_valid {addr width : Nat} {s t : State} (hs : s.Valid) (h : hostRead addr width s = .next t) :
    t.Valid ∧ t.cfg = s.cfg := by
  obtain ⟨_, off, _, _, _, _, rfl⟩ := portAccess_eq_next.mp h
  exact ⟨valid_of_unitsKept hs rfl ⟨rfl, rfl⟩ hs.running hs.held, rfl⟩

/-- A register write leaves CMD readback and the latched word alike while BUSY = 1: a CMD write is accepted into both, or
dropped (70_reset_and_hazards.md R290, R291). -/
theorem writeReg_running {s : State} (hrun : s.busy = true → s.latCmd = s.cmd) (v : Word) (r : PortReg)
    (hb : (s.writeReg v r).busy = true) : (s.writeReg v r).latCmd = (s.writeReg v r).cmd := by
  cases r
  case cmd =>
    simp only [State.writeReg, State.writeCmd]
    split
    · next hbusy => exact hrun hbusy
    · rfl
  all_goals exact hrun hb

theorem hostWrite_valid {addr width : Nat} {v : Word} {s t : State} (hs : s.Valid) (h : hostWrite addr width v s = .next t) :
    t.Valid ∧ t.cfg = s.cfg := by
  obtain ⟨hr, off, _, _, _, _, rfl⟩ := portAccess_eq_next.mp h
  obtain ⟨hcfg, hbufs, hht, hreset, _⟩ := writeReg_kept s v (regAt off)
  refine ⟨valid_of_unitsKept hs hcfg ⟨hbufs, hht⟩ (writeReg_running hs.running v _) fun hin => ?_, hcfg⟩
  exact absurd (hreset.symm.trans hin) (by simp [hr])

/-- The block's state at its reset values is valid, whether the reset input is on or off. -/
theorem toReset_valid {s : State} (hs : s.Valid) (on : Bool) : State.Valid { s.toReset with inReset := on } :=
  valid_of_unitsKept (resetIsValid s.cfg hs.legal) rfl ⟨rfl, rfl⟩ (fun h => nomatch h) fun _ => rfl

theorem releaseReset_valid {s : State} (hs : s.Valid) : s.releaseReset.Valid ∧ s.releaseReset.cfg = s.cfg := by
  unfold State.releaseReset
  split
  · exact ⟨toReset_valid hs false, rfl⟩
  · exact ⟨hs, rfl⟩

theorem takeInput_valid {e : Input} {s t : State} (hs : s.Valid) (h : takeInput e s = .next t) : t.Valid ∧ t.cfg = s.cfg := by
  cases e with
  | read addr width => exact hostRead_valid hs h
  | write addr width v => exact hostWrite_valid hs h
  | engine => exact engineTurn_valid hs h
  | resetAssert => cases h; exact ⟨toReset_valid hs true, rfl⟩
  | resetRelease => cases h; exact releaseReset_valid hs

theorem withInputs_valid {s : State} (hs : s.Valid) (rest : List Input) : State.Valid { s with inputs := rest } :=
  valid_of_unitsKept hs rfl ⟨rfl, rfl⟩ hs.running hs.held

/-- Settles O60: one lemma for each input, and `exec_valid` for the command the engine runs. -/
theorem stepKeepsTheStateValid : Obligations.StepKeepsTheStateValid := by
  unfold Obligations.StepKeepsTheStateValid
  intro s t hs h
  cases hin : s.inputs with
  | nil => exact engineTurn_valid hs (step_nil hin ▸ h)
  | cons e rest =>
    rw [step_cons hin] at h
    exact takeInput_valid (s := { s with inputs := rest }) (withInputs_valid hs rest) h

end Sys2Proof.Machine
end

section
/-! PROOFS. The bit-buffer core family (40_bitbuffer.md): what clearing, appending, removing and reading do to the sequence of
logical bits. -/

namespace Sys2Proof.Machine

/-! ### Cursors under a mutation (70_reset_and_hazards.md R295) -/

/-- Two mutations stale a cursor as one does. -/
theorem Staled.trans {c d e : Cursor} (h : Staled c d) (h' : Staled d e) : Staled c e where
  pos := h'.pos.trans h.pos
  state := by
    rw [h'.state, h.state]
    by_cases hc : c.state = .active <;> simp [hc]

theorem CursorsStaled.trans {B C D : Buffer} (h : CursorsStaled B C) (h' : CursorsStaled C D) : CursorsStaled B D where
  itb := h.itb.trans h'.itb
  itu := h.itu.trans h'.itu

theorem cursorsStaled_of_markStale {B C : Buffer} (hitb : C.itb = B.itb.markStale) (hitu : C.itu = B.itu.markStale) :
    CursorsStaled B C where
  itb := hitb ▸ markStale_cursor B.itb
  itu := hitu ▸ markStale_cursor B.itu

/-! ### The commands that change the buffer -/

/-- Settles O13: BB_CLEAR puts the emptied buffer with its cursors stale. -/
theorem clearEmptiesTheBuffer : Obligations.ClearEmptiesTheBuffer := by
  unfold Obligations.ClearEmptiesTheBuffer
  intro s b hb
  refine ⟨_, exec_bbClear hb, setBuf_completed_done .., setBuf_completed_only .., rfl, rfl, ?_⟩
  rw [buf_completed, buf_setBuf_same]
  exact ⟨rfl, rfl, cursorsStaled_of_markStale rfl rfl, rfl⟩

theorem charBit_eq (c : Byte) : charBit c = decide (c = 0x31) :=
  beq_eq_decide ..

/-- Both append forms run AppendBit (40_bitbuffer.md R103, R104). -/
theorem exec_append_eq {i : Instr} {b : BitVec 2} {v : Bool} (s : State)
    (hi : i = .bbAppend b v ∨ ∃ c : Byte, i = .bbAppendChar b c ∧ v = decide (c = 0x31)) : exec i s = appendTo b v s := by
  rcases hi with rfl | ⟨c, rfl, rfl⟩
  · exact exec_bbAppend b v s
  · rw [exec_bbAppendChar, charBit_eq]

theorem appendTo_of_lt {s : State} {b : BitVec 2} (hr : Ready b s) (hlt : (s.buf b).bitCount < s.cfg.maxBits) (v : Bool) :
    appendTo b v s = .next ((s.setBuf b ((s.buf b).appendBit s.cfg.bitOrder v)).completed (word32 ((s.buf b).bitCount + 1))
      (word32 ((s.buf b).appendBit s.cfg.bitOrder v).units.length)) := by
  rw [appendTo_eq hr.present, if_neg hlt.ne]; rfl

theorem bitCount_lt {p : Params} {B : Buffer} (hp : p.Legal) (hB : B.Valid p) : B.bitCount < 2 ^ 32 :=
  hB.count_le.trans_lt (maxBits_lt hp)

theorem units_length_lt {p : Params} {B : Buffer} (hp : p.Legal) (hB : B.Valid p) : B.units.length < 2 ^ 32 := by
  have := (units_length_le hB hp).2
  have := hp.2.1.2
  omega

/-- Settles O14: `appendBit_bits` and `appendBit_valid`, for the state `appendTo_of_lt` gives. -/
theorem appendAddsOneBit : Obligations.AppendAddsOneBit := by
  unfold Obligations.AppendAddsOneBit
  intro s b v i hi hr hlt
  have hB := appendBit_valid hr.valid hlt v
  refine ⟨_, (exec_append_eq s hi).trans (appendTo_of_lt hr hlt v), setBuf_completed_done .., setBuf_completed_only .., ?_⟩
  rw [buf_completed, buf_setBuf_same]
  exact ⟨appendBit_bits hr.valid.i1 hr.valid.i2 v, hB, word32_toNat (bitCount_lt hr.legal hB),
    word32_toNat (units_length_lt hr.legal hB), cursorsStaled_of_markStale rfl rfl, rfl⟩

/-- Settles O15: `removeLast_bits` and `removeLast_valid`, with the bit RemoveLast returns. -/
theorem removeTakesTheLastBit : Obligations.RemoveTakesTheLastBit := by
  unfold Obligations.RemoveTakesTheLastBit
  intro s b hr hpos
  have hexec := exec_bbRemove hr.present
  rw [if_neg hpos.ne'] at hexec
  have hB := removeLast_valid hr.valid hpos
  refine ⟨_, (s.buf b).removedBit s.cfg.bitOrder, hexec, setBuf_completed_done .., setBuf_completed_only .., ?_⟩
  rw [buf_completed, buf_setBuf_same]
  exact ⟨removeLast_bits hr.valid.i1 hr.valid.i2 hpos, hB, rfl, word32_toNat (bitCount_lt hr.legal hB),
    cursorsStaled_of_markStale rfl rfl, rfl⟩

/-! ### The commands that read the buffer -/

theorem bits_getElem?_eq_some {o : BitOrder} {B : Buffer} {k : Nat} {v : Bool} :
    (B.bits o)[k]? = some v ↔ k < B.bitCount ∧ B.bit o k = v := by
  simp [bits_getElem?]

theorem bits_getLast?_eq_some {o : BitOrder} {B : Buffer} {v : Bool} :
    (B.bits o).getLast? = some v ↔ 0 < B.bitCount ∧ B.bit o (B.bitCount - 1) = v := by
  rw [List.getLast?_eq_getElem?, bits_getElem?_eq_some, bits_length]
  exact and_congr_left' (by omega)

section BitReads

variable {s : State} {b : BitVec 2} {v : Bool} (hb : b.toNat < s.cfg.nbuf)
include hb

theorem exec_bbLast_of_bit (hv : ((s.buf b).bits s.cfg.bitOrder).getLast? = some v) :
    exec (.bbLast b) s = .next (s.completed (bitWord v) 0) := by
  obtain ⟨hpos, rfl⟩ := bits_getLast?_eq_some.mp hv
  rw [exec_bbLast hb, if_neg hpos.ne']; rfl

theorem exec_bbGetbit_of_bit (hv : ((s.buf b).bits s.cfg.bitOrder)[s.latA0.toNat]? = some v) :
    exec (.bbGetbit b) s = .next (s.completed (bitWord v) 0) := by
  obtain ⟨hlt, rfl⟩ := bits_getElem?_eq_some.mp hv
  rw [exec_bbGetbit hb, State.a0, if_neg (not_le.mpr hlt)]; rfl

theorem exec_bbGetchar_of_bit (hv : ((s.buf b).bits s.cfg.bitOrder)[s.latA0.toNat]? = some v) :
    exec (.bbGetchar b) s = .next (s.completed (bitChar v) 0) := by
  obtain ⟨hlt, rfl⟩ := bits_getElem?_eq_some.mp hv
  rw [exec_bbGetchar hb, State.a0, if_neg (not_le.mpr hlt)]; rfl

end BitReads

/-- Settles O16: each read is of a bit that exists. -/
theorem bitReadsReturnTheBit : Obligations.BitReadsReturnTheBit := by
  unfold Obligations.BitReadsReturnTheBit
  refine fun s b v hb => ⟨fun hv => ?_, fun hv => ⟨?_, ?_⟩⟩
  · exact ⟨_, exec_bbLast_of_bit hb hv, completed_done .., completed_units .., rfl, rfl⟩
  · exact ⟨_, exec_bbGetbit_of_bit hb hv, completed_done .., completed_units .., rfl, rfl⟩
  · exact ⟨_, exec_bbGetchar_of_bit hb hv, completed_done .., completed_units .., rfl, rfl⟩

/-- Settles O17: both counts of a valid buffer are below 2^32. -/
theorem infoReportsTheCounts : Obligations.InfoReportsTheCounts := by
  unfold Obligations.InfoReportsTheCounts
  intro s b hr
  exact ⟨_, exec_bbInfo hr.present, completed_done .., completed_units .., word32_toNat (bitCount_lt hr.legal hr.valid),
    word32_toNat (units_length_lt hr.legal hr.valid)⟩

theorem physBit_eq_ite (o : BitOrder) (p : Nat) : physBit o p = if o = .lsbFirst then p else 7 - p := by
  cases o <;> rfl

/-- A unit of a valid buffer shows the logical bits of its positions, and 0 at or beyond bitCount. -/
theorem unitBit_eq_bits {o : BitOrder} {B : Buffer} (h1 : B.I1) (h2 : B.I2 o) {k p : Nat} (hp : p < 8)
    (hk : k < B.units.length) : unitBit o (B.units.getD k 0) p = (B.bits o)[8 * k + p]?.getD false := by
  rw [unitBit_of_valid h1 h2 hp hk, bits_getElem?]
  split <;> rfl

/-- Settles O18: the result is the unit itself, whose bits `unitBit_eq_bits` gives. -/
theorem unitReadsShowTheBits : Obligations.UnitReadsShowTheBits := by
  unfold Obligations.UnitReadsShowTheBits
  intro s b hr hk
  have hexec := exec_bbGetunit hr.present
  rw [State.a0, if_neg (not_le.mpr hk)] at hexec
  refine ⟨_, hexec, completed_done .., completed_units .., rfl, ?_, fun p hp => ?_⟩
  · rw [completed_res0, BitVec.toNat_setWidth_of_le (by decide)]
    exact BitVec.isLt _
  · have hphys := physBit_lt s.cfg.bitOrder hp
    rw [completed_res0, ← physBit_eq_ite, ← unitBit_eq_bits hr.valid.i1 hr.valid.i2 hp hk, BitVec.getLsbD_setWidth,
      decide_eq_true (by omega), Bool.true_and]
    rfl

/-- "`units` is a function of the bit sequence alone" (10_state.md R43, R46). -/
theorem sameBits_eq {o : BitOrder} {B C : Buffer} (hB1 : B.I1) (hB2 : B.I2 o) (hC1 : C.I1) (hC2 : C.I2 o) :
    B.sameBits C = decide (B.bits o = C.bits o) := by
  rw [Buffer.sameBits, beq_eq_decide, beq_eq_decide, ← Bool.decide_and, decide_eq_decide]
  refine ⟨fun ⟨hcount, hunits⟩ => ?_, units_eq_of_bits_eq hB1 hB2 hC1 hC2⟩
  have hbit : B.bit o = C.bit o := funext fun k => by rw [Buffer.bit, Buffer.bit, hunits]
  rw [Buffer.bits, Buffer.bits, hcount, hbit]

/-- Settles O19: equal contents are equal bits. -/
theorem equalComparesTheBits : Obligations.EqualComparesTheBits := by
  unfold Obligations.EqualComparesTheBits
  intro s b c hb hc ha
  have hexec := exec_bbEqual hb.present
  rw [State.a0, if_neg (not_le.mpr (ha.trans_lt hc.present)), ha, BitVec.ofNat_toNat, BitVec.setWidth_eq,
    sameBits_eq hb.valid.i1 hb.valid.i2 hc.valid.i1 hc.valid.i2, bitWord_eq] at hexec
  refine ⟨_, hexec, completed_done .., completed_units .., rfl, ?_⟩
  simp only [completed_res0, decide_eq_true_eq]

/-! ### Commands one after the other (30_encoding.md R97) -/

theorem runAll_cons {i : Instr} {s t : State} (h : exec i s = .next t) (is : List Instr) :
    runAll (i :: is) s = runAll is t := by
  rw [runAll, h]

theorem Ready.of_done {b : BitVec 2} {s t : State} (h : Ready b s) (hd : Done s t) (hB : (t.buf b).Valid s.cfg) :
    Ready b t where
  legal := hd.kept.cfg ▸ h.legal
  present := hd.kept.cfg ▸ h.present
  valid := hd.kept.cfg ▸ hB

/-- Settles O20: BB_REMOVE takes off the very bit BB_APPEND added, and equal bits are equal contents. -/
theorem appendThenRemoveIsInverse : Obligations.AppendThenRemoveIsInverse := by
  unfold Obligations.AppendThenRemoveIsInverse
  intro s b v hr hlt
  obtain ⟨t, hexec, hdone, -, hbits, hvalid, -, -, hstale, -⟩ := appendAddsOneBit s b v _ (.inl rfl) hr hlt
  have hcfg := hdone.kept.cfg
  have hpos : 0 < (t.buf b).bitCount := by
    rw [← bits_length s.cfg.bitOrder, hbits, List.length_append]
    exact Nat.succ_pos _
  obtain ⟨u, w, hexec', hdone', -, hbits', hvalid', hres, -, hstale', -⟩ :=
    removeTakesTheLastBit t b (hr.of_done hdone hvalid) hpos
  rw [hcfg] at hbits' hvalid'
  obtain ⟨hsame, hlast⟩ := List.append_inj' (hbits.symm.trans hbits') rfl
  obtain rfl : v = w := List.singleton_inj.mp hlast
  obtain ⟨hcount, hunits⟩ := units_eq_of_bits_eq hr.valid.i1 hr.valid.i2 hvalid'.i1 hvalid'.i2 hsame
  refine ⟨u, ?_, ⟨hcount.symm, hunits.symm⟩, hdone'.err, hres, hstale.trans hstale'⟩
  rw [runAll_cons hexec, runAll_cons hexec', runAll]

/-! ### Text (40_bitbuffer.md R115) -/

/-- BB_APPEND_CHAR of each character in turn adds the characters' bits. -/
theorem runAll_appendChars (b : BitVec 2) (str : List Byte) {s : State} (hr : Ready b s) (herr : s.err = .ok)
    (hlen : (s.buf b).bitCount + str.length ≤ s.cfg.maxBits) :
    ∃ t, runAll (str.map (.bbAppendChar b)) s = .next t ∧ t.err = .ok ∧ t.cfg = s.cfg ∧
      (t.buf b).bits s.cfg.bitOrder = (s.buf b).bits s.cfg.bitOrder ++ str.map charBit := by
  induction str generalizing s with
  | nil => exact ⟨s, rfl, herr, rfl, (List.append_nil _).symm⟩
  | cons c str ih =>
    rw [List.length_cons] at hlen
    obtain ⟨t, hexec, hdone, -, hbits, hvalid, -⟩ :=
      appendAddsOneBit s b (charBit c) _ (.inr ⟨c, rfl, charBit_eq c⟩) hr (by omega)
    have hcfg := hdone.kept.cfg
    have hcount : (t.buf b).bitCount = (s.buf b).bitCount + 1 := by
      simpa using congrArg List.length hbits
    obtain ⟨u, hrun, herr', hcfg', hbits'⟩ := ih (hr.of_done hdone hvalid) hdone.err (by rw [hcfg]; omega)
    rw [hcfg, hbits, List.append_assoc] at hbits'
    exact ⟨u, (runAll_cons hexec _).trans hrun, herr', hcfg'.trans hcfg, hbits'⟩

theorem bitChar_charBit (c : Byte) : bitChar (charBit c) = if c = 0x31 then 0x31 else 0x30 := by
  simp only [bitChar, charBit_eq, decide_eq_true_eq]

/-- `bb.from_str` leaves the characters' bits and nothing else in the buffer. -/
theorem runAll_fromStr (b : BitVec 2) (str : List Byte) {s : State} (hr : Ready b s) (hlen : str.length ≤ s.cfg.maxBits) :
    ∃ t, runAll (.bbClear b :: str.map (.bbAppendChar b)) s = .next t ∧ t.err = .ok ∧ t.cfg = s.cfg ∧
      (t.buf b).bits s.cfg.bitOrder = str.map charBit := by
  have hdone : Done s ((s.setBuf b (Buffer.markStale { s.buf b with bitCount := 0, units := [0#8] })).completed 0 0) :=
    setBuf_completed_done ..
  have hready := hr.of_done hdone (by
    rw [buf_completed, buf_setBuf_same]
    exact markStale_valid (emptied_valid hr.valid))
  obtain ⟨t, hrun, herr, hcfg, hbits⟩ := runAll_appendChars b str hready rfl (by
    rw [buf_completed, buf_setBuf_same, hdone.kept.cfg]
    simpa using hlen)
  refine ⟨t, (runAll_cons (exec_bbClear hr.present) _).trans hrun, herr, hcfg, ?_⟩
  rw [buf_completed, buf_setBuf_same, hdone.kept.cfg] at hbits
  exact hbits

/-- Settles O21: after `bb.from_str` bit k is the bit of character k, and BB_GETCHAR shows it. -/
theorem textRoundTrip : Obligations.TextRoundTrip := by
  unfold Obligations.TextRoundTrip
  intro s b str hr hlen
  obtain ⟨t, hrun, herr, hcfg, hbits⟩ := runAll_fromStr b str hr hlen
  refine ⟨t, hrun, herr, by simpa using congrArg List.length hbits, fun k c hc => ?_⟩
  have hbit : ((t.buf b).bits t.cfg.bitOrder)[k.toNat]? = some (charBit c) := by
    rw [hcfg, hbits, List.getElem?_map, hc]; rfl
  have hpresent : b.toNat < t.cfg.nbuf := hcfg ▸ hr.present
  exact ⟨_, exec_bbGetchar_of_bit (s := { t with latA0 := k }) hpresent hbit, rfl, bitChar_charBit c⟩

end Sys2Proof.Machine
end

section
/-! PROOFS. Traversal, serialisation and deserialisation (41_bitbuffer_serial.md): what the traversal and session commands
leave alone, the elements a traversal delivers, and the wire image written, accepted and read back. -/

namespace Sys2Proof.Machine

/-! ### The parts of a buffer a command leaves alone (41_bitbuffer_serial.md R141 to R161, 70_reset_and_hazards.md R296) -/

/-- A buffer with its bit cursor replaced. -/
def Buffer.withItb (B : Buffer) (c : Cursor) : Buffer :=
  { B with itb := c }

/-- A buffer with its unit cursor replaced. -/
def Buffer.withItu (B : Buffer) (c : Cursor) : Buffer :=
  { B with itu := c }

/-- A buffer with its staging area replaced. -/
def Buffer.withStg (B : Buffer) (g : Staging) : Buffer :=
  { B with stg := g }

/-- A buffer with everything but its staging area replaced. -/
def Buffer.exceptStg (B C : Buffer) : Buffer :=
  C.withStg B.stg

/-- `B[b] <- B[b]` with one part replaced: `f x` is the buffer with that part at `x`. -/
def State.setPart {α : Type} (s : State) (b : BitVec 2) (f : α → Buffer) (x : α) : State :=
  s.setBuf b (f x)

section Parts

variable {s : State} {b : BitVec 2} {i : Instr}

/-- A command that may replace only one part of `B[b]` leaves the rest of it. -/
theorem Ends.buf_eq {α : Type} {f : α → Buffer} {a : Answer} {t : State} (h : Ends (s.setPart b f) s a) (ha : a = .next t)
    (hf : ∃ x, f x = s.buf b) : ∃ x, t.buf b = f x := by
  subst ha
  rcases h with ⟨e, info, _, ht⟩ | ⟨x, r0, r1, ht⟩
  · cases ht
    obtain ⟨x, hx⟩ := hf
    exact ⟨x, hx.symm⟩
  · cases ht
    exact ⟨x, buf_setBuf_same ..⟩

theorem ends_setPart {α : Type} {f : α → Buffer} (x : α) (r0 r1 : Word) :
    Ends (s.setPart b f) s (complete r0 r1 (s.setBuf b (f x))) :=
  ends_complete (put := s.setPart b f) x r0 r1

theorem exec_ends_withItb (hi : i ∈ [Instr.bbItbStart b, .bbItbNext b]) :
    Ends (s.setPart b (s.buf b).withItb) s (exec i s) := by
  rcases List.mem_pair.mp hi with rfl | rfl <;> unfold exec
  · exact ends_selectBuf (ends_setPart _ _ _)
  · exact ends_selectBuf (ends_nextElement ⟨(s.buf b).itb, setBuf_self s b⟩ fun _ => ⟨_, rfl⟩)

theorem exec_ends_withItu (hi : i ∈ [Instr.bbItuStart b, .bbItuNext b]) :
    Ends (s.setPart b (s.buf b).withItu) s (exec i s) := by
  rcases List.mem_pair.mp hi with rfl | rfl <;> unfold exec
  · exact ends_selectBuf (ends_setPart _ _ _)
  · exact ends_selectBuf (ends_nextElement ⟨(s.buf b).itu, setBuf_self s b⟩ fun _ => ⟨_, rfl⟩)

theorem exec_ends_withStg {d : Byte} (hi : i ∈ [Instr.bbDeserBegin b, .bbDeserByte b d]) :
    Ends (s.setPart b (s.buf b).withStg) s (exec i s) := by
  rcases List.mem_pair.mp hi with rfl | rfl <;> unfold exec
  · exact ends_selectBuf (ends_setPart _ _ _)
  · exact ends_selectBuf (ends_check (by decide) fun _ => ends_setPart _ _ _)

theorem appendTo_ends_exceptStg (v : Bool) : Ends (s.setPart b (s.buf b).exceptStg) s (appendTo b v s) :=
  ends_selectBuf (ends_check (by decide) fun _ => ends_setPart ((s.buf b).appendBit s.cfg.bitOrder v) _ _)

theorem exec_ends_exceptStg {v : Bool} {c : Byte}
    (hi : i ∈ [Instr.bbClear b, .bbAppend b v, .bbAppendChar b c, .bbRemove b]) :
    Ends (s.setPart b (s.buf b).exceptStg) s (exec i s) := by
  simp only [List.mem_cons, List.not_mem_nil, or_false] at hi
  rcases hi with rfl | rfl | rfl | rfl <;> unfold exec
  · exact ends_selectBuf (ends_setPart (Buffer.markStale { s.buf b with bitCount := 0, units := [0#8] }) _ _)
  · exact appendTo_ends_exceptStg v
  · exact appendTo_ends_exceptStg (charBit c)
  · exact ends_selectBuf (ends_check (by decide) fun _ => ends_setPart ((s.buf b).removeLast s.cfg.bitOrder) _ _)

end Parts

/-- Settles O11: each class of commands replaces one part of the buffer, by `exec_ends_withItb` and the lemmas after it. -/
theorem commandsKeepThePartsOfABuffer : Obligations.CommandsKeepThePartsOfABuffer := by
  unfold Obligations.CommandsKeepThePartsOfABuffer
  refine fun b s t => ⟨fun i hi h => ?_, fun i hi h => ?_, fun d i hi h => ?_, fun v c i hi h => ?_⟩
  · obtain ⟨c, hc⟩ := (exec_ends_withItb hi).buf_eq h ⟨(s.buf b).itb, rfl⟩
    rw [hc]; exact ⟨⟨rfl, rfl⟩, rfl, rfl⟩
  · obtain ⟨c, hc⟩ := (exec_ends_withItu hi).buf_eq h ⟨(s.buf b).itu, rfl⟩
    rw [hc]; exact ⟨⟨rfl, rfl⟩, rfl, rfl⟩
  · obtain ⟨g, hg⟩ := (exec_ends_withStg hi).buf_eq h ⟨(s.buf b).stg, rfl⟩
    rw [hg]; exact ⟨⟨rfl, rfl⟩, rfl, rfl⟩
  · obtain ⟨B, hB⟩ := (exec_ends_exceptStg hi).buf_eq h ⟨s.buf b, rfl⟩
    rw [hB]; rfl

/-! ### Traversal (41_bitbuffer_serial.md R140 to R145) -/

/-- Under the parameters `p` command `i` is the NEXT of a traversal of `xs` by a cursor of buffer `b`. `put c` is the buffer
with that cursor at `c`, and `elem` the result word of an element (41_bitbuffer_serial.md R142, R144). -/
structure IsNext {α : Type} (i : Instr) (b : BitVec 2) (p : Params) (put : Cursor → Buffer) (xs : List α)
    (elem : α → Word) : Prop where
  element : ∀ {s : State} {pos : Nat} {x : α}, s.cfg = p → s.buf b = put ⟨.active, pos⟩ → xs[pos]? = some x →
    exec i s = .next ((s.setBuf b (put ⟨.active, pos + 1⟩)).completed (elem x) 1)
  atEnd : ∀ {s : State} {pos : Nat}, s.cfg = p → s.buf b = put ⟨.active, pos⟩ → xs[pos]? = none →
    exec i s = .next (s.completed 0 0)

theorem results_succ {i : Instr} {s t : State} (h : exec i s = .next t) (k : Nat) :
    results i (k + 1) s = (t.res0, t.res1) :: results i k t := by
  rw [results, h]

section IsNext

variable {α : Type} {i : Instr} {b : BitVec 2} {p : Params} {put : Cursor → Buffer} {xs : List α} {elem : α → Word}
  (hi : IsNext i b p put xs elem) {s : State} {pos : Nat} (hp : s.cfg = p) (hs : s.buf b = put ⟨.active, pos⟩)
include hi hp hs

/-- One NEXT: the element at pos, or (0, 0) at the end. -/
theorem IsNext.step : ∃ t, exec i s = .next t ∧ Done s t ∧
    (∀ x, xs[pos]? = some x → t.res0 = elem x ∧ t.res1 = 1 ∧ t.buf b = put ⟨.active, pos + 1⟩) ∧
    (xs[pos]? = none → t.res0 = 0 ∧ t.res1 = 0 ∧ t.buf b = s.buf b) := by
  cases hx : xs[pos]? with
  | some x =>
    refine ⟨_, hi.element hp hs hx, setBuf_completed_done .., fun y hy => ?_, nofun⟩
    rw [buf_completed, buf_setBuf_same, Option.some.inj hy]
    exact ⟨rfl, rfl, rfl⟩
  | none => exact ⟨_, hi.atEnd hp hs hx, completed_done .., nofun, fun _ => ⟨rfl, rfl, rfl⟩⟩

/-- At the end every further NEXT returns (0, 0). -/
theorem IsNext.results_atEnd (hend : xs[pos]? = none) (extra : Nat) :
    results i extra s = List.replicate extra (0, 0) := by
  induction extra generalizing s with
  | zero => rfl
  | succ extra ih =>
    rw [results_succ (hi.atEnd hp hs hend), List.replicate_succ, ih (s := s.completed 0 0) hp hs]
    rfl

/-- The NEXTs from pos on deliver the elements that are left, by induction on these. -/
theorem IsNext.results (left : List α) (hleft : xs.drop pos = left) (extra : Nat) :
    results i (left.length + extra) s = left.map (fun x => (elem x, (1 : Word))) ++ List.replicate extra (0, 0) := by
  induction left generalizing s pos with
  | nil =>
    rw [List.length_nil, Nat.zero_add]
    exact hi.results_atEnd hp hs (List.getElem?_eq_none (List.drop_eq_nil_iff.mp hleft)) extra
  | cons x left ih =>
    have hx : xs[pos]? = some x := by rw [← List.head?_drop, hleft]; rfl
    have hrest : xs.drop (pos + 1) = left := by rw [← List.tail_drop, hleft]; rfl
    rw [List.length_cons, Nat.succ_add, results_succ (hi.element hp hs hx)]
    exact congrArg _ (ih (s := (s.setBuf b _).completed _ _) hp (buf_setBuf_same ..) hrest)

end IsNext

theorem bbItbNext_isNext {b : BitVec 2} {p : Params} (hb : b.toNat < p.nbuf) (B : Buffer) :
    IsNext (.bbItbNext b) b p B.withItb (B.bits p.bitOrder) bitWord where
  element hp hs hv := by
    obtain ⟨hlt, rfl⟩ := bits_getElem?_eq_some.mp hv
    subst hp
    rw [exec_bbItbNext hb, hs, nextElement_active rfl]
    exact if_pos hlt
  atEnd hp hs hend := by
    subst hp
    rw [List.getElem?_eq_none_iff, bits_length] at hend
    rw [exec_bbItbNext hb, hs, nextElement_active rfl]
    exact if_neg (not_lt.mpr hend)

theorem bbItuNext_isNext {b : BitVec 2} {p : Params} (hb : b.toNat < p.nbuf) (B : Buffer) :
    IsNext (.bbItuNext b) b p B.withItu B.units (BitVec.setWidth 32) where
  element hp hs hu := by
    obtain ⟨hlt, rfl⟩ := List.getElem?_eq_some_iff.mp hu
    subst hp
    rw [exec_bbItuNext hb, hs, nextElement_active rfl, ← List.getD_eq_getElem _ 0 hlt]
    exact if_pos hlt
  atEnd hp hs hend := by
    subst hp
    rw [exec_bbItuNext hb, hs, nextElement_active rfl]
    exact if_neg (not_lt.mpr (List.getElem?_eq_none_iff.mp hend))

theorem setWidth_toNat_of_byte (u : Byte) : (u.setWidth 32).toNat = u.toNat :=
  BitVec.toNat_setWidth_of_le (by decide)

/-- Settles O26: `exec_bbItbStart`, `exec_bbItuStart`, and `IsNext.step` for both NEXTs. -/
theorem traversalCommandsStepTheCursor : Obligations.TraversalCommandsStepTheCursor := by
  unfold Obligations.TraversalCommandsStepTheCursor
  refine fun s b hb => ⟨?_, ?_, fun pos hpos => ?_, fun pos hpos => ?_⟩
  · exact ⟨_, exec_bbItbStart hb, setBuf_completed_done .., rfl, rfl, buf_setBuf_same ..⟩
  · exact ⟨_, exec_bbItuStart hb, setBuf_completed_done .., rfl, rfl, buf_setBuf_same ..⟩
  · exact (bbItbNext_isNext hb (s.buf b)).step rfl (congrArg (s.buf b).withItb hpos)
  · obtain ⟨t, hexec, hdone, hsome, hend⟩ := (bbItuNext_isNext hb (s.buf b)).step rfl (congrArg (s.buf b).withItu hpos)
    refine ⟨t, hexec, hdone, fun u hu => ?_, hend⟩
    obtain ⟨h0, h1, hbuf⟩ := hsome u hu
    exact ⟨h0 ▸ setWidth_toNat_of_byte u, h1, hbuf⟩

/-- Settles O27: START puts the cursor at 0, where all elements are left. -/
theorem traversalDeliversEveryElement : Obligations.TraversalDeliversEveryElement := by
  unfold Obligations.TraversalDeliversEveryElement
  intro s t b extra hb
  obtain ⟨⟨t₁, h₁, hdone₁, -, -, hbuf₁⟩, ⟨t₂, h₂, hdone₂, -, -, hbuf₂⟩, -⟩ := traversalCommandsStepTheCursor s b hb
  refine ⟨fun h => ?_, fun h => ?_⟩
  · obtain rfl : t₁ = t := Host.Outcome.next.inj (h₁.symm.trans h)
    rw [← bits_length s.cfg.bitOrder]
    exact (bbItbNext_isNext hb (s.buf b)).results hdone₁.kept.cfg hbuf₁ _ List.drop_zero extra
  · obtain rfl : t₂ = t := Host.Outcome.next.inj (h₂.symm.trans h)
    exact (bbItuNext_isNext hb (s.buf b)).results hdone₂.kept.cfg hbuf₂ _ List.drop_zero extra

/-! ### Serialisation (41_bitbuffer_serial.md R150 to R152) -/

theorem getD_leBytes_append (v w : Nat) (l : List Byte) (k : Nat) :
    (leBytes v w ++ l).getD k 0 = if k < w then BitVec.ofNat 8 (v / 256 ^ k) else l.getD (k - w) 0 := by
  simp only [List.getD, List.getElem?_append, leBytes_length]
  split
  · next hk => rw [leBytes_getElem? v w k hk, Option.getD_some]
  · rfl

/-- Byte k of an image: three little-endian fields, then the units. -/
theorem image_getD_toNat (w : Nat) (B : Buffer) (k : Nat) :
    ((B.image w).getD k 0).toNat =
      if k < w then B.bitCount / 256 ^ k % 256
      else if k < 2 * w then B.units.length / 256 ^ (k - w) % 256
      else if k < 3 * w then (B.units.length - 1) / 256 ^ (k - 2 * w) % 256
      else (B.units.getD (k - 3 * w) 0).toNat := by
  simp only [Buffer.image, List.append_assoc, getD_leBytes_append, apply_ite BitVec.toNat, BitVec.toNat_ofNat]
  rw [show k - w - w = k - 2 * w by omega, show k - 2 * w - w = k - 3 * w by omega]
  refine ite_congr rfl (fun _ => rfl) fun h1 => ?_
  refine ite_congr (propext (by omega)) (fun _ => rfl) fun h2 => ?_
  exact ite_congr (propext (by omega)) (fun _ => rfl) fun _ => rfl

theorem image_length_le_scap {p : Params} {B : Buffer} (hp : p.Legal) (hB : B.Valid p) :
    (B.image p.w).length ≤ p.scap := by
  rw [image_length]
  exact Nat.add_le_add_left (units_length_le hB hp).2 _

/-- Settles O29: the length of an image is at most SCAP, below 2^32, and `image_getD_toNat` gives its bytes. -/
theorem serialisationReadsTheImage : Obligations.SerialisationReadsTheImage := by
  unfold Obligations.SerialisationReadsTheImage
  refine fun s b hr => ⟨?_, ?_⟩
  · have hlen := image_length_le_scap hr.legal hr.valid
    rw [image_length] at hlen
    exact ⟨_, exec_bbSerLen hr.present, completed_done .., completed_units ..,
      word32_toNat (hlen.trans_lt (scap_lt hr.legal)), rfl⟩
  · rintro k rfl hk
    have hexec := exec_bbSerByte hr.present
    rw [State.a0, if_neg (not_le.mpr hk)] at hexec
    exact ⟨_, hexec, completed_done .., completed_units .., rfl,
      (setWidth_toNat_of_byte _).trans (image_getD_toNat _ _ _)⟩

/-! ### Images and Validate (41_bitbuffer_serial.md R162, R164) -/

theorem image_lastUnit {w : Nat} {B : Buffer} (h : 1 ≤ B.units.length) :
    (B.image w).getD (3 * w + B.units.length - 1) 0 = B.units.getD (B.units.length - 1) 0 := by
  rw [Nat.add_sub_assoc h]
  simp only [List.getD, ← List.getElem?_drop, image_drop3]

theorem validate_image {p : Params} {B : Buffer} (hp : p.Legal) (hB : B.Valid p) :
    validate p.bitOrder p.w (B.image p.w) false = none := by
  have hpos := (units_length_le hB hp).1
  rw [validate_eq_none, imageUnitCount_image hp hB, imageUnitIndex_image hp hB, imageBitCount_image hp hB, image_length,
    image_lastUnit hpos]
  exact ⟨rfl, Nat.le_add_right _ _, rfl, hpos, rfl, hB.i1, tailNonzero_eq_false.mpr hB.i2⟩

/-- Settles O32: `validate_image`, and the fields of an image. -/
theorem imagesOfBuffersAreAccepted : Obligations.ImagesOfBuffersAreAccepted := by
  unfold Obligations.ImagesOfBuffersAreAccepted
  exact fun p B hp hB => ⟨validate_image hp hB, image_length_le_scap hp hB, imageBitCount_image hp hB,
    imageUnits_image hp hB⟩

/-- A valid buffer's contents are a function of its image. -/
theorem sameContents_of_image_eq {p : Params} {B C : Buffer} (hp : p.Legal) (hB : B.Valid p) (hC : C.Valid p)
    (h : B.image p.w = C.image p.w) : SameContents B C where
  count := by rw [← imageBitCount_image hp hC, ← h, imageBitCount_image hp hB]
  units := by rw [← imageUnits_image hp hC, ← h, imageUnits_image hp hB]

/-- Settles O33: the buffer is what BB_DESER_END would install into a buffer after reset. -/
theorem acceptedImagesAreImages : Obligations.AcceptedImagesAreImages := by
  unfold Obligations.AcceptedImagesAreImages
  intro p bytes ovf hp hlen hv
  obtain ⟨hovf, -⟩ := validate_eq_none.mp hv
  have hB := install_valid hv hlen (buffer_reset_valid p)
  exact ⟨hovf, ⟨_, hB.i1, hB.i2, hB.count_le, install_image hv .reset⟩,
    fun B C hB hC hBi hCi => sameContents_of_image_eq hp hB hC (hBi.trans hCi.symm)⟩

/-! ### The deserialisation session (41_bitbuffer_serial.md R160 to R163) -/

section Session

variable {s : State} {b : BitVec 2} (hb : b.toNat < s.cfg.nbuf)
include hb

theorem exec_bbDeserByte_of_active (hactive : (s.buf b).stg.active = true) (d : Byte) :
    exec (.bbDeserByte b d) s = .next ((s.setBuf b ((s.buf b).withStg ((s.buf b).stg.receive s.cfg.scap d))).completed
      (word32 ((s.buf b).stg.receive s.cfg.scap d).bytes.length) (bitWord ((s.buf b).stg.receive s.cfg.scap d).ovf)) := by
  rw [exec_bbDeserByte hb, if_neg (by rw [hactive]; decide)]
  rfl

theorem exec_bbDeserEnd_of_valid (hactive : (s.buf b).stg.active = true)
    (hv : validate s.cfg.bitOrder s.cfg.w (s.buf b).stg.bytes (s.buf b).stg.ovf = none) :
    exec (.bbDeserEnd b) s = .next ((s.setBuf b ((s.buf b).install s.cfg.w (s.buf b).stg.bytes)).completed
      (word32 (imageBitCount s.cfg.w (s.buf b).stg.bytes)) (word32 (imageUnitCount s.cfg.w (s.buf b).stg.bytes))) := by
  rw [exec_bbDeserEnd hb, if_neg (by rw [hactive]; decide), hv]
  rfl

end Session

/-- Settles O30: the staging area after a byte is `Staging.receive`, whose length is at most SCAP, below 2^32. -/
theorem sessionCollectsBytes : Obligations.SessionCollectsBytes := by
  unfold Obligations.SessionCollectsBytes
  refine fun s b d hb => ⟨?_, fun bytes ovf hp hg hlen => ?_⟩
  · exact ⟨_, exec_bbDeserBegin hb, setBuf_completed_done .., setBuf_completed_only .., rfl, rfl, buf_setBuf_same ..⟩
  · refine ⟨_, exec_bbDeserByte_of_active hb (by rw [hg]) d, setBuf_completed_done .., setBuf_completed_only .., ?_⟩
    rw [buf_completed, buf_setBuf_same, hg]
    exact ⟨rfl, word32_toNat ((receive_length_le hlen d).trans_lt (scap_lt hp)), rfl⟩

theorem runAll_append {is : List Instr} {s t : State} (h : runAll is s = .next t) (js : List Instr) :
    runAll (is ++ js) s = runAll js t := by
  induction is generalizing s with
  | nil => cases h; rfl
  | cons i is ih =>
    obtain ⟨u, hu⟩ := exec_total i s
    rw [runAll_cons hu] at h
    rw [List.cons_append, runAll_cons hu, ih h]

/-- A session that has room for `ds` holds them after they are delivered, and nothing else of the buffer changed. -/
theorem runAll_deserBytes (b : BitVec 2) (ds : List Byte) {s : State} {got : List Byte} (hp : s.cfg.Legal)
    (hb : b.toNat < s.cfg.nbuf) (hg : (s.buf b).stg = ⟨true, got, false⟩) (hroom : got.length + ds.length ≤ s.cfg.scap) :
    ∃ t, runAll (ds.map (.bbDeserByte b)) s = .next t ∧ t.cfg = s.cfg ∧
      t.buf b = (s.buf b).withStg ⟨true, got ++ ds, false⟩ := by
  induction ds generalizing s got with
  | nil => exact ⟨s, rfl, rfl, by rw [List.append_nil, ← hg]; rfl⟩
  | cons d ds ih =>
    rw [List.length_cons] at hroom
    obtain ⟨u, hexec, hdone, -, hbuf, -⟩ := (sessionCollectsBytes s b d hb).2 got false hp hg (by omega)
    rw [if_pos (by omega)] at hbuf
    have hcfg := hdone.kept.cfg
    obtain ⟨t, hrun, hcfg', hbuf'⟩ := ih (hcfg ▸ hp) (hcfg ▸ hb) (by rw [hbuf])
      (by rw [hcfg, List.length_append, List.length_singleton]; omega)
    refine ⟨t, (runAll_cons hexec _).trans hrun, hcfg'.trans hcfg, ?_⟩
    rw [hbuf', hbuf, List.append_assoc]
    rfl

/-- Settles O34: the session collects the whole image, `validate_image` accepts it, and what is installed has its fields. -/
theorem binaryRoundTrip : Obligations.BinaryRoundTrip := by
  unfold Obligations.BinaryRoundTrip
  intro s b c hb hc
  obtain ⟨u, hbegin, hdone, -, -, -, hu⟩ := (sessionCollectsBytes s c 0 hc.present).1
  have hcfg := hdone.kept.cfg
  have hfit := image_length_le_scap hb.legal hb.valid
  obtain ⟨v, hrun, hcfg', hv⟩ := runAll_deserBytes c ((s.buf b).image s.cfg.w) (hcfg ▸ hc.legal) (hcfg ▸ hc.present)
    (by rw [hu]) (by rwa [hcfg, List.length_nil, Nat.zero_add])
  replace hcfg := hcfg'.trans hcfg
  have hstg : (v.buf c).stg = ⟨true, (s.buf b).image s.cfg.w, false⟩ := by rw [hv]; rfl
  have hend := exec_bbDeserEnd_of_valid (s := v) (b := c) (hcfg ▸ hc.present) (by rw [hstg])
    (by rw [hcfg, hstg]; exact validate_image hb.legal hb.valid)
  rw [hcfg, hstg] at hend
  refine ⟨_, (runAll_append ((runAll_cons hbegin _).trans hrun) _).trans (runAll_cons hend []), rfl, ?_, ?_⟩
  · rw [buf_completed, buf_setBuf_same]
    exact ⟨imageBitCount_image hb.legal hb.valid, imageUnits_image hb.legal hb.valid⟩
  · rw [buf_completed, buf_setBuf_same]
    rfl

end Sys2Proof.Machine
end

section
/-! PROOFS. Normalisation and the merge scan of the Huffman unit (42_huffman.md R183, R186, R187). -/

namespace Sys2Proof.Machine

/-! ### Normalisation (42_huffman.md R183) -/

/-- An entry that no kept entry exceeds is dropped, or comes strictly after the last one kept, and so after all. -/
theorem keepNew_pairwise {out : List Entry} {e : Entry} (hout : out.Pairwise Entry.Before)
    (hle : ∀ f ∈ out, f.le e = true) : (keepNew out e).Pairwise Entry.Before := by
  unfold keepNew
  split
  · exact hout
  · next hne =>
    rcases List.eq_nil_or_concat' out with rfl | ⟨init, g, rfl⟩
    · exact List.pairwise_singleton _ e
    have hg : g.Before e :=
      ((le_iff g e).mp (hle g (by simp))).resolve_right fun h => hne (h ▸ List.getLast?_concat)
    obtain ⟨-, -, hinit⟩ := List.pairwise_append.mp hout
    refine List.pairwise_append.mpr ⟨hout, List.pairwise_singleton _ e, fun f hf x hx => ?_⟩
    obtain rfl := List.mem_singleton.mp hx
    rcases List.mem_append.mp hf with hf | hf
    · exact before_trans (hinit f hf g (by simp)) hg
    · exact List.mem_singleton.mp hf ▸ hg

theorem foldl_keepNew_pairwise {l out : List Entry} (hl : l.Pairwise fun x y => x.le y = true)
    (hout : out.Pairwise Entry.Before) (hle : ∀ f ∈ out, ∀ x ∈ l, f.le x = true) :
    (l.foldl keepNew out).Pairwise Entry.Before := by
  induction l generalizing out with
  | nil => exact hout
  | cons e l ih =>
    obtain ⟨he, hl⟩ := List.pairwise_cons.mp hl
    refine ih hl (keepNew_pairwise hout fun f hf => hle f hf e List.mem_cons_self) fun f hf x hx => ?_
    rcases (keepNew_mem out e f).mp hf with hf | rfl
    · exact hle f hf x (List.mem_cons_of_mem e hx)
    · exact he x hx

theorem normalize_pairwise (raw : List Entry) : (normalize raw).Pairwise Entry.Before :=
  foldl_keepNew_pairwise (sortEntries_sorted raw) List.Pairwise.nil nofun

/-- Settles O38: sorting makes the entries ascend, and dropping each repeated one makes them ascend strictly. -/
theorem normalizeSortsTheDistinctEntries : Obligations.NormalizeSortsTheDistinctEntries := by
  unfold Obligations.NormalizeSortsTheDistinctEntries
  exact fun raw => ⟨normalize_pairwise raw, normalize_mem raw⟩

/-- The normalised entries depend only on which entries there are. -/
theorem normalize_congr {raw raw' : List Entry} (h : ∀ e, e ∈ raw ↔ e ∈ raw') : normalize raw = normalize raw' := by
  have : Std.Irrefl Entry.Before := ⟨before_irrefl⟩
  have : Std.Antisymm Entry.Before := ⟨fun e f he hf => absurd (before_trans he hf) (before_irrefl e)⟩
  exact (normalize_pairwise raw).eq_of_mem_iff (normalize_pairwise raw') fun e => by
    rw [normalize_mem, normalize_mem, h]

/-! ### The scan (42_huffman.md R187) -/

/-- Two different candidates leave neither minimum empty. -/
theorem Scanned.both {pol : MergePolicy} {T : List Node} {i : Nat} {m : Option Nat × Option Nat} (h : Scanned pol T i m)
    {a b : Nat} (hab : a ≠ b) (hai : a < i) (hbi : b < i) (ha : candidate pol T a = true) (hb : candidate pol T b = true) :
    ∃ s1 s2, m = (some s1, some s2) := by
  obtain ⟨m1, m2⟩ := m
  cases m1 with
  | none => exact absurd ((h.none1 rfl).1 a hai) (by simp [ha])
  | some s1 =>
    cases m2 with
    | none => exact absurd ((h.none2 s1 rfl rfl a hai ha).trans (h.none2 s1 rfl rfl b hbi hb).symm) hab
    | some s2 => exact ⟨s1, s2, rfl⟩

/-- Settles O40: `select2_scanned`, where two candidates make both minima exist. -/
theorem scanSelectsTheTwoLeast : Obligations.ScanSelectsTheTwoLeast := by
  unfold Obligations.ScanSelectsTheTwoLeast
  intro pol nodes i a b hab hbi ha hb
  have hs := select2_scanned pol nodes i
  obtain ⟨s1, s2, hsel⟩ := hs.both hab.ne (hab.trans hbi) hbi ha hb
  rw [hsel] at hs
  obtain ⟨hlt1, hc1, hleast1⟩ := hs.some1 s1 rfl
  obtain ⟨hlt2, hne, hc2, hleast2⟩ := hs.some2 s1 s2 rfl rfl
  exact ⟨s1, s2, hsel, hlt1, hlt2, hne.symm, hc1, hc2, hleast1, hleast2⟩

end Sys2Proof.Machine
end

section
/-! PROOFS. The tree HT_BUILD leaves under EXCLUDE_PARENTED (42_huffman.md R185 to R190, R194): the merged nodes, which code
generation changes in their codes only. -/

namespace Sys2Proof.Machine

/-! ### What code generation leaves of the merged nodes -/

theorem buildTree_same (pol : MergePolicy) (out : List Entry) (j : Nat) :
    SameButCode (nodeAt (mergeLoop pol out.length (seed out)) j) (nodeAt (buildTree pol out) j) :=
  codeGen_same out.length _ j

/-- Leaf j carries entry j and has no children (42_huffman.md R185): the clause `leaf` of `Forest` and `Literal`. -/
def LeavesCarry (out : List Entry) (T : List Node) : Prop :=
  ∀ j e, out[j]? = some e → (nodeAt T j).symbol = some e.symbol ∧ (nodeAt T j).weight = e.weight ∧
    (nodeAt T j).left = none ∧ (nodeAt T j).right = none

section Same

variable {T₀ T : List Node} (h : ∀ j, SameButCode (nodeAt T₀ j) (nodeAt T j))
include h

theorem nodeBefore_of_same {j k : Nat} (hjk : NodeBefore T₀ j k) : NodeBefore T j k := by
  unfold NodeBefore
  rwa [(h j).weight, (h k).weight]

theorem isChild_of_same {p j : Nat} (hp : IsChild T₀ p j) : IsChild T p j := by
  unfold IsChild
  rwa [(h p).left, (h p).right]

theorem leaf_of_same {out : List Entry} (hleaf : LeavesCarry out T₀) {j : Nat} (hj : j < out.length) :
    (nodeAt T j).symbol = (out[j]?.map (·.symbol)) ∧ some (nodeAt T j).weight = (out[j]?.map (·.weight)) ∧
      (nodeAt T j).left = none ∧ (nodeAt T j).right = none := by
  have he := List.getElem?_eq_getElem hj
  obtain ⟨hs, hw, hl, hr⟩ := hleaf j _ he
  rw [(h j).symbol, (h j).weight, (h j).left, (h j).right, hs, hw, he]
  exact ⟨rfl, rfl, hl, hr⟩

end Same

/-! ### The merged nodes as a tree -/

section Merged

variable {out : List Entry} {T : List Node} (h : Forest out (2 * out.length - 1) T) (hout : out ≠ [])
include h hout

/-- The merged nodes are linked as the traversal of R190 needs. -/
theorem forest_links (hroot : (nodeAt T (2 * out.length - 2)).parent = none) : Links T (2 * out.length - 2) where
  root_lt := by
    have := List.length_pos_iff.mpr hout
    rw [h.length]; omega
  root_parent := hroot
  children x := by
    rw [h.length]
    by_cases hleaf : x < out.length
    · obtain ⟨-, -, hl, hr⟩ := h.leaf x _ (List.getElem?_eq_getElem hleaf)
      exact .inl ⟨hl, hr⟩
    by_cases hin : x < 2 * out.length - 1
    · obtain ⟨-, l, r, hl, hr, hlx, hrx, hne, hpl, hpr, -⟩ := h.inner x (by omega) hin
      exact .inr ⟨l, r, hl, hr, by omega, by omega, hne, hpl, hpr⟩
    · rw [h.blank x (by omega)]
      exact .inl ⟨rfl, rfl⟩

/-- Every node but the root has an internal node above it that links to it. -/
theorem forest_parent (hbal : Balance out (2 * out.length - 1) T) {j : Nat} (hj : j < 2 * out.length - 2) :
    ∃ p, (nodeAt T j).parent = some p ∧ out.length ≤ p ∧ p < 2 * out.length - 1 ∧ j < p ∧ IsChild T p j := by
  obtain ⟨p, hp⟩ := (forest_root h hbal hout).2 j hj
  exact ⟨p, hp, h.parent j p hp⟩

end Merged

theorem codeGen_of_ne_nil {out : List Entry} (hout : out ≠ []) (T : List Node) : codeGen out.length T =
    bfs T.length [2 * out.length - 2] (T.modify (2 * out.length - 2) fun x => { x with code := [] }) := by
  rw [codeGen, if_neg (mt List.length_eq_zero_iff.mp hout)]

/-- The codes of the tree: empty at the root, and longer by one bit along each edge (42_huffman.md R190). -/
theorem excludeParented_codes {out : List Entry} (hout : out ≠ []) :
    let T := buildTree .excludeParented out
    (nodeAt T (2 * out.length - 2)).code = [] ∧ ∀ i < 2 * out.length - 1, ∀ c,
      ((nodeAt T i).left = some c → (nodeAt T c).code = (nodeAt T i).code ++ [false]) ∧
      ((nodeAt T i).right = some c → (nodeAt T c).code = (nodeAt T i).code ++ [true]) := by
  obtain ⟨hf, hbal, -⟩ := mergeLoop_forest hout
  obtain ⟨hroot, hleft, hright⟩ := bfs_codes (forest_links hf hout (forest_root hf hbal hout).1) fun j hj => by
    obtain ⟨p, -, -, hlt, hjp, hc⟩ := forest_parent hf hout hbal hj
    exact ⟨p, hjp, by omega, hc⟩
  rw [← codeGen_of_ne_nil hout] at hroot hleft hright
  refine ⟨hroot, fun i hi c => ⟨fun hc => ?_, fun hc => ?_⟩⟩
  · exact hleft i (by omega) c ((buildTree_same .excludeParented out i).left ▸ hc)
  · exact hright i (by omega) c ((buildTree_same .excludeParented out i).right ▸ hc)

/-- Settles O41: `Forest` and `Greedy` say it of the merged nodes but for the codes, which `excludeParented_codes` gives. -/
theorem excludeParentedBuildsOneTree : Obligations.ExcludeParentedBuildsOneTree := by
  unfold Obligations.ExcludeParentedBuildsOneTree
  rintro out _ _ rfl hn rfl
  have hout : out ≠ [] := List.length_pos_iff.mp hn
  obtain ⟨hf, hbal, hg⟩ := mergeLoop_forest hout
  have hsame := buildTree_same .excludeParented out
  obtain ⟨hroot, hcode⟩ := excludeParented_codes hout
  refine ⟨buildTree_length _ out, fun j hj => leaf_of_same hsame hf.leaf hj, fun i hi hi' => ?_, fun j hj => ?_,
    (hsame _).parent.trans (forest_root hf hbal hout).1, hroot⟩
  · obtain ⟨hs, l, r, hl, hr, hli, hri, hne, hpl, hpr, hw⟩ := hf.inner i hi hi'
    obtain ⟨hlr, hleast⟩ := hg i hi hi' l r hl hr
    have hl' := (hsame i).left.trans hl
    have hr' := (hsame i).right.trans hr
    refine ⟨(hsame i).symbol.trans hs, l, r, hl', hr', hli, hri, hne, (hsame l).parent.trans hpl,
      (hsame r).parent.trans hpr, ?_, (hcode i hi' l).1 hl', (hcode i hi' r).2 hr', nodeBefore_of_same hsame hlr,
      fun j hj hjl hjr hp => ?_⟩
    · rw [(hsame i).weight, (hsame l).weight, (hsame r).weight, hw]
    · obtain ⟨h1, h2⟩ := hleast j hj hjl hjr fun p hjp => hp p ((hsame j).parent.trans hjp)
      exact ⟨nodeBefore_of_same hsame h1, nodeBefore_of_same hsame h2⟩
  · obtain ⟨p, hp, hnp, hpn, hjp, hc⟩ := forest_parent hf hout hbal hj
    exact ⟨p, (hsame j).parent.trans hp, hnp, hpn, hjp, isChild_of_same hsame hc⟩

end Sys2Proof.Machine
end

section
/-! PROOFS. The leaf codes of EXCLUDE_PARENTED: how long they are, that none begins another, and that their Kraft sum is 1
(42_huffman.md R196, R197). -/

namespace Sys2Proof.Machine

/-- The part of `ExcludeParentedBuildsOneTree` that the codes rest on: each internal node has two children, each node but the
root is a child of its parent, and the codes extend along the edges. -/
structure CodeTree (n : Nat) (T : List Node) : Prop where
  leaf : ∀ j < n, (nodeAt T j).left = none ∧ (nodeAt T j).right = none
  inner : ∀ i, n ≤ i → i < 2 * n - 1 → ∃ l r, (nodeAt T i).left = some l ∧ (nodeAt T i).right = some r ∧ l < i ∧ r < i ∧
    l ≠ r ∧ (nodeAt T l).parent = some i ∧ (nodeAt T r).parent = some i ∧
    (nodeAt T l).code = (nodeAt T i).code ++ [false] ∧ (nodeAt T r).code = (nodeAt T i).code ++ [true]
  parent : ∀ j < 2 * n - 2, ∃ i, (nodeAt T j).parent = some i ∧ n ≤ i ∧ i < 2 * n - 1 ∧ j < i ∧ IsChild T i j
  root_code : (nodeAt T (2 * n - 2)).code = []

theorem codeTree_buildTree {out : List Entry} (h : 1 ≤ out.length) :
    CodeTree out.length (buildTree .excludeParented out) := by
  obtain ⟨-, hleaf, hinner, hparent, -, hroot⟩ := excludeParentedBuildsOneTree out _ _ rfl h rfl
  refine ⟨fun j hj => ?_, fun i hi hi' => ?_, hparent, hroot⟩
  · obtain ⟨-, -, hl, hr⟩ := hleaf j hj
    exact ⟨hl, hr⟩
  · obtain ⟨-, l, r, hl, hr, hli, hri, hne, hpl, hpr, -, hcl, hcr, -⟩ := hinner i hi hi'
    exact ⟨l, r, hl, hr, hli, hri, hne, hpl, hpr, hcl, hcr⟩

/-- Node `j` is the child of `p` on the side of bit `v`: the right one for 1 (42_huffman.md R190). -/
def OnSide (T : List Node) (p : Nat) (v : Bool) (j : Nat) : Prop :=
  (if v then (nodeAt T p).right else (nodeAt T p).left) = some j

section CodeTree

variable {n : Nat} {T : List Node} (h : CodeTree n T)
include h

/-- A node but the root has a parent, on a side of which it is, and its code is one bit longer than the parent's. -/
theorem CodeTree.up {j : Nat} (hj : j < 2 * n - 2) : ∃ p v, n ≤ p ∧ p < 2 * n - 1 ∧ j < p ∧ OnSide T p v j ∧
    (nodeAt T j).code = (nodeAt T p).code ++ [v] := by
  obtain ⟨p, -, hnp, hpn, hjp, hc⟩ := h.parent j hj
  obtain ⟨l, r, hl, hr, -, -, -, -, -, hcl, hcr⟩ := h.inner p hnp hpn
  rcases hc with hc | hc
  · obtain rfl := Option.some.inj (hl.symm.trans hc)
    exact ⟨p, false, hnp, hpn, hjp, hl, hcl⟩
  · obtain rfl := Option.some.inj (hr.symm.trans hc)
    exact ⟨p, true, hnp, hpn, hjp, hr, hcr⟩

/-- What holds of the root, and of a node when it holds of its parent, holds of every node. -/
theorem CodeTree.down {P : Nat → Prop} (root : P (2 * n - 2))
    (edge : ∀ j p v, n ≤ p → p < 2 * n - 1 → j < p → OnSide T p v j → (nodeAt T j).code = (nodeAt T p).code ++ [v] →
      P p → P j) {j : Nat} (hj : j < 2 * n - 1) : P j := by
  induction hd : 2 * n - 2 - j using Nat.strong_induction_on generalizing j with
  | _ d ih =>
    by_cases hroot : j = 2 * n - 2
    · exact hroot ▸ root
    · obtain ⟨p, v, hnp, hpn, hjp, hside, hcode⟩ := h.up (show j < 2 * n - 2 by omega)
      exact edge j p v hnp hpn hjp hside hcode (ih (2 * n - 2 - p) (by omega) hpn rfl)

/-- The ancestors of a node are internal nodes above it, so its code has at most 2n - 2 - j bits, and at most n - 1. -/
theorem CodeTree.length_add_le {j : Nat} (hj : j < 2 * n - 1) :
    (nodeAt T j).code.length + max j (n - 1) ≤ 2 * n - 2 := by
  refine h.down (P := fun j => (nodeAt T j).code.length + max j (n - 1) ≤ 2 * n - 2) ?_
    (fun j p v hnp hpn hjp _ hcode hp => ?_) hj
  · rw [h.root_code, List.length_nil]; omega
  · rw [hcode, List.length_append, List.length_singleton]; omega

theorem CodeTree.length_le {j : Nat} (hj : j < 2 * n - 1) : (nodeAt T j).code.length ≤ n - 1 := by
  have := h.length_add_le hj
  omega

theorem CodeTree.code_ne_nil {j : Nat} (hj : j < 2 * n - 2) : (nodeAt T j).code ≠ [] := by
  obtain ⟨p, v, -, -, -, -, hcode⟩ := h.up hj
  simp [hcode]

/-- No two nodes have the same code. -/
theorem CodeTree.code_injective {j k : Nat} (hj : j < 2 * n - 1) (hk : k < 2 * n - 1)
    (hjk : (nodeAt T j).code = (nodeAt T k).code) : j = k := by
  refine h.down (P := fun k => ∀ j < 2 * n - 1, (nodeAt T j).code = (nodeAt T k).code → j = k) (fun j hj hjk => ?_)
    (fun k p v _ hpn _ hside hcode ih j hj hjk => ?_) hk j hj hjk
  · by_contra hne
    exact h.code_ne_nil (show j < 2 * n - 2 by omega) (hjk.trans h.root_code)
  · by_cases hroot : j = 2 * n - 2
    · simp [hroot, h.root_code, hcode] at hjk
    obtain ⟨q, w, -, hqn, -, hside', hcode'⟩ := h.up (show j < 2 * n - 2 by omega)
    rw [hcode, hcode'] at hjk
    obtain ⟨hqp, hwv⟩ := List.append_inj' hjk rfl
    obtain rfl := ih q hqn hqp
    obtain rfl := List.singleton_inj.mp hwv
    exact Option.some.inj (hside'.symm.trans hside)

/-- A leaf's code begins no other node's: the nodes whose codes extend it would be below the leaf. -/
theorem CodeTree.eq_of_isPrefix {j k : Nat} (hj : j < n) (hk : k < 2 * n - 1)
    (hjk : (nodeAt T j).code <+: (nodeAt T k).code) : j = k := by
  refine h.down (P := fun k => (nodeAt T j).code <+: (nodeAt T k).code → j = k) (fun hpre => ?_)
    (fun k p v hnp hpn hkp _ hcode ih hpre => ?_) hk hjk
  · refine h.code_injective (by omega) (by omega) ?_
    rw [h.root_code] at hpre ⊢
    exact List.prefix_nil.mp hpre
  · rw [hcode] at hpre
    rcases List.prefix_concat_iff.mp hpre with heq | hpre
    · exact h.code_injective (by omega) (by omega) (heq.trans hcode.symm)
    · have := ih hpre
      omega

end CodeTree

/-- Settles O42: `CodeTree.code_ne_nil`, `CodeTree.length_le` and `CodeTree.eq_of_isPrefix` at the leaves. -/
theorem leafCodesAreAPrefixCode : Obligations.LeafCodesAreAPrefixCode := by
  unfold Obligations.LeafCodesAreAPrefixCode
  rintro out _ _ rfl hn rfl
  have h := codeTree_buildTree (out := out) (by omega)
  exact ⟨fun j hj => ⟨h.code_ne_nil (by omega), h.length_le (by omega)⟩, fun j hj k hk => h.eq_of_isPrefix hj (by omega)⟩

/-! ### The Kraft sum (42_huffman.md R197) -/

/-- The share of a node in the Kraft sum, 2^(-length of its code). -/
def share (T : List Node) (j : Nat) : ℚ :=
  (1 / 2) ^ (nodeAt T j).code.length

theorem share_of_edge {T : List Node} {p j : Nat} {v : Bool} (h : (nodeAt T j).code = (nodeAt T p).code ++ [v]) :
    share T j = share T p / 2 := by
  rw [share, share, h, List.length_append, List.length_singleton, pow_succ]
  ring

section CodeTree

variable {n : Nat} {T : List Node} (h : CodeTree n T)
include h

/-- The nodes whose parent is `i` are its two children, which halve its share. -/
theorem CodeTree.share_children {i : Nat} (hi : n ≤ i) (hi' : i < 2 * n - 1) :
    ∑ j ∈ Finset.range (2 * n - 2) with (nodeAt T j).parent = some i, share T j = share T i := by
  obtain ⟨l, r, hl, hr, hli, hri, hne, hpl, hpr, hcl, hcr⟩ := h.inner i hi hi'
  have hpair : (Finset.range (2 * n - 2)).filter (fun j => (nodeAt T j).parent = some i) = {l, r} := by
    ext j
    simp only [Finset.mem_filter, Finset.mem_range, Finset.mem_insert, Finset.mem_singleton]
    constructor
    · rintro ⟨hj, hp⟩
      obtain ⟨p, hp', -, -, -, hc⟩ := h.parent j hj
      obtain rfl := Option.some.inj (hp'.symm.trans hp)
      rcases hc with hc | hc
      · exact .inl (Option.some.inj (hc.symm.trans hl))
      · exact .inr (Option.some.inj (hc.symm.trans hr))
    · rintro (rfl | rfl)
      · exact ⟨by omega, hpl⟩
      · exact ⟨by omega, hpr⟩
  rw [hpair, Finset.sum_pair hne, share_of_edge hcl, share_of_edge hcr, add_halves]

/-- Counted by their parents, the nodes but the root have the shares of the internal nodes. -/
theorem CodeTree.share_nonroot :
    ∑ j ∈ Finset.range (2 * n - 2), share T j = ∑ i ∈ Finset.Ico n (2 * n - 1), share T i := by
  have hmaps : ∀ j ∈ Finset.range (2 * n - 2), (nodeAt T j).parent ∈ (Finset.Ico n (2 * n - 1)).image some := fun j hj => by
    obtain ⟨p, hp, hnp, hpn, -⟩ := h.parent j (Finset.mem_range.mp hj)
    exact Finset.mem_image.mpr ⟨p, Finset.mem_Ico.mpr ⟨hnp, hpn⟩, hp.symm⟩
  rw [← Finset.sum_fiberwise_of_maps_to hmaps, Finset.sum_image fun _ _ _ _ => Option.some.inj]
  refine Finset.sum_congr rfl fun i hi => ?_
  obtain ⟨hi, hi'⟩ := Finset.mem_Ico.mp hi
  exact h.share_children hi hi'

/-- All nodes are the leaves and the internal nodes, and they are the root and the others. -/
theorem CodeTree.share_leaves (hn : 1 ≤ n) : ∑ j ∈ Finset.range n, share T j = 1 := by
  have hroot : share T (2 * n - 2) = 1 := by rw [share, h.root_code, List.length_nil, pow_zero]
  have hall := Finset.sum_range_add_sum_Ico (share T) (show n ≤ 2 * n - 1 by omega)
  have hlast := Finset.sum_range_succ (share T) (2 * n - 2)
  rw [show 2 * n - 2 + 1 = 2 * n - 1 by omega, h.share_nonroot, hroot] at hlast
  linarith

end CodeTree

/-- Settles O43: `CodeTree.share_leaves`. -/
theorem leafCodesAreComplete : Obligations.LeafCodesAreComplete := by
  unfold Obligations.LeafCodesAreComplete
  rintro out _ _ rfl hn rfl
  exact (codeTree_buildTree hn).share_leaves hn

end Sys2Proof.Machine
end

section
/-! PROOFS. The nodes HT_BUILD leaves under SOURCE_LITERAL (42_huffman.md R195), and the builds of at most two entries, where
the policies agree (R191). -/

namespace Sys2Proof.Machine

/-! ### At most two entries -/

theorem candidate_seed (pol : MergePolicy) (out : List Entry) (j : Nat) : candidate pol (seed out) j = true := by
  cases pol with
  | sourceLiteral => rfl
  | excludeParented =>
    have hp : (nodeAt (seed out) j).parent = none := Option.eq_none_iff_forall_ne_some.mpr fun p hp => by
      obtain ⟨h1, h2, -⟩ := (seed_forest out).parent j p hp
      omega
    rw [candidate, hp]; rfl

/-- No seeded node has a parent, so the first merge does not depend on the policy. -/
theorem mergeStep_seed (pol pol' : MergePolicy) (out : List Entry) (i : Nat) :
    mergeStep pol (seed out) i = mergeStep pol' (seed out) i := by
  have hscan : scanStep pol (seed out) = scanStep pol' (seed out) := by
    funext m j
    rw [scanStep, scanStep, candidate_seed, candidate_seed]
  rw [mergeStep, mergeStep, select2, select2, hscan]

/-- A build of at most two entries has at most one merge. -/
theorem buildTree_policy {out : List Entry} (h : out.length ≤ 2) (pol pol' : MergePolicy) :
    buildTree pol out = buildTree pol' out := by
  have hloop : mergeLoop pol out.length (seed out) = mergeLoop pol' out.length (seed out) := by
    obtain hk | hk : out.length - 1 = 0 ∨ out.length - 1 = 1 := by omega
    · rw [mergeLoop, mergeLoop, hk]; rfl
    · rw [mergeLoop, mergeLoop, hk]; exact mergeStep_seed pol pol' out _
  rw [buildTree, buildTree, hloop]

/-- What holds of the builds of EXCLUDE_PARENTED, and of those of SOURCE_LITERAL that merge, holds of every build. -/
theorem buildTree_cases {out : List Entry} {P : List Node → Prop} (hexclude : P (buildTree .excludeParented out))
    (hliteral : 2 ≤ out.length → P (buildTree .sourceLiteral out)) (pol : MergePolicy) : P (buildTree pol out) := by
  cases pol with
  | excludeParented => exact hexclude
  | sourceLiteral =>
    by_cases h2 : 2 ≤ out.length
    · exact hliteral h2
    · rwa [buildTree_policy (by omega) .sourceLiteral .excludeParented]

/-! ### The traversal of a root over two leaves (42_huffman.md R190) -/

/-- Node `j` has no children. -/
def Childless (T : List Node) (j : Nat) : Prop :=
  (nodeAt T j).left = none ∧ (nodeAt T j).right = none

theorem bfs_childless {T : List Node} {x : Nat} (h : Childless T x) (fuel : Nat) (q : List Nat) :
    bfs (fuel + 1) (x :: q) T = bfs fuel q T := by
  obtain ⟨hl, hr⟩ := h
  simp only [bfs, hl, hr, visitChild]

theorem bfs_childless_all {T : List Node} {q : List Nat} (h : ∀ x ∈ q, Childless T x) (fuel : Nat) : bfs fuel q T = T := by
  induction fuel generalizing q with
  | zero => rfl
  | succ fuel ih =>
    cases q with
    | nil => rfl
    | cons x q =>
      rw [bfs_childless (h x List.mem_cons_self), ih fun y hy => h y (List.mem_cons_of_mem x hy)]

/-- `nodes[j].code <- c`. -/
def setCode (T : List Node) (j : Nat) (c : List Bool) : List Node :=
  T.modify j fun x => { x with code := c }

@[simp] theorem setCode_length (T : List Node) (j : Nat) (c : List Bool) : (setCode T j c).length = T.length := by
  simp [setCode]

theorem setCode_same (T : List Node) (i : Nat) (c : List Bool) (j : Nat) :
    SameButCode (nodeAt T j) (nodeAt (setCode T i c) j) :=
  modify_code_same T i c j

theorem nodeAt_setCode_code {T : List Node} {i : Nat} (hi : i < T.length) (c : List Bool) (j : Nat) :
    (nodeAt (setCode T i c) j).code = if j = i then c else (nodeAt T j).code := by
  rw [setCode, nodeAt_modify]
  by_cases hj : j = i
  · rw [if_pos hj, if_pos ⟨hj.symm, hj ▸ hi⟩]
  · rw [if_neg hj, if_neg fun h => hj h.1.symm]

theorem childless_of_same {T₀ T : List Node} (h : ∀ j, SameButCode (nodeAt T₀ j) (nodeAt T j)) {j : Nat}
    (hj : Childless T₀ j) : Childless T j :=
  ⟨(h j).left.trans hj.1, (h j).right.trans hj.2⟩

/-- The root's two leaves get its code with 0 and with 1, and have no children to visit. -/
theorem bfs_twoLeaves {T : List Node} {x a b : Nat} (hl : (nodeAt T x).left = some a) (hr : (nodeAt T x).right = some b)
    (ha : Childless T a) (hb : Childless T b) (fuel : Nat) : bfs (fuel + 1) [x] T =
      setCode (setCode T a ((nodeAt T x).code ++ [false])) b ((nodeAt T x).code ++ [true]) := by
  simp only [bfs, hl, hr, visitChild]
  refine bfs_childless_all (fun y hy => ?_) fuel
  have hy : Childless T y := by
    simp only [List.nil_append, List.singleton_append, List.mem_cons, List.not_mem_nil, or_false] at hy
    rcases hy with rfl | rfl
    · exact ha
    · exact hb
  exact childless_of_same (setCode_same _ _ _) (childless_of_same (setCode_same _ _ _) hy)

section Literal

variable {out : List Entry} {a b : Nat} {T : List Node} (h : Literal out a b (2 * out.length - 1) T)
include h

theorem Literal.childless {j : Nat} (hj : j < out.length) : Childless T j := by
  obtain ⟨-, -, hl, hr⟩ := h.leaf j _ (List.getElem?_eq_getElem hj)
  exact ⟨hl, hr⟩

/-- Code generation gives the two least leaves the codes 0 and 1, and no other node a code. -/
theorem Literal.codeGen_code (hn : 2 ≤ out.length) (j : Nat) :
    (nodeAt (codeGen out.length T) j).code = if j = b then [true] else if j = a then [false] else [] := by
  have ha := h.fst_lt
  have hb := h.snd_lt
  have hlen := h.length
  have hroot := h.inner (2 * out.length - 2) (by omega) (by omega)
  have hsame := setCode_same T (2 * out.length - 2) []
  have hnone : ∀ j, (nodeAt (setCode T (2 * out.length - 2) []) j).code = [] := fun j => by
    rw [nodeAt_setCode_code (by omega), h.code j, ite_self]
  have hbfs := bfs_twoLeaves (T := setCode T (2 * out.length - 2) []) (x := 2 * out.length - 2) (a := a) (b := b)
    (by rw [(hsame _).left, hroot]) (by rw [(hsame _).right, hroot]) (childless_of_same hsame (h.childless ha))
    (childless_of_same hsame (h.childless hb)) (T.length - 1)
  rw [Nat.sub_add_cancel (by omega), hnone] at hbfs
  rw [codeGen_of_ne_nil (List.length_pos_iff.mp (by omega)), ← setCode, hbfs,
    nodeAt_setCode_code (by simp only [setCode_length]; omega), nodeAt_setCode_code (by rw [setCode_length]; omega), hnone]
  rfl

end Literal

/-! ### The nodes of a build (42_huffman.md R195) -/

/-- The nodes of a build of one entry under either policy: the one leaf is the root. -/
theorem sourceLiteral_one {out : List Entry} (h1 : out.length = 1) :
    (nodeAt (buildTree .sourceLiteral out) 0).parent = none ∧ (nodeAt (buildTree .sourceLiteral out) 0).code = [] := by
  obtain ⟨-, -, -, -, hp, hc⟩ := excludeParentedBuildsOneTree out 1 _ h1 le_rfl rfl
  rw [buildTree_policy (by omega) .sourceLiteral .excludeParented]
  exact ⟨hp, hc⟩

/-- Settles O44: one entry is the case of O41, as is the agreement for two by `buildTree_policy`; the merges of more keep
`Literal`, and `Literal.codeGen_code` gives the codes. -/
theorem sourceLiteralRepeatsOnePair : Obligations.SourceLiteralRepeatsOnePair := by
  unfold Obligations.SourceLiteralRepeatsOnePair
  rintro out _ _ rfl hn rfl
  have hsame := buildTree_same .sourceLiteral out
  have hlen := buildTree_length .sourceLiteral out
  have hpolicy : out.length ≤ 2 → buildTree .excludeParented out = buildTree .sourceLiteral out := fun h =>
    buildTree_policy h ..
  by_cases h1 : out.length = 1
  · obtain ⟨-, hleaf, -⟩ := excludeParentedBuildsOneTree out _ _ rfl hn rfl
    rw [hpolicy (by omega)] at hleaf
    exact ⟨hlen, hleaf, fun i hi hi' => by omega, fun _ => sourceLiteral_one h1, hpolicy, fun h => by omega⟩
  · have h2 : 2 ≤ out.length := by omega
    obtain ⟨a, b, h⟩ := mergeLoop_literal h2
    have ha := h.fst_lt
    have hb := h.snd_lt
    have hne := h.least.ne
    have hcode := h.codeGen_code h2
    rw [← buildTree] at hcode
    refine ⟨hlen, fun j hj => leaf_of_same hsame h.leaf hj, fun i hi hi' => ?_, fun h => absurd h h1, hpolicy,
      fun _ => ⟨a, b, ha, hb, hne, fun j hj hja => nodeBefore_of_same hsame (h.least.fst j (by omega) hja),
        fun j hj hja hjb => nodeBefore_of_same hsame (h.least.snd j (by omega) hja hjb), fun i hi hi' => ?_, ?_, ?_, ?_, ?_,
        fun j hj hja hjb => ⟨?_, ?_⟩⟩⟩
    · rw [(hsame i).symbol, h.inner i hi hi']; rfl
    · rw [(hsame i).left, (hsame i).right, (hsame i).weight, (hsame a).weight, (hsame b).weight, h.inner i hi hi']
      exact ⟨rfl, rfl, rfl⟩
    · rw [(hsame a).parent, h.parent a, if_pos ⟨.inl rfl, by omega⟩]; rfl
    · rw [(hsame b).parent, h.parent b, if_pos ⟨.inr rfl, by omega⟩]; rfl
    · rw [hcode, if_neg hne, if_pos rfl]
    · rw [hcode, if_pos rfl]
    · rw [(hsame j).parent, h.parent j, if_neg (by tauto)]
    · rw [hcode, if_neg hjb, if_neg hja]

end Sys2Proof.Machine
end

section
/-! PROOFS. The ranges of a node of a valid Huffman unit (10_state.md R49, 42_huffman.md R193), under either policy. -/

namespace Sys2Proof.Machine

/-! ### Weights (42_huffman.md R193) -/

theorem le_two_pow_ceilLog2 (m : Nat) : m ≤ 2 ^ ceilLog2 m := by
  unfold ceilLog2
  split
  · next h => exact h
  · have := Nat.lt_log2_self (n := m - 1)
    omega

theorem nodeBits_le {p : Params} (hp : p.Legal) : p.nodeBits ≤ 32 := by
  obtain ⟨-, -, -, -, hpos, hle⟩ := hp
  unfold Params.nodeBits
  omega

/-- The weights of at most MAX_ENTRIES entries add up to less than 2^NODE_BITS. -/
theorem lt_two_pow_nodeBits {p : Params} {n w : Nat} (hn : n ≤ p.maxEntries) (hw : w ≤ n * (2 ^ p.weightBits - 1)) :
    w < 2 ^ p.nodeBits := by
  have hpos : 0 < 2 ^ p.weightBits := Nat.two_pow_pos _
  calc w ≤ n * (2 ^ p.weightBits - 1) := hw
    _ ≤ 2 ^ p.log2e * (2 ^ p.weightBits - 1) := Nat.mul_le_mul_right _ (hn.trans (le_two_pow_ceilLog2 _))
    _ < 2 ^ p.log2e * 2 ^ p.weightBits := Nat.mul_lt_mul_of_pos_left (by omega) (Nat.two_pow_pos _)
    _ = 2 ^ p.nodeBits := by rw [Params.nodeBits, Nat.pow_add, Nat.mul_comm]

/-! ### The merged nodes -/

/-- A node whose weight, symbol and links are in the ranges of 10_state.md R49. -/
structure Node.InRange (p : Params) (x : Node) : Prop where
  weight : x.weight < 2 ^ p.nodeBits
  symbol : ∀ k, x.symbol = some k → k < 2 ^ p.symBits
  parent : ∀ k, x.parent = some k → k < p.maxNodes
  left   : ∀ k, x.left = some k → k < p.maxNodes
  right  : ∀ k, x.right = some k → k < p.maxNodes

theorem blankNode_inRange (p : Params) : blankNode.InRange p :=
  ⟨Nat.two_pow_pos _, nofun, nofun, nofun, nofun⟩

theorem inRange_of_sameButCode {p : Params} {x y : Node} (h : SameButCode x y) (hx : x.InRange p) : y.InRange p where
  weight := h.weight ▸ hx.weight
  symbol := h.symbol ▸ hx.symbol
  parent := h.parent ▸ hx.parent
  left := h.left ▸ hx.left
  right := h.right ▸ hx.right

theorem Links.child_lt {T : List Node} {root i j : Nat} (h : Links T root) (hc : IsChild T i j) : j < T.length := by
  rcases h.children i with ⟨hl, hr⟩ | ⟨l, r, hl, hr, hlt, hrt, -⟩
  · rw [IsChild, hl, hr] at hc
    exact absurd hc (by simp)
  · rw [IsChild, hl, hr] at hc
    rcases hc with hc | hc
    · exact Option.some.inj hc ▸ hlt
    · exact Option.some.inj hc ▸ hrt

section Merged

variable {p : Params} {out : List Entry} (hlen : out.length ≤ p.maxEntries) (hin : ∀ e ∈ out, e.InRange p)

include hin in
theorem weight_le_of_mem {e : Entry} (he : e ∈ out) : e.weight ≤ 2 ^ p.weightBits - 1 :=
  Nat.le_sub_one_of_lt (hin e he).2

include hin in
theorem LeavesCarry.in_range {T : List Node} (h : LeavesCarry out T) {j : Nat} (hj : j < out.length) :
    (nodeAt T j).weight ≤ 2 ^ p.weightBits - 1 ∧ ∀ k, (nodeAt T j).symbol = some k → k < 2 ^ p.symBits := by
  obtain ⟨hs, hw, -⟩ := h j _ (List.getElem?_eq_getElem hj)
  refine ⟨hw ▸ weight_le_of_mem hin (List.getElem_mem hj), fun k hk => ?_⟩
  obtain rfl := Option.some.inj (hs.symm.trans hk)
  exact (hin _ (List.getElem_mem hj)).1

include hin in
theorem leafTotal_le : leafTotal out ≤ out.length * (2 ^ p.weightBits - 1) := by
  have := List.sum_le_card_nsmul (out.map (·.weight)) (2 ^ p.weightBits - 1) fun w hw => by
    obtain ⟨e, he, rfl⟩ := List.mem_map.mp hw
    exact weight_le_of_mem hin he
  simpa [leafTotal] using this

include hlen in
theorem lt_maxNodes {k : Nat} (h : k < 2 * out.length - 1) : k < p.maxNodes := by
  unfold Params.maxNodes
  omega

include hlen hin

theorem forest_inRange (hout : out ≠ []) {T : List Node} (h : Forest out (2 * out.length - 1) T)
    (hbal : Balance out (2 * out.length - 1) T) (j : Nat) : (nodeAt T j).InRange p where
  weight := lt_two_pow_nodeBits hlen ((hbal.le j).trans (leafTotal_le hin))
  symbol k hk := by
    by_cases hleaf : j < out.length
    · exact (LeavesCarry.in_range hin h.leaf hleaf).2 k hk
    by_cases hinner : j < 2 * out.length - 1
    · obtain ⟨hs, -⟩ := h.inner j (by omega) hinner
      rw [hs] at hk; cases hk
    · rw [h.blank j (by omega)] at hk; cases hk
  parent k hk := by
    obtain ⟨-, hlt, -⟩ := h.parent j k hk
    exact lt_maxNodes hlen hlt
  left _ hk := lt_maxNodes hlen (h.length ▸ (forest_links h hout (forest_root h hbal hout).1).child_lt (.inl hk))
  right _ hk := lt_maxNodes hlen (h.length ▸ (forest_links h hout (forest_root h hbal hout).1).child_lt (.inr hk))

theorem literal_inRange {a b : Nat} {T : List Node} (h : Literal out a b (2 * out.length - 1) T) (j : Nat) :
    (nodeAt T j).InRange p := by
  have ha := h.fst_lt
  have hb := h.snd_lt
  have hne := h.least.ne
  by_cases hleaf : j < out.length
  · obtain ⟨hw, hs⟩ := LeavesCarry.in_range hin h.leaf hleaf
    obtain ⟨hl, hr⟩ := h.childless hleaf
    refine ⟨lt_two_pow_nodeBits hlen (hw.trans (Nat.le_mul_of_pos_left _ (by omega))), hs, fun k hk => ?_,
      by simp [hl], by simp [hr]⟩
    rw [h.parent] at hk
    split at hk
    · obtain rfl := Option.some.inj hk
      exact lt_maxNodes hlen (by omega)
    · cases hk
  by_cases hinner : j < 2 * out.length - 1
  · rw [h.inner j (by omega) hinner]
    refine ⟨lt_two_pow_nodeBits hlen ?_, nofun, nofun, fun k hk => ?_, fun k hk => ?_⟩
    · calc (nodeAt T a).weight + (nodeAt T b).weight ≤ 2 * (2 ^ p.weightBits - 1) := by
            have := (LeavesCarry.in_range hin h.leaf ha).1
            have := (LeavesCarry.in_range hin h.leaf hb).1
            omega
        _ ≤ out.length * (2 ^ p.weightBits - 1) := Nat.mul_le_mul_right _ (by omega)
    · obtain rfl := Option.some.inj hk
      exact lt_maxNodes hlen (by omega)
    · obtain rfl := Option.some.inj hk
      exact lt_maxNodes hlen (by omega)
  · rw [h.blank j (by omega)]
    exact blankNode_inRange p

/-! ### The nodes of a build -/

theorem buildTree_inRange (pol : MergePolicy) {j : Nat} (hj : j < 2 * out.length - 1) :
    (nodeAt (buildTree pol out) j).InRange p := by
  refine buildTree_cases (P := fun T => (nodeAt T j).InRange p) ?_ (fun h2 => ?_) pol
  · have hout : out ≠ [] := List.length_pos_iff.mp (by omega)
    obtain ⟨hf, hbal, -⟩ := mergeLoop_forest hout
    exact inRange_of_sameButCode (buildTree_same _ out j) (forest_inRange hlen hin hout hf hbal j)
  · obtain ⟨a, b, h⟩ := mergeLoop_literal h2
    exact inRange_of_sameButCode (buildTree_same _ out j) (literal_inRange hlen hin h j)

end Merged

/-- No code has more than n - 1 bits, under either policy (42_huffman.md R196). -/
theorem buildTree_code_length_le (pol : MergePolicy) {out : List Entry} {j : Nat} (hj : j < 2 * out.length - 1) :
    (nodeAt (buildTree pol out) j).code.length ≤ out.length - 1 := by
  refine buildTree_cases (P := fun T => (nodeAt T j).code.length ≤ out.length - 1) ?_ (fun h2 => ?_) pol
  · exact (codeTree_buildTree (out := out) (by omega)).length_le hj
  · obtain ⟨a, b, h⟩ := mergeLoop_literal h2
    have hle : (if j = b then [true] else if j = a then [false] else []).length ≤ 1 := by
      split <;> [exact le_rfl; split <;> simp]
    rw [buildTree, h.codeGen_code h2]
    omega

/-! ### The nodes of a valid unit -/

section Valid

variable {p : Params} {H : Huffman} (hH : H.Valid p)
include hH

theorem normalize_length_le : (normalize H.raw).length ≤ p.maxEntries :=
  (normalize_length H.raw).trans hH.raw_le

theorem n_le_maxEntries : H.n ≤ p.maxEntries := by
  cases hphase : H.phase with
  | loading => rw [(hH.loading hphase).1]; exact Nat.zero_le _
  | built => rw [(hH.built hphase).1]; exact normalize_length_le hH

/-- A node of a valid unit is one that the build made of the entries. -/
theorem node_eq {k : Nat} {x : Node} (hx : H.nodes[k]? = some x) :
    k < 2 * (normalize H.raw).length - 1 ∧ nodeAt (buildTree p.merge (normalize H.raw)) k = x := by
  cases hphase : H.phase with
  | loading => rw [(hH.loading hphase).2] at hx; cases hx
  | built =>
    rw [(hH.built hphase).2] at hx
    rw [← buildTree_length p.merge]
    exact ⟨(List.getElem?_eq_some_iff.mp hx).1, nodeAt_of_getElem? hx⟩

theorem node_inRange {k : Nat} {x : Node} (hx : H.nodes[k]? = some x) : x.InRange p := by
  obtain ⟨hk, rfl⟩ := node_eq hH hx
  exact buildTree_inRange (normalize_length_le hH) (fun e he => hH.raw_in e ((normalize_mem _ e).mp he)) p.merge hk

theorem node_code_length_le {k : Nat} {x : Node} (hx : H.nodes[k]? = some x) : x.code.length ≤ p.maxCodeLen := by
  obtain ⟨hk, rfl⟩ := node_eq hH hx
  exact (buildTree_code_length_le p.merge hk).trans (Nat.sub_le_sub_right (normalize_length_le hH) 1)

end Valid

/-- Settles O45: `node_inRange`. -/
theorem nodeWeightsFit : Obligations.NodeWeightsFit := by
  unfold Obligations.NodeWeightsFit
  refine fun p H hp hH => ⟨nodeBits_le hp, fun x hx => ?_⟩
  obtain ⟨k, hk⟩ := List.mem_iff_getElem?.mp hx
  exact (node_inRange hH hk).weight

end Sys2Proof.Machine
end

section
/-! PROOFS. The Huffman commands (42_huffman.md R181, R182, R192, R198, R210 to R216): loading, building and reading. -/

namespace Sys2Proof.Machine

theorem maxEntries_le {p : Params} (hp : p.Legal) : p.maxEntries ≤ 32768 := by
  obtain ⟨-, -, -, ⟨-, hle⟩, -⟩ := hp
  exact hle

/-! ### Loading and building -/

theorem exec_htInfo (s : State) : exec .htInfo s =
    complete (word32 s.ht.raw.length ||| if s.ht.phase = .built then 0x80000000#32 else 0) (word32 s.ht.n) s := rfl

/-- Below 2^31 a count leaves bit 31 to the phase (42_huffman.md R210). -/
theorem word32_or_phase {n : Nat} (hn : n < 2 ^ 31) (c : Prop) [Decidable c] :
    (word32 n ||| if c then 0x80000000#32 else 0).toNat = n + if c then 2 ^ 31 else 0 := by
  rw [BitVec.toNat_or, word32_toNat (hn.trans (by norm_num))]
  split
  · rw [Nat.or_comm, Nat.add_comm]
    exact (Nat.two_pow_add_eq_or_of_lt hn 1).symm
  · exact Nat.or_zero n

/-- Settles O35: HT_CLEAR puts the unit of reset, and both counts of a valid unit are below 2^31. -/
theorem clearAndInfoOfTheHuffmanUnit : Obligations.ClearAndInfoOfTheHuffmanUnit := by
  unfold Obligations.ClearAndInfoOfTheHuffmanUnit
  refine ⟨fun s => ⟨_, rfl, setHt_completed_done s .reset 0 0, rfl, rfl, rfl, rfl⟩, fun s hp hH => ?_⟩
  have hent := maxEntries_le hp
  have hraw := hH.raw_le
  have hn := n_le_maxEntries hH
  exact ⟨_, exec_htInfo s, completed_done .., completed_units .., word32_or_phase (by omega) _, word32_toNat (by omega)⟩

theorem exec_htPush_built {s : State} (hb : s.ht.phase = .built) : exec .htPush s = .next (s.raised .built 0) :=
  if_pos hb

/-- The entry (A0, A1) that HT_PUSH adds. -/
def State.operandEntry (s : State) : Entry :=
  ⟨s.latA0.toNat, s.latA1.toNat⟩

/-- HT_PUSH past its three checks (42_huffman.md R182). -/
theorem exec_htPush_of_room {s : State} (hl : s.ht.phase = .loading) (hin : s.operandEntry.InRange s.cfg)
    (hroom : s.ht.raw.length < s.cfg.maxEntries) :
    exec .htPush s = .next ((s.setHt { s.ht with raw := s.ht.raw ++ [s.operandEntry] }).completed
      (word32 (s.ht.raw.length + 1)) 0) := by
  have hrange : ¬ (2 ^ s.cfg.symBits ≤ s.a0 ∨ 2 ^ s.cfg.weightBits ≤ s.a1) :=
    not_or.mpr ⟨not_le.mpr hin.1, not_le.mpr hin.2⟩
  simp only [exec, execHtPush]
  rw [if_neg (by rw [hl]; decide), if_neg hrange, if_neg hroom.ne, List.length_append]
  rfl

/-- Settles O36: the list grows to at most MAX_ENTRIES, and `huffman_push_valid` says the unit stays valid. -/
theorem pushAddsTheEntry : Obligations.PushAddsTheEntry := by
  unfold Obligations.PushAddsTheEntry
  refine fun s => ⟨exec_htPush_built, fun hp hH hl hsym hweight hroom => ?_⟩
  have hent := maxEntries_le hp
  have hin : s.operandEntry.InRange s.cfg := ⟨hsym, hweight⟩
  exact ⟨_, exec_htPush_of_room hl hin hroom, setHt_completed_done .., rfl,
    huffman_push_valid hH (by rw [hl]; decide) hin hroom, hl, rfl, word32_toNat (by omega), rfl⟩

theorem exec_htBuild_loading {s : State} (hl : s.ht.phase = .loading) :
    exec .htBuild s = .next ((s.setHt (s.ht.build s.cfg.merge)).completed (word32 (normalize s.ht.raw).length)
      (word32 (2 * (normalize s.ht.raw).length - 1))) :=
  if_neg (by rw [hl]; decide)

/-- Settles O37: the number of nodes is at most 2 · MAX_ENTRIES - 1. -/
theorem buildMakesTheTree : Obligations.BuildMakesTheTree := by
  unfold Obligations.BuildMakesTheTree
  intro s hp hH hl
  have hent := maxEntries_le hp
  have hlen := normalize_length_le hH
  have hnodes := buildTree_length s.cfg.merge (normalize s.ht.raw)
  exact ⟨_, exec_htBuild_loading hl, setHt_completed_done .., rfl, rfl, rfl, rfl, rfl, hnodes, word32_toNat (by omega),
    (word32_toNat (by omega)).trans hnodes.symm⟩

/-- Settles O39: HT_BUILD reads the raw entries through `normalize`, which `normalize_congr` says is the same in both. -/
theorem buildIgnoresPushOrder : Obligations.BuildIgnoresPushOrder := by
  unfold Obligations.BuildIgnoresPushOrder
  intro s u hcfg hs hu hraw
  have hnorm := normalize_congr hraw
  refine ⟨_, _, exec_htBuild_loading hs, exec_htBuild_loading hu, congrArg List.length hnorm, ?_, ?_, ?_⟩
  · exact congrArg₂ buildTree (congrArg Params.merge hcfg) hnorm
  · rw [completed_res0, completed_res0, hnorm]
  · rw [completed_res1, completed_res1, hnorm]

/-! ### Reading a node -/

theorem optWord_toNat {o : Option Nat} (h : ∀ k, o = some k → k < 2 ^ 32) : (optWord o).toNat = o.getD 0xFFFFFFFF := by
  cases o with
  | none => rfl
  | some k => exact word32_toNat (h k rfl)

/-- For legal parameters each field of a node is below 2^32. -/
theorem Node.InRange.lt_word {p : Params} (hp : p.Legal) {x : Node} (hx : x.InRange p) :
    x.weight < 2 ^ 32 ∧ (∀ k, x.symbol = some k → k < 2 ^ 32) ∧ (∀ k, x.parent = some k → k < 2 ^ 32) ∧
      (∀ k, x.left = some k → k < 2 ^ 32) ∧ (∀ k, x.right = some k → k < 2 ^ 32) := by
  obtain ⟨-, -, ⟨-, hsym⟩, -, -⟩ := id hp
  have hlink : p.maxNodes < 2 ^ 32 := by
    have := maxEntries_le hp
    unfold Params.maxNodes
    omega
  exact ⟨hx.weight.trans_le (Nat.pow_le_pow_right (by norm_num) (nodeBits_le hp)),
    fun k hk => (hx.symbol k hk).trans_le (Nat.pow_le_pow_right (by norm_num) (by omega)),
    fun k hk => (hx.parent k hk).trans hlink, fun k hk => (hx.left k hk).trans hlink,
    fun k hk => (hx.right k hk).trans hlink⟩

/-- Settles O46: `node_inRange`, whose bounds are at most 2^32. -/
theorem nodeReadsReturnTheFields : Obligations.NodeReadsReturnTheFields := by
  unfold Obligations.NodeReadsReturnTheFields
  intro s x hp hH hb hx
  obtain ⟨hweight, hsymbol, hparent, hleft, hright⟩ := (node_inRange hH hx).lt_word hp
  refine ⟨?_, ?_, ?_, ?_⟩
  · exact ⟨_, exec_htNodeWeight hb hx, completed_done .., completed_units .., word32_toNat hweight, rfl⟩
  · exact ⟨_, exec_htNodeParent hb hx, completed_done .., completed_units .., optWord_toNat hparent, rfl⟩
  · exact ⟨_, exec_htNodeChildren hb hx, completed_done .., completed_units .., optWord_toNat hleft, optWord_toNat hright⟩
  · exact ⟨_, exec_htNodeSymbol hb hx, completed_done .., completed_units .., optWord_toNat hsymbol, rfl⟩

/-! ### The chunks of a code (42_huffman.md R215) -/

/-- The number whose lowest `m` bits are those of `f`, and whose other bits are 0. -/
def bitSum (f : Nat → Bool) (m : Nat) : Nat :=
  ((List.range m).map fun t => if f t then 2 ^ t else 0).sum

theorem bitSum_succ (f : Nat → Bool) (m : Nat) : bitSum f (m + 1) = bitSum f m + if f m then 2 ^ m else 0 := by
  simp [bitSum, List.range_succ]

theorem testBit_bitSum (f : Nat → Bool) (m q : Nat) : (bitSum f m).testBit q = (decide (q < m) && f q) := by
  induction m generalizing q with
  | zero => simp [bitSum]
  | succ m ih =>
    have hlt : bitSum f m < 2 ^ m := Nat.lt_pow_two_of_testBit _ fun i hi => by simp [ih, not_lt.mpr hi]
    rw [bitSum_succ]
    by_cases hm : f m
    · have hor : bitSum f m + 2 ^ m = 2 ^ m ||| bitSum f m := by
        simpa [Nat.add_comm] using Nat.two_pow_add_eq_or_of_lt hlt 1
      rw [if_pos hm, hor, Nat.testBit_or, Nat.testBit_two_pow, ih]
      grind
    · rw [if_neg hm, Nat.add_zero, ih]
      grind

theorem codeChunk_getLsbD (code : List Bool) (j : Nat) {q : Nat} (hq : q < 32) :
    (word32 (codeChunk code j)).getLsbD q = code[32 * j + q]?.getD false := by
  have hchunk : codeChunk code j = bitSum (fun t => code.getD (32 * j + t) false) 32 := rfl
  rw [word32, BitVec.getLsbD_ofNat, hchunk, testBit_bitSum, List.getD_eq_getElem?_getD]
  simp [hq]

theorem code_length_lt {p : Params} {H : Huffman} (hp : p.Legal) (hH : H.Valid p) {k : Nat} {x : Node}
    (hx : H.nodes[k]? = some x) : x.code.length < 2 ^ 32 := by
  have hent := maxEntries_le hp
  have hlen := node_code_length_le hH hx
  unfold Params.maxCodeLen at hlen
  omega

/-- Settles O47: the length is below 2^32, and `codeChunk_getLsbD` gives the bits. -/
theorem nodeCodeReturnsTheChunk : Obligations.NodeCodeReturnsTheChunk := by
  unfold Obligations.NodeCodeReturnsTheChunk
  intro s x j hp hH hb hx hj
  have hexec := exec_htNodeCode hb hx j
  rw [if_neg (not_le.mpr hj)] at hexec
  exact ⟨_, hexec, completed_done .., completed_units .., word32_toNat (code_length_lt hp hH hx),
    fun q hq => codeChunk_getLsbD x.code j.toNat hq⟩

/-! ### The lookup (42_huffman.md R199, R216) -/

theorem mem_leavesOf {H : Huffman} {k j : Nat} :
    j ∈ leavesOf H k ↔ j < H.n ∧ (nodeAt H.nodes j).symbol = some k := by
  simp [leavesOf]

theorem leavesOf_pairwise (H : Huffman) (k : Nat) : (leavesOf H k).Pairwise (· < ·) :=
  List.pairwise_lt_range.filter _

theorem leafOf_eq_none {H : Huffman} {k : Nat} (h : ∀ j < H.n, (nodeAt H.nodes j).symbol ≠ some k) (dup : DupLookup) :
    leafOf dup H k = none := by
  have hnil : leavesOf H k = [] := List.eq_nil_iff_forall_not_mem.mpr fun j hj => by
    obtain ⟨hlt, hs⟩ := mem_leavesOf.mp hj
    exact h j hlt hs
  cases dup <;> rw [leafOf, hnil] <;> rfl

/-- When a leaf carries the symbol, the lookup finds one that does, at or past it under LAST, and at or before it under
FIRST: the leaves are listed in ascending order. -/
theorem leafOf_eq_some {H : Huffman} {k j : Nat} (hj : j ∈ leavesOf H k) (dup : DupLookup) :
    ∃ x ∈ leavesOf H k, leafOf dup H k = some x ∧ (dup = .last → j ≤ x) ∧ (dup = .first → x ≤ j) := by
  have hasc := leavesOf_pairwise H k
  cases dup with
  | last =>
    obtain ⟨init, x, hx⟩ := (List.eq_nil_or_concat' _).resolve_left (List.ne_nil_of_mem hj)
    rw [leafOf]
    rw [hx] at hj hasc ⊢
    obtain ⟨-, -, hinit⟩ := List.pairwise_append.mp hasc
    refine ⟨x, by simp, List.getLast?_concat, fun _ => ?_, nofun⟩
    rcases List.mem_append.mp hj with hj | hj
    · exact (hinit j hj x (by simp)).le
    · exact (List.mem_singleton.mp hj).le
  | first =>
    obtain ⟨x, rest, hx⟩ := List.exists_cons_of_ne_nil (List.ne_nil_of_mem hj)
    rw [leafOf]
    rw [hx] at hj hasc ⊢
    obtain ⟨hrest, -⟩ := List.pairwise_cons.mp hasc
    refine ⟨x, by simp, rfl, nofun, fun _ => ?_⟩
    rcases List.mem_cons.mp hj with rfl | hj
    · exact le_rfl
    · exact (hrest j hj).le

section Lookup

variable {s : State} (hb : s.ht.phase = .built)
include hb

theorem exec_htLookup_none (h : leafOf s.cfg.dup s.ht s.latA0.toNat = none) :
    exec .htLookup s = .next (s.raised .notFound 0) := by
  simp only [exec, execHtLookup, State.a0]
  rw [if_neg (by rw [hb]; decide), h]
  rfl

theorem exec_htLookup_some {x : Nat} (h : leafOf s.cfg.dup s.ht s.latA0.toNat = some x) :
    exec .htLookup s = .next (s.completed (word32 x) (word32 (nodeAt s.ht.nodes x).code.length)) := by
  simp only [exec, execHtLookup, State.a0]
  rw [if_neg (by rw [hb]; decide), h]
  rfl

end Lookup

theorem n_le_nodes_length {p : Params} {H : Huffman} (hH : H.Valid p) (hb : H.phase = .built) : H.n ≤ H.nodes.length := by
  obtain ⟨hn, hnodes⟩ := hH.built hb
  rw [hn, hnodes, buildTree_length]
  omega

/-- Settles O48: `leafOf_eq_none` and `leafOf_eq_some`; a leaf's index and its code's length are below 2^32. -/
theorem lookupFindsTheLeaf : Obligations.LookupFindsTheLeaf := by
  unfold Obligations.LookupFindsTheLeaf
  refine fun s hp hH hb => ⟨fun hnone => exec_htLookup_none hb (leafOf_eq_none hnone _), fun k hk hsym => ?_⟩
  obtain ⟨x, hx, hleaf, hlast, hfirst⟩ := leafOf_eq_some (mem_leavesOf.mpr ⟨hk, hsym⟩) s.cfg.dup
  obtain ⟨hxn, hxsym⟩ := mem_leavesOf.mp hx
  have hent := maxEntries_le hp
  have hn := n_le_maxEntries hH
  have hnode := getElem?_eq_nodeAt (hxn.trans_le (n_le_nodes_length hH hb))
  exact ⟨_, x, exec_htLookup_some hb hleaf, completed_done .., completed_units .., hxn, hxsym, word32_toNat (by omega),
    word32_toNat (code_length_lt hp hH hnode), hlast, hfirst⟩

end Sys2Proof.Machine
end

section
/-! PROOFS. The control command NOP (43_control.md R230): what it does, and that its word is the only one with OPC 0x00 that
decodes (30_encoding.md R88). -/

namespace Sys2Proof.Machine

theorem exec_nop (s : State) : exec .nop s = .next (s.completed 0 0) := rfl

/-- OPC 0x00 stands in the row of NOP alone (30_encoding.md R87). -/
theorem eq_nop_of_fieldOpc_encode {i : Instr} (h : fieldOpc (encode i) = 0) : i = .nop := by
  cases i
  case nop => rfl
  all_goals
    rw [encode, fieldOpc_commandWord] at h
    exact absurd h (by decide)

/-- The word of a command has the bits of what it was decoded from, and NOP's has none set. -/
theorem eq_zero_of_decode {w : Word} {i : Instr} (hopc : fieldOpc w = 0) (h : decode w = .ok i) : w = 0 := by
  obtain ⟨_, _, hword⟩ := decodeAcceptsExactlyTheRows w
  obtain ⟨_, henc⟩ := hword i h
  have hi : i = .nop := eq_nop_of_fieldOpc_encode (henc ▸ hopc)
  calc w = encode .nop := by rw [← henc, hi]
    _ = 0 := by decide

/-- Settles O12: NOP by its equation, the other words with OPC 0x00 by `eq_zero_of_decode`. -/
theorem nopOnlyClearsTheResult : Obligations.NopOnlyClearsTheResult := by
  unfold Obligations.NopOnlyClearsTheResult
  refine ⟨fun s => ?_, fun w hopc hne i h => hne (eq_zero_of_decode hopc h)⟩
  exact ⟨_, exec_nop s, completed_done .., rfl, rfl, completed_units ..⟩

end Sys2Proof.Machine
end

section
/-! PROOFS. The errors of the commands (60_exceptions.md R250 to R262): which error a failed check raises, with the checks of
Validate in their order (41_bitbuffer_serial.md R162), and that an error changes nothing but the result. -/

namespace Sys2Proof.Machine

/-! ### An error and the result registers -/

/-- Settles O7: `raised_kept` and `raised_units`. -/
theorem raiseChangesOnlyTheResult : Obligations.RaiseChangesOnlyTheResult := by
  unfold Obligations.RaiseChangesOnlyTheResult
  exact fun e info s => ⟨_, rfl, raised_err .., raised_res0 .., raised_res1 .., raised_errSticky .., raised_busy ..,
    raised_kept .., raised_units ..⟩

/-! ### Words that run as no command (30_encoding.md R82, R88) -/

theorem wellFormed_eq_false {p : Params} {i : Instr} (h : i.wellFormed p = false) :
    ∃ b, i.bufSelect = some b ∧ p.nbuf ≤ b.toNat := by
  unfold Instr.wellFormed at h
  cases hb : i.bufSelect with
  | none => rw [hb] at h; cases h
  | some b => rw [hb] at h; exact ⟨b, rfl, not_lt.mp (of_decide_eq_false h)⟩

theorem runCommand_no_row {s : State} (h : ∀ i, ¬ MatchesRow s.latCmd i) : runCommand s = .next (s.raised .illegal 0) := by
  cases hd : decode s.latCmd with
  | error e => exact runCommand_error hd
  | ok i => exact absurd (decode_eq_ok_iff.mp hd).1 (h i)

/-- Settles O5: the engine's turn runs the latched word, by `runCommand_no_row` or `runCommand_missing`. -/
theorem illegalWordsRaiseIllegal : Obligations.IllegalWordsRaiseIllegal := by
  unfold Obligations.IllegalWordsRaiseIllegal
  refine ⟨fun s rest hr hb hin hword => ?_, rfl⟩
  have hstep : step s = runCommand { s with inputs := rest } :=
    (step_cons hin).trans (engineTurn_run (s := { s with inputs := rest }) hr hb)
  rw [hstep]
  rcases hword with hno | ⟨i, hdec, hwf⟩
  · exact runCommand_no_row hno
  · obtain ⟨b, hsel, hn⟩ := wellFormed_eq_false hwf
    exact runCommand_missing hdec hsel hn

/-! ### The checks of the bit-buffer commands -/

/-- Settles O22: bitCount = 0 is the one check of BB_REMOVE and of BB_LAST. -/
theorem emptyBufferErrors : Obligations.EmptyBufferErrors := by
  unfold Obligations.EmptyBufferErrors
  exact ⟨fun s b hb hempty => ⟨(exec_bbRemove hb).trans (if_pos hempty), (exec_bbLast hb).trans (if_pos hempty)⟩, rfl, rfl⟩

section Next

variable {c : Cursor} (len : Nat) (elem : Word) (moved s : State)

theorem nextElement_idle (h : c.state = .idle) : nextElement c len elem moved s = .next (s.raised .sequence 0) := by
  rw [nextElement, h]; rfl

theorem nextElement_stale (h : c.state = .stale) : nextElement c len elem moved s = .next (s.raised .iterStale 0) := by
  rw [nextElement, h]; rfl

end Next

/-- Settles O25: `nextElement_idle` and `nextElement_stale` for both cursors; the first check of a session command is that
the session is open. -/
theorem sequenceAndStaleErrors : Obligations.SequenceAndStaleErrors := by
  unfold Obligations.SequenceAndStaleErrors
  refine ⟨rfl, rfl, fun s b d hb => ⟨fun h => ?_, fun h => ?_, fun h => ?_, fun h => ?_, fun h => ⟨?_, ?_⟩⟩⟩
  · exact (exec_bbItbNext hb).trans (nextElement_idle _ _ _ s h)
  · exact (exec_bbItbNext hb).trans (nextElement_stale _ _ _ s h)
  · exact (exec_bbItuNext hb).trans (nextElement_idle _ _ _ s h)
  · exact (exec_bbItuNext hb).trans (nextElement_stale _ _ _ s h)
  · exact (exec_bbDeserByte hb d).trans (if_pos h)
  · exact (exec_bbDeserEnd hb).trans (if_pos h)

/-! ### The checks of HT_PUSH past the phase (60_exceptions.md R265) -/

theorem exec_htPush_loading {s : State} (hl : s.ht.phase = .loading) : exec .htPush s =
    if 2 ^ s.cfg.symBits ≤ s.latA0.toNat ∨ 2 ^ s.cfg.weightBits ≤ s.latA1.toNat then raise .range 0 s
    else if s.ht.raw.length = s.cfg.maxEntries then raise .capacity 0 s
    else complete (word32 (s.ht.raw ++ [s.operandEntry]).length) 0
      (s.setHt { s.ht with raw := s.ht.raw ++ [s.operandEntry] }) :=
  if_neg (by rw [hl]; decide)

/-- Settles O24: both append forms are `appendTo`, and HT_PUSH of an entry in range gets to its last check. -/
theorem capacityErrors : Obligations.CapacityErrors := by
  unfold Obligations.CapacityErrors
  refine ⟨rfl, fun s => ⟨fun b v c hb hfull => ?_, fun hl hsym hweight hfull => ?_⟩⟩
  · have happend (v : Bool) : appendTo b v s = .next (s.raised .capacity 0) := (appendTo_eq hb v).trans (if_pos hfull)
    exact ⟨(exec_bbAppend b v s).trans (happend v), (exec_bbAppendChar b c s).trans (happend _)⟩
  · have hin : ¬ (2 ^ s.cfg.symBits ≤ s.latA0.toNat ∨ 2 ^ s.cfg.weightBits ≤ s.latA1.toNat) :=
      not_or.mpr ⟨not_le.mpr hsym, not_le.mpr hweight⟩
    exact (exec_htPush_loading hl).trans ((if_neg hin).trans (if_pos hfull))

/-! ### The checks of the commands that read node k = A0 (42_huffman.md R180) -/

/-- The commands that read node k = A0, with chunk `j` for HT_NODE_CODE (42_huffman.md R211 to R215). -/
def nodeCommands (j : BitVec 16) : List Instr :=
  [.htNodeWeight, .htNodeParent, .htNodeChildren, .htNodeSymbol, .htNodeCode j]

theorem exec_eq_readNode {j : BitVec 16} {i : Instr} (hi : i ∈ nodeCommands j) (s : State) :
    ∃ run, exec i s = readNode s run := by
  simp only [nodeCommands, List.mem_cons, List.not_mem_nil, or_false] at hi
  rcases hi with rfl | rfl | rfl | rfl | rfl <;>
    simp only [exec, execHtNodeWeight, execHtNodeParent, execHtNodeChildren, execHtNodeSymbol, execHtNodeCode] <;>
    exact ⟨_, rfl⟩

theorem readNode_loading {s : State} (hl : s.ht.phase = .loading) (run : Node → Answer) :
    readNode s run = .next (s.raised .notBuilt 0) :=
  if_pos hl

theorem readNode_missing {s : State} (hb : s.ht.phase = .built) (hk : s.ht.nodes.length ≤ s.latA0.toNat)
    (run : Node → Answer) : readNode s run = .next (s.raised .range 0) := by
  rw [readNode, if_neg (by rw [hb]; decide), State.a0, if_pos hk]
  rfl

/-- HT_NODE_CODE checks the node first, with the same error (42_huffman.md R215). -/
theorem exec_htNodeCode_of_ge {s : State} (hb : s.ht.phase = .built) {j : BitVec 16} (hj : s.cfg.codeChunks ≤ j.toNat) :
    exec (.htNodeCode j) s = .next (s.raised .range 0) := by
  cases hx : s.ht.nodes[s.latA0.toNat]? with
  | none =>
    obtain ⟨run, hrun⟩ := exec_eq_readNode (j := j) (i := .htNodeCode j) (by simp [nodeCommands]) s
    exact hrun.trans (readNode_missing hb (List.getElem?_eq_none_iff.mp hx) run)
  | some x => exact (exec_htNodeCode hb hx j).trans (if_pos hj)

theorem valid_nodes_length {p : Params} {H : Huffman} (hH : H.Valid p) (hb : H.phase = .built) :
    H.nodes.length = 2 * H.n - 1 := by
  obtain ⟨hn, hnodes⟩ := hH.built hb
  rw [hn, hnodes, buildTree_length]

/-- Settles O23: each command's check of its operand; in BUILT a valid unit has 2n - 1 nodes. -/
theorem outOfRangeErrors : Obligations.OutOfRangeErrors := by
  unfold Obligations.OutOfRangeErrors
  refine ⟨rfl, fun s => ⟨fun b hb => ⟨fun h => ⟨?_, ?_⟩, fun h => ?_, fun h => ?_, fun h => ?_⟩, fun hl hout => ?_,
    fun hH hbuilt hk j i hi => ?_, fun hbuilt j hj => exec_htNodeCode_of_ge hbuilt hj⟩⟩
  · exact (exec_bbGetbit hb).trans (if_pos h)
  · exact (exec_bbGetchar hb).trans (if_pos h)
  · exact (exec_bbGetunit hb).trans (if_pos h)
  · exact (exec_bbEqual hb).trans (if_pos h)
  · exact (exec_bbSerByte hb).trans (if_pos h)
  · exact (exec_htPush_loading hl).trans (if_pos hout)
  · obtain ⟨run, hrun⟩ := exec_eq_readNode (j := j) hi s
    rw [← valid_nodes_length hH hbuilt] at hk
    exact hrun.trans (readNode_missing hbuilt hk run)

/-! ### The phases of the Huffman unit (60_exceptions.md R256, R257; 70_reset_and_hazards.md R297) -/

theorem exec_htBuild_built {s : State} (hb : s.ht.phase = .built) : exec .htBuild s = .next (s.raised .built 0) :=
  if_pos hb

theorem exec_htLookup_loading {s : State} (hl : s.ht.phase = .loading) : exec .htLookup s = .next (s.raised .notBuilt 0) :=
  if_pos hl

/-- The commands that select no buffer (42_huffman.md R180): all but three only read. -/
theorem readsOnly_or_writes_ht {i : Instr} (h : i.bufSelect = none) :
    readsOnly i = true ∨ i = .htClear ∨ i = .htPush ∨ i = .htBuild := by
  cases i <;> simp_all [Instr.bufSelect, readsOnly]

theorem exec_built_ht {s t : State} {i : Instr} (hb : s.ht.phase = .built) (h : exec i s = .next t) (hi : i ≠ .htClear) :
    t.ht = s.ht := by
  cases hsel : i.bufSelect with
  | some b => exact ((commandsKeepTheOtherUnits i s t h).1 b hsel).ht
  | none =>
    rcases readsOnly_or_writes_ht hsel with hreads | rfl | rfl | rfl
    · exact (readingCommandsChangeNoUnit i s t hreads h).ht
    · exact absurd rfl hi
    · cases (exec_htPush_built hb).symm.trans h; exact raised_ht s .built 0
    · cases (exec_htBuild_built hb).symm.trans h; exact raised_ht s .built 0

/-- Settles O49: `readNode_loading`, the check for BUILT, and `exec_built_ht`. -/
theorem phasesGuardTheHuffmanUnit : Obligations.PhasesGuardTheHuffmanUnit := by
  unfold Obligations.PhasesGuardTheHuffmanUnit
  refine ⟨rfl, rfl, fun s => ⟨fun hl j => ?_, fun hb => ?_, fun hb i t h hi => exec_built_ht hb h hi⟩⟩
  · refine List.forall_mem_append (l₁ := nodeCommands j) (l₂ := [.htLookup]) |>.mpr ⟨fun i hi => ?_, ?_⟩
    · obtain ⟨run, hrun⟩ := exec_eq_readNode hi s
      exact hrun.trans (readNode_loading hl run)
    · exact List.forall_mem_singleton.mpr (exec_htLookup_loading hl)
  · exact List.forall_mem_cons.mpr ⟨exec_htPush_built hb, List.forall_mem_singleton.mpr (exec_htBuild_built hb)⟩

/-! ### The checks of Validate, in their order (41_bitbuffer_serial.md R162) -/

section Validate

variable {o : BitOrder} {w : Nat} {bytes : List Byte}

theorem validate_shortHeader (h : bytes.length < 3 * w) : validate o w bytes false = some .shortHeader :=
  if_pos ⟨rfl, h⟩

theorem validate_lengthMismatch {ovf : Bool}
    (h : ovf = true ∨ 3 * w ≤ bytes.length ∧ bytes.length ≠ 3 * w + imageUnitCount w bytes) :
    validate o w bytes ovf = some .lengthMismatch := by
  have hheader : ¬ (ovf = false ∧ bytes.length < 3 * w) := by
    rintro ⟨rfl, hshort⟩
    rcases h with h | ⟨h, -⟩
    · cases h
    · omega
  exact (if_neg hheader).trans (if_pos (h.imp_right And.right))

/-- The checks that are left for an image of the right length. -/
theorem validate_of_length (h : bytes.length = 3 * w + imageUnitCount w bytes) : validate o w bytes false =
    if imageUnitCount w bytes = 0 then some .zeroUnits
    else if imageUnitIndex w bytes ≠ imageUnitCount w bytes - 1 then some .indexMismatch
    else if imageUnitCount w bytes ≠ max 1 (ceilDiv (imageBitCount w bytes) 8) then some .countMismatch
    else if tailNonzero o (imageBitCount w bytes) (imageUnitCount w bytes)
      (bytes.getD (3 * w + imageUnitCount w bytes - 1) 0) then some .nonzeroTail
    else none :=
  (if_neg (by omega)).trans (if_neg (by simpa using h))

end Validate

theorem tailNonzero_eq_true {o : BitOrder} {bc u : Nat} {last : Byte} :
    tailNonzero o bc u last = true ↔ ∃ p < 8, bc ≤ 8 * (u - 1) + p ∧ unitBit o last p = true := by
  simp [tailNonzero]

theorem exec_bbDeserEnd_of_invalid {s : State} {b : BitVec 2} (hb : b.toNat < s.cfg.nbuf)
    (hactive : (s.buf b).stg.active = true) {r : Subcode}
    (hv : validate s.cfg.bitOrder s.cfg.w (s.buf b).stg.bytes (s.buf b).stg.ovf = some r) :
    exec (.bbDeserEnd b) s = .next (s.raised .malformed r.code) := by
  rw [exec_bbDeserEnd hb, if_neg (by rw [hactive]; decide), hv]
  rfl

/-- What an END that accepts its image does (41_bitbuffer_serial.md R163). -/
theorem exec_bbDeserEnd_installs {s : State} {b : BitVec 2} (hr : Ready b s) {bytes : List Byte} {ovf : Bool}
    (hg : (s.buf b).stg = ⟨true, bytes, ovf⟩) (hv : validate s.cfg.bitOrder s.cfg.w bytes ovf = none) :
    ∃ t, exec (.bbDeserEnd b) s = .next t ∧ Done s t ∧ OnlyBuf b s t ∧
      (t.buf b).image s.cfg.w = bytes ∧ (t.buf b).Valid s.cfg ∧
      (t.buf b).stg = ⟨false, [], false⟩ ∧ CursorsStaled (s.buf b) (t.buf b) ∧
      t.res0.toNat = (t.buf b).bitCount ∧ t.res1.toNat = (t.buf b).units.length := by
  have hexec := exec_bbDeserEnd_of_valid hr.present (by rw [hg]) (by rw [hg]; exact hv)
  rw [hg] at hexec
  have hB : ((s.buf b).install s.cfg.w bytes).Valid s.cfg := by
    have hlen := hr.valid.staged_le
    rw [hg] at hlen
    exact install_valid hv hlen hr.valid
  have hunits : imageUnitCount s.cfg.w bytes = ((s.buf b).install s.cfg.w bytes).units.length := by
    obtain ⟨-, -, hlen, -⟩ := validate_eq_none.mp hv
    exact (imageUnits_length hlen).symm
  refine ⟨_, hexec, setBuf_completed_done .., setBuf_completed_only .., ?_⟩
  rw [buf_completed, buf_setBuf_same]
  exact ⟨install_image hv _, hB, rfl, cursorsStaled_of_markStale rfl rfl, word32_toNat (bitCount_lt hr.legal hB),
    (word32_toNat (hunits.trans_lt (units_length_lt hr.legal hB))).trans hunits⟩

/-- Settles O31: the first check of Validate that fails gives the subcode; when none does, `exec_bbDeserEnd_installs`. -/
theorem sessionEndInstallsOrRejects : Obligations.SessionEndInstallsOrRejects := by
  unfold Obligations.SessionEndInstallsOrRejects
  refine ⟨rfl, ?_⟩
  rintro s b bytes ovf _ _ _ _ _ hr hg rfl rfl rfl rfl rfl
  have rejects {r : Subcode} (hv : validate s.cfg.bitOrder s.cfg.w bytes ovf = some r) :
      exec (.bbDeserEnd b) s = .next (s.raised .malformed r.code) :=
    exec_bbDeserEnd_of_invalid hr.present (by rw [hg]) (by rw [hg]; exact hv)
  refine ⟨?_, fun h => rejects (validate_lengthMismatch h), ?_⟩
  · rintro rfl hshort
    exact rejects (validate_shortHeader hshort)
  · rintro rfl hlen
    have start := validate_of_length (o := s.cfg.bitOrder) hlen
    have nonempty (hU : imageUnitCount s.cfg.w bytes ≠ 0) := start.trans (if_neg hU)
    have indexed hU (hC : imageUnitIndex s.cfg.w bytes = _) := (nonempty hU).trans (if_neg (not_not.mpr hC))
    have counted hU hC (hcount : imageUnitCount s.cfg.w bytes = _) := (indexed hU hC).trans (if_neg (not_not.mpr hcount))
    refine ⟨fun hU => ?_, fun hU hC => ?_, fun hU hC hcount => ?_, fun hU hC hcount => ⟨fun htail => ?_, fun htail => ?_⟩⟩
    · exact rejects (start.trans (if_pos hU))
    · exact rejects ((nonempty hU).trans (if_pos hC))
    · exact rejects ((indexed hU hC).trans (if_pos hcount))
    · exact rejects ((counted hU hC hcount).trans (if_pos (tailNonzero_eq_true.mpr htail)))
    · refine exec_bbDeserEnd_installs hr hg ((counted hU hC hcount).trans (if_neg ?_))
      exact ne_true_of_eq_false (tailNonzero_eq_false.mpr htail)

end Sys2Proof.Machine
end

section
/-! PROOFS. The step, a command issued and run, and the reset input (70_reset_and_hazards.md R280 to R292): how an input moves
the machine, that a CMD write latches what the command reads, and that no command reads CMD, ARG0 or ARG1. -/

namespace Sys2Proof.Machine

/-! ### One step and several -/

section Run

variable {M : Host.Core}

theorem run_succ {s t : M.State} {k : Nat} (h : M.step s = .next t) : M.run (k + 1) s = M.run k t := by
  rw [Host.Core.run, h]

theorem run_one (s : M.State) : M.run 1 s = M.step s := by
  rw [Host.Core.run]
  cases M.step s <;> rfl

end Run

theorem core_run_succ {s t : State} {k : Nat} (h : step s = .next t) :
    Sys2Proof.core.run (k + 1) s = Sys2Proof.core.run k t :=
  run_succ (M := Sys2Proof.core) h

theorem core_run_one (s : State) : Sys2Proof.core.run 1 s = step s :=
  run_one (M := Sys2Proof.core) s

/-- The engine has nothing to run (70_reset_and_hazards.md R280). -/
theorem engineTurn_idle {s : State} (h : s.inReset = true ∨ s.busy = false) : engineTurn s = .next s := by
  unfold engineTurn
  rcases h with hr | hb
  · exact if_pos hr
  · rw [hb, if_neg Bool.false_ne_true, ite_self]

theorem engineTurn_exec {s : State} {i : Instr} (hr : s.inReset = false) (hb : s.busy = true) (h : decode s.latCmd = .ok i) :
    engineTurn s = exec i s :=
  (engineTurn_run hr hb).trans (runCommand_ok h)

/-- Settles O4: a step takes the input at the head of the list, or is the engine's turn when there is none. -/
theorem stepRunsTheDecodedCommand : Obligations.StepRunsTheDecodedCommand := by
  unfold Obligations.StepRunsTheDecodedCommand
  refine ⟨fun s i hr hb hdec => ⟨fun hin => ?_, fun rest hin => ?_⟩,
    fun s rest addr width v => ⟨step_cons, step_cons, fun hin hidle => ?_⟩, fun s ⟨hin, hb⟩ => ?_⟩
  · exact (step_nil hin).trans (engineTurn_exec hr hb hdec)
  · exact (step_cons hin).trans (engineTurn_exec (s := { s with inputs := rest }) hr hb hdec)
  · exact (step_cons hin).trans (engineTurn_idle (s := { s with inputs := rest }) hidle)
  · exact (step_nil hin).trans (engineTurn_idle (.inr hb))

/-! ### A CMD write (70_reset_and_hazards.md R290 to R292) -/

theorem writeCmd_idle {s : State} (hb : s.busy = false) (v : Word) : s.writeCmd v = s.accept v := by
  rw [State.writeCmd, hb, if_neg Bool.false_ne_true]

theorem writeCmd_busy {s : State} (hb : s.busy = true) (v : Word) : s.writeCmd v = { s with overrun := true } :=
  if_pos hb

/-- Settles O50: the write goes through the port to CMD, where `writeCmd_idle` or `writeCmd_busy` says what it does. -/
theorem commandWritesIssueOrDrop : Obligations.CommandWritesIssueOrDrop := by
  unfold Obligations.CommandWritesIssueOrDrop
  intro s v hr
  have hcmd : s.writeReg v (regAt 0x10) = s.writeCmd v := rfl
  rw [hostWrite_base hr v (by decide) (by decide), hcmd]
  refine ⟨fun hb => ?_, fun hb => ?_⟩
  · rw [writeCmd_idle hb]; rfl
  · rw [writeCmd_busy hb]

theorem step_issue {s : State} {v : Word} {rest : List Input}
    (hin : s.inputs = .write (s.cfg.hbbBase + 0x10) 4 v :: rest) (hr : s.inReset = false) (hb : s.busy = false) :
    step s = .next { s.accept v with inputs := rest, hostPos := s.hostPos + 1 } :=
  (step_cons hin).trans ((commandWritesIssueOrDrop { s with inputs := rest } v hr).1 hb)

section ArgWrite

variable {s : State} {v : Word} {rest : List Input} (hr : s.inReset = false)
include hr

theorem step_writeArg0 (hin : s.inputs = .write (s.cfg.hbbBase + 0x14) 4 v :: rest) :
    step s = .next { s with arg0 := v, inputs := rest, hostPos := s.hostPos + 1 } := by
  obtain ⟨harg0, -⟩ := otherWritesStoreClearOrAreIgnored { s with inputs := rest } v hr
  exact (step_cons hin).trans harg0

theorem step_writeArg1 (hin : s.inputs = .write (s.cfg.hbbBase + 0x18) 4 v :: rest) :
    step s = .next { s with arg1 := v, inputs := rest, hostPos := s.hostPos + 1 } := by
  obtain ⟨-, harg1, -⟩ := otherWritesStoreClearOrAreIgnored { s with inputs := rest } v hr
  exact (step_cons hin).trans harg1

end ArgWrite

/-- O4 for a turn of the engine in the list. -/
theorem step_engine {s : State} {i : Instr} {rest : List Input} (hin : s.inputs = .engine :: rest) (hr : s.inReset = false)
    (hb : s.busy = true) (hdec : decode s.latCmd = .ok i) : step s = exec i { s with inputs := rest } :=
  (stepRunsTheDecodedCommand.1 s i hr hb hdec).2 rest hin

/-! ### The reset input (70_reset_and_hazards.md R280 to R282) -/

theorem releaseReset_assertReset (s : State) : s.assertReset.releaseReset = { s.toReset with inReset := false } :=
  rfl

/-- Settles O58: the release resets again, to the values `toReset` gives. -/
theorem resetInputRestoresTheResetState : Obligations.ResetInputRestoresTheResetState := by
  unfold Obligations.ResetInputRestoresTheResetState
  intro s rest hin
  have hassert : step s = .next ({ s with inputs := .resetRelease :: rest } : State).assertReset := step_cons hin
  have hrelease : step ({ s with inputs := .resetRelease :: rest } : State).assertReset =
      .next ({ s with inputs := rest } : State).assertReset.releaseReset :=
    step_cons (s := ({ s with inputs := .resetRelease :: rest } : State).assertReset) rfl
  refine ⟨_, (core_run_succ hassert).trans ((core_run_one _).trans hrelease), ?_⟩
  rw [releaseReset_assertReset]; rfl

/-! ### The operands a command reads (70_reset_and_hazards.md R292) -/

section Alike

variable (c x y : Word)

theorem alike_appendTo (b : BitVec 2) (v : Bool) (s : State) :
    Alike c x y (appendTo b v s) (appendTo b v { s with cmd := c, arg0 := x, arg1 := y }) :=
  alike_selectBuf fun _ => alike_ite (alike_raise ..) (alike_complete ..)

/-- No command reads CMD, ARG0 or ARG1. -/
theorem exec_alike (i : Instr) (s : State) :
    Alike c x y (exec i s) (exec i { s with cmd := c, arg0 := x, arg1 := y }) := by
  cases i <;> unfold exec
  case nop | htClear | htInfo => exact alike_complete ..
  case bbAppend | bbAppendChar => exact alike_appendTo ..
  case bbClear | bbInfo | bbItbStart | bbItuStart | bbSerLen | bbDeserBegin =>
    exact alike_selectBuf fun _ => alike_complete ..
  case bbRemove | bbLast | bbGetbit | bbGetchar | bbGetunit | bbEqual | bbSerByte | bbDeserByte =>
    exact alike_selectBuf fun _ => alike_ite (alike_raise ..) (alike_complete ..)
  case bbItbNext | bbItuNext => exact alike_selectBuf fun _ => alike_nextElement ..
  case bbDeserEnd =>
    refine alike_selectBuf fun B => alike_ite (alike_raise ..) ?_
    dsimp only
    split
    · exact alike_raise ..
    · exact alike_complete ..
  case htPush =>
    exact alike_ite (alike_raise ..) (alike_ite (alike_raise ..) (alike_ite (alike_raise ..) (alike_complete ..)))
  case htBuild => exact alike_ite (alike_raise ..) (alike_complete ..)
  case htNodeWeight | htNodeParent | htNodeChildren | htNodeSymbol => exact alike_readNode fun _ => alike_complete ..
  case htNodeCode => exact alike_readNode fun _ => alike_ite (alike_raise ..) (alike_complete ..)
  case htLookup =>
    refine alike_ite (alike_raise ..) ?_
    have ha0 : ({ s with cmd := c, arg0 := x, arg1 := y } : State).a0 = s.a0 := rfl
    dsimp only
    rw [ha0]
    split
    · exact alike_raise ..
    · exact alike_complete ..

end Alike

/-- Settles O6: the four inputs one by one, by what a CMD write and an ARG write do and by O4; then `exec_alike`. -/
theorem issueThenRun : Obligations.IssueThenRun := by
  unfold Obligations.IssueThenRun
  refine ⟨fun s i x y rest hr hb hin => ?_, fun i s c x y => exec_alike c x y i s⟩
  have hwrites : Sys2Proof.core.run 4 s = Sys2Proof.core.run 1 { s.accept (encode i) with
      arg0 := x, arg1 := y, inputs := .engine :: rest, hostPos := s.hostPos + 3 } :=
    calc Sys2Proof.core.run 4 s
      _ = Sys2Proof.core.run 3 { s.accept (encode i) with
            inputs := [.write (s.cfg.hbbBase + 0x14) 4 x, .write (s.cfg.hbbBase + 0x18) 4 y, .engine] ++ rest,
            hostPos := s.hostPos + 1 } := core_run_succ (step_issue hin hr hb)
      _ = Sys2Proof.core.run 2 { s.accept (encode i) with
            arg0 := x, inputs := [.write (s.cfg.hbbBase + 0x18) 4 y, .engine] ++ rest, hostPos := s.hostPos + 2 } :=
          core_run_succ (step_writeArg0 hr rfl)
      _ = _ := core_run_succ (step_writeArg1 hr rfl)
  exact hwrites.trans ((core_run_one _).trans (step_engine rfl hr rfl (decodeOfEncodeIsTheCommand i)))

end Sys2Proof.Machine
end

section
/-! PROOFS. The cursors of a traversal are bound to it (70_reset_and_hazards.md R295): once STALE they stay as they are until
their own START. -/

namespace Sys2Proof.Machine

theorem markStale_of_stale {c : Cursor} (h : c.state = .stale) : c.markStale = c := by
  rw [Cursor.markStale, h]

/-- From buffer `B` to `C`, a STALE cursor is as before unless `i` is its own START on buffer `b`. -/
structure StaleKept (i : Instr) (b : BitVec 2) (B C : Buffer) : Prop where
  itb : B.itb.state = .stale → i ≠ .bbItbStart b → C.itb = B.itb
  itu : B.itu.state = .stale → i ≠ .bbItuStart b → C.itu = B.itu

/-- `B[b] <- C` for a buffer `C` with the STALE cursors kept. -/
def putStaleKept (i : Instr) (b : BitVec 2) (s : State) (C : { C : Buffer // StaleKept i b (s.buf b) C }) : State :=
  s.setBuf b C

section StaleKept

variable {i : Instr} {b : BitVec 2} {s : State} {B C : Buffer}

theorem staleKept_withItb (h : i ≠ .bbItbStart b → B.itb.state ≠ .stale) (c : Cursor) : StaleKept i b B (B.withItb c) :=
  ⟨fun hs hi => absurd hs (h hi), fun _ _ => rfl⟩

theorem staleKept_withItu (h : i ≠ .bbItuStart b → B.itu.state ≠ .stale) (c : Cursor) : StaleKept i b B (B.withItu c) :=
  ⟨fun _ _ => rfl, fun hs hi => absurd hs (h hi)⟩

theorem staleKept_withStg (g : Staging) : StaleKept i b B (B.withStg g) :=
  ⟨fun _ _ => rfl, fun _ _ => rfl⟩

theorem staleKept_of_eq (hitb : C.itb = B.itb) (hitu : C.itu = B.itu) : StaleKept i b B C :=
  ⟨fun _ _ => hitb, fun _ _ => hitu⟩

theorem staleKept_of_markStale (hitb : C.itb = B.itb.markStale) (hitu : C.itu = B.itu.markStale) : StaleKept i b B C :=
  ⟨fun h _ => hitb.trans (markStale_of_stale h), fun h _ => hitu.trans (markStale_of_stale h)⟩

theorem ends_putStaleKept (h : StaleKept i b (s.buf b) C) (r0 r1 : Word) :
    Ends (putStaleKept i b s) s (complete r0 r1 (s.setBuf b C)) :=
  ends_complete (put := putStaleKept i b s) ⟨C, h⟩ r0 r1

theorem appendTo_ends_staleKept (v : Bool) : Ends (putStaleKept i b s) s (appendTo b v s) :=
  ends_selectBuf (ends_check (by decide) fun _ => ends_putStaleKept (staleKept_of_markStale rfl rfl) _ _)

/-- `ends_nextElement` with what it leaves out: a NEXT on a STALE cursor raises. -/
theorem ends_nextElement_of_not_stale {α : Type} {put : α → State} {c : Cursor} {len : Nat} {elem : Word} {moved : State}
    (hstay : ∃ x, put x = s) (hmove : c.state ≠ .stale → ∃ x, put x = moved) :
    Ends put s (nextElement c len elem moved s) := by
  by_cases h : c.state = .stale
  · rw [nextElement_stale _ _ _ _ h]; exact ends_raise (by decide) 0
  · exact ends_nextElement hstay fun _ => hmove h

theorem exec_ends_staleKept (hb : i.bufSelect = some b) (s : State) : Ends (putStaleKept i b s) s (exec i s) := by
  have hself : putStaleKept i b s ⟨s.buf b, staleKept_of_eq rfl rfl⟩ = s := setBuf_self s b
  by_cases hread : readsOnly i = true
  · exact (exec_reads hread s).ends _ hself
  · cases i <;> simp only [Instr.bufSelect, Option.some.injEq, reduceCtorEq] at hb <;>
      simp only [readsOnly, not_true_eq_false] at hread <;> subst hb <;> unfold exec
    case bbClear => exact ends_selectBuf (ends_putStaleKept (staleKept_of_markStale rfl rfl) _ _)
    case bbAppend | bbAppendChar => exact appendTo_ends_staleKept ..
    case bbRemove =>
      exact ends_selectBuf (ends_check (by decide) fun _ => ends_putStaleKept (staleKept_of_markStale rfl rfl) _ _)
    case bbItbStart => exact ends_selectBuf (ends_putStaleKept (staleKept_withItb (absurd rfl) _) _ _)
    case bbItuStart => exact ends_selectBuf (ends_putStaleKept (staleKept_withItu (absurd rfl) _) _ _)
    case bbItbNext =>
      exact ends_selectBuf (ends_nextElement_of_not_stale ⟨_, hself⟩ fun h => ⟨⟨_, staleKept_withItb (fun _ => h) _⟩, rfl⟩)
    case bbItuNext =>
      exact ends_selectBuf (ends_nextElement_of_not_stale ⟨_, hself⟩ fun h => ⟨⟨_, staleKept_withItu (fun _ => h) _⟩, rfl⟩)
    case bbDeserBegin => exact ends_selectBuf (ends_putStaleKept (staleKept_withStg _) _ _)
    case bbDeserByte =>
      exact ends_selectBuf (ends_check (by decide) fun _ => ends_putStaleKept (staleKept_withStg _) _ _)
    case bbDeserEnd =>
      refine ends_selectBuf (ends_check (by decide) fun _ => ?_)
      split
      · exact ends_raise (by decide) _
      · exact ends_putStaleKept (staleKept_of_markStale rfl rfl) _ _

/-- The buffer `i` selects by `exec_ends_staleKept`, the others unchanged (40_bitbuffer.md R100, 42_huffman.md R180). -/
theorem exec_staleKept {t : State} (h : exec i s = .next t) (b : BitVec 2) : StaleKept i b (s.buf b) (t.buf b) := by
  obtain ⟨hother, hnone⟩ := commandsKeepTheOtherUnits i s t h
  have same (hbuf : t.buf b = s.buf b) : StaleKept i b (s.buf b) (t.buf b) :=
    staleKept_of_eq (congrArg Buffer.itb hbuf) (congrArg Buffer.itu hbuf)
  cases hsel : i.bufSelect with
  | none => exact same (congrArg (Buffers.get · b) (hnone hsel))
  | some c =>
    by_cases hbc : b = c
    · subst hbc
      rcases h ▸ exec_ends_staleKept hsel s with ⟨e, info, _, ht⟩ | ⟨⟨C, hC⟩, r0, r1, ht⟩ <;> cases ht
      · exact same (buf_raised s e info b)
      · exact (buf_setBuf_same s b C).symm ▸ hC
    · exact same ((hother c hsel).others b hbc)

end StaleKept

/-- Settles O28: `exec_staleKept`. -/
theorem staleUntilRestarted : Obligations.StaleUntilRestarted := by
  unfold Obligations.StaleUntilRestarted
  intro i s t b h
  exact ⟨(exec_staleKept h b).itb, (exec_staleKept h b).itu⟩

end Sys2Proof.Machine
end
